-- ==== Sys2Proof/Word.lean ====
section
/-! DEFINITION. The word types of WSQ-DEC: 32-bit registers and addresses, 8-bit memory bytes. -/

namespace Sys2Proof

/-- A 32-bit register or address value (00_scope R6: `STATE_W`, `VAL_W` and `AW` are 32; 92_eei_decisions D2, D16). -/
abbrev Word := BitVec 32

/-- A byte of IN or OUT, or a probability (00_scope R6: `PROB_W` is 8; 20_memory R63: every access is one byte). -/
abbrev Byte := BitVec 8

end Sys2Proof
end

