-- ==== Sys2Proof/Config.lean ====
section
/-! DEFINITION. The parameters of 00_scope R6 and the free values: constants without a body, so that no proof can
rest on what they are. -/

namespace Sys2Proof.Config

/-- `N_CTX`: the number of context slots, 1 + 255 + 1 + 64 + 64 (00_scope R6). -/
abbrev nCtx : Nat := 385
/-- `PROB_ONE`: probability `p` means P(bit = 1) = `p/256` (00_scope R6). -/
abbrev probOne : Nat := 256
/-- `PROB_INIT`: the value of every slot at the start of each decode (00_scope R6). -/
abbrev probInit : Byte := 128
/-- `ADAPT_SHIFT`: adaptation rate 1/16 (00_scope R6). -/
abbrev adaptShift : Nat := 4
/-- `ADAPT_BIAS`: rounding bias added before the shift (00_scope R6). -/
abbrev adaptBias : Nat := 8
/-- `RENORM_MIN`: renormalize while `state` is below this (00_scope R6). -/
abbrev renormMin : Nat := 4096
/-- `RENORM_SHIFT`: bits shifted in per input byte (00_scope R6). -/
abbrev renormShift : Nat := 8
/-- `CTX_ISMATCH`: context of the "is this a match" decision (00_scope R6). -/
abbrev ctxIsMatch : Nat := 0
/-- `CTX_LIT_BASE`: the literal tree starts at context 1 (00_scope R6). -/
abbrev ctxLitBase : Nat := 1
/-- `CTX_HASOFF`: context of the "new offset" decision (00_scope R6). -/
abbrev ctxHasOff : Nat := 256
/-- `CTX_OFF_BASE`: base of the offset length-code block (00_scope R6). -/
abbrev ctxOffBase : Nat := 257
/-- `CTX_LEN_BASE`: base of the match-length code block (00_scope R6). -/
abbrev ctxLenBase : Nat := 321
/-- `LC_MAXPOS`: the largest `bit_pos` the length decoder supports (00_scope R6, 42_length_decoder R153). -/
abbrev lcMaxPos : Nat := 31

/-- FREE VALUE. The state STUPD leaves when its bit is not the one DECIDE gives for its `p` and the formula of
41_entropy_decoder R132 leaves the naturals; applied to the old state and `p`. The spec states no result there.
DESIGN CHOICE: log 7. -/
opaque stupdUnstated : Word → Byte → Word

/-- FREE VALUE. The byte a host read of the OUT range returns while the engine is busy (70_reset_and_hazards R252,
93_implementation_defined U15: any value); applied to `State.freeTick` and the address. DESIGN CHOICE: log 8. -/
opaque earlyOutByte : Nat → Word → Byte

/-- FREE VALUE. The byte IN holds at an address nothing has written: the spec gives IN no contents (10_state R45:
the host fixes them). DESIGN CHOICE: log 5. -/
opaque unwrittenIn : Nat → Byte

/-- FREE VALUE. The byte OUT holds at an address nothing has written: its prior contents are whatever the platform has
there (10_state R45, 93_implementation_defined U16). DESIGN CHOICE: log 5. -/
opaque unwrittenOut : Nat → Byte

end Sys2Proof.Config
end

