-- ==== Sys2Proof/Syntax.lean ====
section
/-! DEFINITION. The operations of WSQ-DEC: one constructor per row of spec/opcode_table.json (30_encoding R103). -/

namespace Sys2Proof

/-- A length-code block: `off` is the offset block (base 257, `lsel` = 0), `len` the match-length block (base 321,
`lsel` = 1) (10_state R32, R38; 42_length_decoder R151: `B` is 257 or 321). -/
inductive Block where
  | off
  | len
deriving DecidableEq, Repr

/-- The 28 operations. SYM rows carry the fields of 30_encoding R98, PROC rows their operands; a context index has
the 9 bits of 10_state R37. -/
inductive Instr where
  -- SYM: stream symbols
  | lit (v : Byte)                  -- LIT, 43_literal_decoder R164
  | matchR (n : Word)               -- MATCH.R, 44_match_copy R178
  | endN                            -- END.N, 44_match_copy R180
  | matchN (o n : Word)             -- MATCH.N, 44_match_copy R177
  | endC                            -- END.C, 44_match_copy R181
  | matchC (o n : Word)             -- MATCH.C, 44_match_copy R179
  -- PHASE: steps of the engine
  | idle                            -- IDLE, 45_top_fsm R196
  | sop                             -- SOP, 45_top_fsm R194
  | litBit                          -- LIT_BIT, 43_literal_decoder R162
  | litEmit                         -- LIT_EMIT, 43_literal_decoder R163
  | mHasoff                         -- M_HASOFF, 44_match_copy R170
  | lCont                           -- L_CONT, 42_length_decoder R154
  | lVal                            -- L_VAL, 42_length_decoder R155
  | mChk                            -- M_CHK, 44_match_copy R174
  | mCopy                           -- M_COPY, 44_match_copy R175
  | done                            -- DONE, 45_top_fsm R195
  | faulted                         -- FAULT, 60_exceptions R216
  -- PROC: procedures
  | probRd (c : BitVec 9)           -- PROB.RD, 40_context_model R121
  | probUpd (c : BitVec 9) (b : Bool) -- PROB.UPD, 40_context_model R122
  | renorm                          -- RENORM, 41_entropy_decoder R130
  | decideBit (p : Byte)            -- DECIDE, 41_entropy_decoder R131
  | stupd (b : Bool) (p : Byte)     -- STUPD, 41_entropy_decoder R132
  | decbit (c : BitVec 9)           -- DECBIT, 41_entropy_decoder R134
  | declen (B : Block)              -- DECLEN, 42_length_decoder R151
  | declit                          -- DECLIT, 43_literal_decoder R161
  | emit                            -- EMIT, 43_literal_decoder R163
  | copyb                           -- COPYB, 44_match_copy R175
  | start                           -- START, 45_top_fsm R191
deriving DecidableEq, Repr

end Sys2Proof
end

