-- ==== Sys2Proof/Machine/State.lean ====
section
/-! DEFINITION. The state of WSQ-DEC as plain data, the reasons a step can stop, and the state after reset. -/

namespace Sys2Proof.Machine

/-- Reasons the model stops where the spec gives a state no behaviour. None is one of the four hardware faults: those
are next states (60_exceptions R216, log 4). All are SAFE: the hardware never comes to these states (10_state R47,
R50), so a stop there claims nothing about it. -/
inductive Fault where
  /-- Raised by the step when `phase` holds 11..15: never held, "stuck if a model must give one" (30_encoding R102,
  U20). Safe. -/
  | noSuchPhase
  /-- Raised by PROB.RD, PROB.UPD and DECBIT for a context above 384: "a model may give `c > 384` no meaning"
  (40_context_model R121, 10_state R37). Safe. -/
  | noSuchContext
  /-- Raised by LIT_BIT when `byte` is above 255, so that the new value does not fit nine bits (43_literal_decoder
  R162: on entry `1 <= byte <= 255`). Safe. -/
  | literalTooLong
  /-- Raised by L_VAL when `bit_pos` is 31, so that the new value does not fit five bits (42_length_decoder R155: on
  entry `bit_pos <= 30`). Safe. -/
  | bitPosTooLarge
  /-- Raised by M_COPY and COPYB when `rem` is 0, so that `rem - 1` is no natural (44_match_copy R175: on entry
  `rem >= 1`). Safe. -/
  | nothingToCopy
  /-- Raised by M_COPY and COPYB when `offset > write_pos`: the address `write_pos - offset` lies outside the address
  space (20_memory R60, 44_match_copy R174). Safe. -/
  | outAddressBelowZero
deriving DecidableEq, Repr

/-- Reasons the model refuses: it gives the run no behaviour because the spec puts it outside itself. -/
inductive Refusal where
  /-- Raised by `exec` for an instruction that has no meaning yet. Safe. -/
  | notModelled (mnemonic : String)
  /-- Raised by RENORM and a host access when the platform backs no byte of IN at the address (20_memory R71, U14:
  refuse; log 17). Safe. -/
  | inNotBacked
  /-- Raised by an output operation and a host access when the platform backs no byte of OUT at the address
  (20_memory R71, U14: refuse; log 17). Safe. -/
  | outNotBacked
  /-- Raised by START when the platform does not back all of `SRC .. src_end - 1` in IN and `DST .. dst_end - 1` in OUT
  with plain memory (20_memory R71, D19, U14: refuse the launch; log 17). Safe. -/
  | launchNotBacked
  /-- Raised by START when the host has not written all of SRC, SRC_END, DST, DST_END since reset (10_state R50, U11:
  refuse; log 6). Safe. -/
  | startUnwritten
  /-- Raised by a host write to IN, or to the OUT range of the decode, while BUSY = 1 (70_reset_and_hazards R252, U15:
  refuse). Safe. -/
  | hostWriteWhileBusy
  /-- Raised by a host access at an offset up to 0x20 that is no word offset: the bus is the platform's (20_memory R62,
  D20; log 14). Safe. -/
  | hostOffsetNotAWord
deriving DecidableEq, Repr

/-- The bytes that have been written, by address, in one canonical form: addresses strictly rising (Machine/Ops.lean).
What an address that is not listed holds is a free value (log 5). -/
abbrev Memory := List Host.Cell

/-- Addresses `lo .. hi - 1` that the platform backs with plain memory (20_memory R71). The model's own form: log 17. -/
structure Region where
  lo : Nat
  hi : Nat
deriving DecidableEq, Repr

/-- All 32-bit addresses (20_memory R60, 00_scope R6). -/
abbrev wholeSpace : List Region := [⟨0, 2 ^ 32⟩]

/-- What a procedure (PROC row) returns (40_context_model R121, 41_entropy_decoder R131, R134, 42_length_decoder R151,
43_literal_decoder R161). The model's own: log 11. -/
inductive ProcResult where
  | none
  | prob (p : Byte)
  | split (b : Bool) (low : Byte)
  | bit (b : Bool)
  | length (v : Word)
  | literal (v : Byte)
deriving DecidableEq, Repr

/-- What the host does at one step boundary (00_scope R7, 45_top_fsm R200). The model's own form: log 2. -/
inductive HostAct where
  /-- Nothing: the engine takes one step. -/
  | engine
  /-- Nothing until the engine has finished the symbol it is about to begin (log 13). -/
  | symbol
  /-- A read of the host register at a byte offset (10_state R40). -/
  | regRead (off : Nat)
  /-- A write of the host register at a byte offset (10_state R40). -/
  | regWrite (off : Nat) (v : Word)
  /-- A read of a byte of IN. -/
  | inRead (a : Word)
  /-- A write of a byte of IN. -/
  | inWrite (a : Word) (v : Byte)
  /-- A read of a byte of OUT. -/
  | outRead (a : Word)
  /-- A write of a byte of OUT. -/
  | outWrite (a : Word) (v : Byte)
  /-- The hardware reset input (70_reset_and_hazards R240). -/
  | reset
deriving DecidableEq, Repr

/-- The state of WSQ-DEC. The registers are those of 10_state R20, in its order; the memories those of R39; the last
fields are the model's own. -/
structure State where
  /-- The entropy coder's working value (10_state R21). -/
  state : Word
  /-- IN address of the next byte to consume (10_state R22). -/
  cursor : Word
  /-- IN address one past the last byte the engine may read (10_state R23). -/
  srcEnd : Word
  /-- OUT address of the next byte to write (10_state R24). -/
  writePos : Word
  /-- `write_pos` at START (10_state R25). -/
  dstBase : Word
  /-- OUT address one past the last byte the engine may write (10_state R26). -/
  dstEnd : Word
  /-- Distance of the current or most recent match (10_state R27). -/
  offset : Word
  /-- Bytes still to copy in the current match (10_state R28). -/
  rem : Word
  /-- The length decoder's accumulator (10_state R29). -/
  acc : Word
  /-- Position of the next value bit of the length code (10_state R30). -/
  bitPos : BitVec 5
  /-- Context of the next continue decision (10_state R31). -/
  lctx : BitVec 9
  /-- Which value the length code delivers: false is 0, an offset; true is 1, a length (10_state R32). -/
  lsel : Bool
  /-- The literal decoder's partial byte with its seed bit (10_state R33). -/
  byte : BitVec 9
  /-- `prev_was_match` (10_state R34). -/
  pwm : Bool
  /-- The FSM state register, codes of 30_encoding R102 (10_state R35). -/
  phase : BitVec 4
  /-- Code of the fault that stopped the engine (10_state R36, 60_exceptions R210). -/
  cause : BitVec 3
  /-- Its record (10_state R36, 60_exceptions R210). -/
  info : Word
  /-- The context probability table (10_state R37, R38). -/
  probs : Vector Byte Config.nCtx
  /-- The IN space (10_state R39). -/
  inMem : Memory
  /-- The OUT space (10_state R39). -/
  outMem : Memory
  /-- Where the platform backs IN with plain memory (20_memory R71). The model's own: log 17. -/
  inBacking : List Region
  /-- Where the platform backs OUT with plain memory (20_memory R71). The model's own: log 17. -/
  outBacking : List Region
  /-- The host has written SRC since reset (U11). The model's own: log 6. -/
  srcSet : Bool
  /-- The host has written SRC_END since reset (U11). The model's own: log 6. -/
  srcEndSet : Bool
  /-- The host has written DST since reset (U11). The model's own: log 6. -/
  dstSet : Bool
  /-- The host has written DST_END since reset (U11). The model's own: log 6. -/
  dstEndSet : Bool
  /-- What the latest procedure returned. The model's own: log 11. -/
  result : ProcResult
  /-- The host's coming actions. The model's own: log 2. -/
  script : List HostAct
  /-- What the host's latest read returned. The model's own: log 2. -/
  busData : Word
  /-- Picks the next free value (`Config.earlyOutByte`). The model's own: log 8. -/
  freeTick : Nat
deriving DecidableEq, Repr

/-- The machine right after reset (70_reset_and_hazards R240): `phase`, `cause` and `info` as the spec says. Every other
register is unspecified there; the model names the value 0 (DESIGN CHOICE, unsafe: log 1). No memory byte is listed, the
platform backs all of both spaces (DESIGN CHOICE: log 17), no host action is pending. -/
def State.reset : State where
  state := 0
  cursor := 0
  srcEnd := 0
  writePos := 0
  dstBase := 0
  dstEnd := 0
  offset := 0
  rem := 0
  acc := 0
  bitPos := 0
  lctx := 0
  lsel := false
  byte := 0
  pwm := false
  phase := 0
  cause := 0
  info := 0
  probs := Vector.replicate Config.nCtx 0
  inMem := []
  outMem := []
  inBacking := wholeSpace
  outBacking := wholeSpace
  srcSet := false
  srcEndSet := false
  dstSet := false
  dstEndSet := false
  result := .none
  script := []
  busData := 0
  freeTick := 0

end Sys2Proof.Machine
end

