-- ==== Sys2Proof/Machine/Flags.lean ====
section
/-! DEFINITION. The phase codes, the status flags, which are functions of `phase`, and the probability and comparison
rules that decide a bit. `pwm`, the one condition flag, is a field of State (10_state R34). -/

namespace Sys2Proof.Machine

/-! ## Phase codes (30_encoding R102) -/

/-- Code 0: before a decode. -/
abbrev phIdle : BitVec 4 := 0
/-- Code 1: start of an operation. -/
abbrev phSop : BitVec 4 := 1
/-- Code 2: one literal tree decision. -/
abbrev phLitBit : BitVec 4 := 2
/-- Code 3: append the literal. -/
abbrev phLitEmit : BitVec 4 := 3
/-- Code 4: the new-offset decision. -/
abbrev phMHasoff : BitVec 4 := 4
/-- Code 5: a continue decision. -/
abbrev phLCont : BitVec 4 := 5
/-- Code 6: a value decision. -/
abbrev phLVal : BitVec 4 := 6
/-- Code 7: validate the back-reference. -/
abbrev phMChk : BitVec 4 := 7
/-- Code 8: copy a byte. -/
abbrev phMCopy : BitVec 4 := 8
/-- Code 9: the sentinel was decoded. -/
abbrev phDone : BitVec 4 := 9
/-- Code 10: a fault stopped the engine. -/
abbrev phFault : BitVec 4 := 10

/-! ## STATUS (10_state R42) -/

/-- STATUS.BUSY: `phase` is one of the codes 1..8. -/
def State.busy (s : State) : Bool := 1 ≤ s.phase.toNat && s.phase.toNat ≤ 8

/-- STATUS.DONE: `phase` is DONE. -/
def State.doneFlag (s : State) : Bool := s.phase == phDone

/-- STATUS.FAULT: `phase` is FAULT. -/
def State.faultFlag (s : State) : Bool := s.phase == phFault

/-- The 32-bit value of STATUS: bit 0 BUSY, bit 1 DONE, bit 2 FAULT, bits 7:4 PHASE, other bits 0 (10_state R40, R42). -/
def State.statusWord (s : State) : Word :=
  BitVec.ofNat 32 (s.busy.toNat + 2 * s.doneFlag.toNat + 4 * s.faultFlag.toNat + 16 * s.phase.toNat)

/-! ## The rules that decide a bit -/

/-- `low`: the low byte of the coder state (41_entropy_decoder R131). -/
def lowByte (st : Word) : Byte := st.setWidth 8

/-- DECIDE: 1 if `low < p`, else 0, both unsigned (41_entropy_decoder R131). -/
def splitBit (p : Byte) (st : Word) : Bool := (lowByte st).toNat < p.toNat

/-- STUPD (41_entropy_decoder R132), over the naturals: with `h` the state without its low byte, `p * h + low` on bit 1
and `(256 - p) * h + low - p` on bit 0. Where the last subtraction would leave the naturals, which needs a bit that
DECIDE does not give, the result is the free value (log 7). -/
def stateUpdate (b : Bool) (p : Byte) (st : Word) : Word :=
  let h := st.toNat / 256
  let low := st.toNat % 256
  if b then BitVec.ofNat 32 (p.toNat * h + low)
  else if p.toNat ≤ (Config.probOne - p.toNat) * h + low then
    BitVec.ofNat 32 ((Config.probOne - p.toNat) * h + low - p.toNat)
  else Config.stupdUnstated st p

/-- PROB.UPD's new probability (40_context_model R122): adaptive smoothing at rate 1/16, rounding half up. -/
def probUpdate (b : Bool) (p : Byte) : Byte :=
  if b then BitVec.ofNat 8 (p.toNat + (Config.probOne - p.toNat + Config.adaptBias) / 2 ^ Config.adaptShift)
  else BitVec.ofNat 8 (p.toNat - (p.toNat + Config.adaptBias) / 2 ^ Config.adaptShift)

end Sys2Proof.Machine
end

