-- ==== Sys2Proof/Machine/Operands.lean ====
section
/-! DEFINITION. The operands of the step rules: contexts, the values of length codes, the literal's partial byte, the
back-reference. -/

namespace Sys2Proof.Machine

/-- The context base a length code starts at: 257 when `sel` is 0, else 321 (42_length_decoder R156). -/
def lstartContext (sel : Bool) : BitVec 9 := if sel then 321 else 257

/-- The `lsel` of a block (10_state R32). -/
def blockSel : Block → Bool
  | .off => false
  | .len => true

/-- The context of the continue decision: `lctx` (42_length_decoder R154). -/
def contContext (s : State) : Nat := s.lctx.toNat

/-- The context of the value decision: `lctx + 1` (42_length_decoder R155). -/
def valContext (s : State) : Nat := s.lctx.toNat + 1

/-- The context of a literal tree decision: the partial byte itself (43_literal_decoder R162). -/
def treeContext (s : State) : Nat := s.byte.toNat

/-- The value a length code delivers when it stops: `acc | (1 << bit_pos)` (42_length_decoder R151, R154). -/
def lengthValue (s : State) : Word := s.acc ||| ((1 : Word) <<< s.bitPos.toNat)

/-- The accumulator with one more value bit: `acc | (b << bit_pos)` (42_length_decoder R151, R155). -/
def accWithBit (s : State) (b : Bool) : Word := s.acc ||| (BitVec.ofNat 32 b.toNat <<< s.bitPos.toNat)

/-- The partial byte with one more bit: `(byte << 1) + b` (43_literal_decoder R162). -/
def byteWithBit (s : State) (b : Bool) : BitVec 9 := BitVec.ofNat 9 (2 * s.byte.toNat + b.toNat)

/-- The literal: `byte[7:0]` (43_literal_decoder R161, R163). -/
def literalByte (s : State) : Byte := s.byte.setWidth 8

/-- M_CHK's test: `offset = 0` or `offset > write_pos - dst_base` (44_match_copy R174). Written without subtraction, it
also holds where `write_pos < dst_base`, when the difference is negative (log 15). -/
def offsetInvalid (s : State) : Bool := s.offset.toNat == 0 || s.writePos.toNat < s.offset.toNat + s.dstBase.toNat

/-- The address a back-reference reads: `write_pos - offset` (44_match_copy R175); used where `offset <= write_pos`. -/
def copySource (s : State) : Nat := s.writePos.toNat - s.offset.toNat

end Sys2Proof.Machine
end

