-- ==== Sys2Proof/Machine/Ops.lean ====
section
/-! DEFINITION. The shared operations: memory, the probability table, taking a fault, and the procedures of the decoder
that several meanings use. -/

namespace Sys2Proof.Machine

/-! ## Results of an operation -/

/-- What an operation inside a step ends in: a value and the state, a hardware fault taken (its state is the FAULT
state, 60_exceptions R216), or a stop of the model. -/
inductive Res (α : Type) where
  | ok (a : α) (s : State)
  | raised (s : State)
  | fault (f : Fault)
  | refused (r : Refusal)

/-- Go on with the value and the state; a fault taken or a stop ends the step (00_scope R8, R10). -/
def Res.bind {α β : Type} (x : Res α) (f : α → State → Res β) : Res β :=
  match x with
  | .ok a s => f a s
  | .raised s => .raised s
  | .fault e => .fault e
  | .refused e => .refused e

/-- The outcome of a step: a hardware fault is a next state too (60_exceptions R216, log 4). -/
def Res.toOutcome {α : Type} : Res α → Host.Outcome State Fault Refusal
  | .ok _ s => .next s
  | .raised s => .next s
  | .fault e => .fault e
  | .refused e => .refused e

/-- The outcome of a procedure: its value is left in `result` (log 11). -/
def Res.returning {α : Type} (f : α → ProcResult) : Res α → Host.Outcome State Fault Refusal
  | .ok a s => .next { s with result := f a }
  | .raised s => .next s
  | .fault e => .fault e
  | .refused e => .refused e

/-! ## Memory (20_memory R65 to R67, R71) -/

/-- The byte written at an address, if one was. -/
def Memory.read (m : Memory) (a : Nat) : Option Byte :=
  match m with
  | [] => none
  | (b, v) :: rest => if a = b then some v else Memory.read rest a

/-- The memory with one byte stored, in canonical form if `m` is. -/
def Memory.write (m : Memory) (a : Nat) (v : Byte) : Memory :=
  match m with
  | [] => [(a, v)]
  | (b, w) :: rest =>
    if a < b then (a, v) :: (b, w) :: rest
    else if a = b then (a, v) :: rest
    else (b, w) :: Memory.write rest a v

/-- The canonical form: addresses strictly rising, all of them 32-bit addresses (20_memory R60). -/
def Memory.wf (m : Memory) : Bool :=
  match m with
  | [] => true
  | (a, _) :: rest => a < 2 ^ 32 && rest.all (fun c => a < c.1) && Memory.wf rest

/-- Bytes at consecutive addresses. -/
def Memory.ofBytes (a : Nat) : List Byte → Memory
  | [] => []
  | b :: bs => (a, b) :: Memory.ofBytes (a + 1) bs

/-- Do the regions back the address? -/
def backedAt (rs : List Region) (a : Nat) : Bool := rs.any fun r => r.lo ≤ a && a < r.hi

/-- Do the regions back every address `lo .. hi - 1`? The lowest address they leave out would be `lo` itself or the end
of a region, so these are looked at (Laws/Memory.lean: rangeBacked_iff). -/
def rangeBacked (rs : List Region) (lo hi : Nat) : Bool :=
  (lo :: rs.map (·.hi)).all fun a => a < lo || hi ≤ a || backedAt rs a

/-- `MemRead(IN, a, 1)` (20_memory R65): the last byte written there, or the free value where nothing was written
(log 5); `none` where the platform backs no byte (log 17). -/
def State.readIn (s : State) (a : Nat) : Option Byte :=
  if backedAt s.inBacking a then some ((s.inMem.read a).getD (Config.unwrittenIn a)) else none

/-- `MemRead(OUT, a, 1)` (20_memory R67), as `readIn`. -/
def State.readOut (s : State) (a : Nat) : Option Byte :=
  if backedAt s.outBacking a then some ((s.outMem.read a).getD (Config.unwrittenOut a)) else none

/-! ## Taking a fault (60_exceptions R210, R216) -/

/-- The four hardware faults. -/
inductive FaultKind where
  | truncatedInput
  | outputOverflow
  | invalidOffset
  | lengthOverflow
deriving DecidableEq, Repr

/-- The `cause` code of a fault (60_exceptions R210). -/
def causeCode : FaultKind → BitVec 3
  | .truncatedInput => 1
  | .outputOverflow => 2
  | .invalidOffset => 3
  | .lengthOverflow => 4

/-- `raise F(i)`: `cause <- code(F); info <- i; phase <- FAULT`, and nothing else (60_exceptions R216). There is no
return from it (R218); the way out is START or reset. -/
def raiseFault (k : FaultKind) (info : Word) (s : State) : State :=
  { s with cause := causeCode k, info := info, phase := phFault }

/-! ## The probability table (40_context_model R121, R122) -/

/-- PROB.RD: `probs[c]`; a context above 384 has no meaning. -/
def probRead (c : Nat) (s : State) : Res Byte :=
  match s.probs[c]? with
  | some p => .ok p s
  | none => .fault .noSuchContext

/-- `probs[c] <- p`. -/
def probWrite (c : Nat) (p : Byte) (s : State) : State := { s with probs := s.probs.setIfInBounds c p }

/-! ## The entropy decoder (41_entropy_decoder) -/

/-- One iteration's effect: `cursor <- cursor + 1; state <- (state << 8) | b` (41_entropy_decoder R130). -/
def shiftIn (b : Byte) (s : State) : State :=
  { s with cursor := s.cursor + 1, state := (s.state <<< Config.renormShift) ||| b.setWidth 32 }

/-- RENORM's loop (41_entropy_decoder R130); `n` is `src_end - cursor`, so that `n = 0` says `cursor >= src_end`. -/
def renormLoop : Nat → State → Res Unit
  | 0, s =>
    if s.state.toNat < Config.renormMin then .raised (raiseFault .truncatedInput s.cursor s) else .ok () s
  | n + 1, s =>
    if s.state.toNat < Config.renormMin then
      match s.readIn s.cursor.toNat with
      | none => .refused .inNotBacked
      | some b => renormLoop n (shiftIn b s)
    else .ok () s

/-- RENORM: while `state < 4096`, consume a byte, or raise TruncatedInput where `cursor >= src_end`
(41_entropy_decoder R130). -/
def renormalize (s : State) : Res Unit := renormLoop (s.srcEnd.toNat - s.cursor.toNat) s

/-- What a decision leaves, given the probability it used: STUPD, then PROB.UPD with the old `p` (41_entropy_decoder
R132, R133). -/
def afterDecision (c : Nat) (p : Byte) (s : State) : State :=
  probWrite c (probUpdate (splitBit p s.state) p) { s with state := stateUpdate (splitBit p s.state) p s.state }

/-- DECBIT: RENORM, PROB.RD, DECIDE, STUPD, PROB.UPD (41_entropy_decoder R134). -/
def decodeBit (c : Nat) (s : State) : Res Bool :=
  (renormalize s).bind fun _ s1 =>
  (probRead c s1).bind fun p s2 =>
  .ok (splitBit p s2.state) (afterDecision c p s2)

/-! ## The length decoder (42_length_decoder) -/

/-- LSTART(sel), begin a length code (42_length_decoder R156). -/
def lstart (sel : Bool) (s : State) : State :=
  { s with lsel := sel, acc := 0, bitPos := 0, lctx := lstartContext sel, phase := phLCont }

/-- deliver_offset(v): `offset <- v - 1`, then DONE at 0, else the match-length code (44_match_copy R172). -/
def deliverOffset (v : Word) (s : State) : State :=
  if v - 1 = 0 then { s with offset := v - 1, phase := phDone } else lstart true { s with offset := v - 1 }

/-- deliver_length(v): `rem <- v`, then M_CHK (44_match_copy R173). -/
def deliverLength (v : Word) (s : State) : State := { s with rem := v, phase := phMChk }

/-- The effect of a value decision on the length decoder's registers (42_length_decoder R151, R155). -/
def takeValueBit (b : Bool) (s : State) : State :=
  { s with acc := accWithBit s b, bitPos := s.bitPos + 1, lctx := s.lctx + 2 }

/-- DECLEN's loop (42_length_decoder R151); `n` is `31 - bit_pos`, so that `n = 0` says `bit_pos = 31`. -/
def lengthLoop : Nat → State → Res Word
  | 0, s =>
    (decodeBit (contContext s) s).bind fun c s1 =>
    if c then .raised (raiseFault .lengthOverflow (s1.lctx.setWidth 32) s1) else .ok (lengthValue s1) s1
  | n + 1, s =>
    (decodeBit (contContext s) s).bind fun c s1 =>
    if c then (decodeBit (valContext s1) s1).bind fun b s2 => lengthLoop n (takeValueBit b s2)
    else .ok (lengthValue s1) s1

/-- DECLEN(B): `acc <- 0; bit_pos <- 0; lctx <- B`, then the loop (42_length_decoder R151). -/
def decodeLength (b : Block) (s : State) : Res Word :=
  lengthLoop Config.lcMaxPos { s with acc := 0, bitPos := 0, lctx := lstartContext (blockSel b) }

/-! ## The literal decoder and the output (43_literal_decoder, 44_match_copy) -/

/-- DECLIT's loop: `while byte < 256`, at most `n` times (43_literal_decoder R161). -/
def literalLoop : Nat → State → Res Byte
  | 0, s => .ok (literalByte s) s
  | n + 1, s =>
    if s.byte.toNat < 256 then
      (decodeBit (treeContext s) s).bind fun b s1 => literalLoop n { s1 with byte := byteWithBit s1 b }
    else .ok (literalByte s) s

/-- DECLIT: `byte <- 1`, then eight decisions (43_literal_decoder R161). -/
def decodeLiteral (s : State) : Res Byte := literalLoop 8 { s with byte := 1 }

/-- `MemWrite(OUT, write_pos, 1, v); write_pos <- write_pos + 1` (20_memory R66). -/
def appendOut (v : Byte) (s : State) : State :=
  { s with outMem := s.outMem.write s.writePos.toNat v, writePos := s.writePos + 1 }

/-- The same, refused where the platform backs no byte of OUT (20_memory R71, log 17). -/
def storeOut (v : Byte) (s : State) : Res Unit :=
  if backedAt s.outBacking s.writePos.toNat then .ok () (appendOut v s) else .refused .outNotBacked

/-- Append a literal to the output, or raise OutputOverflow (43_literal_decoder R163). -/
def emitByte (v : Byte) (s : State) : Res Unit :=
  if s.dstEnd.toNat ≤ s.writePos.toNat then .raised (raiseFault .outputOverflow s.writePos s)
  else (storeOut v s).bind fun _ s1 => .ok () { s1 with pwm := false, phase := phSop }

/-- The registers after one copied byte: `rem <- rem - 1`, and `pwm <- 1; phase <- SOP` when it reaches 0
(44_match_copy R175). -/
def countCopied (s : State) : State :=
  if s.rem - 1 = 0 then { s with rem := s.rem - 1, pwm := true, phase := phSop }
  else { s with rem := s.rem - 1, phase := phMCopy }

/-- Copy one byte of the back-reference, the read before the write (44_match_copy R175, 20_memory R68). -/
def copyByte (s : State) : Res Unit :=
  if s.dstEnd.toNat ≤ s.writePos.toNat then .raised (raiseFault .outputOverflow s.writePos s)
  else if s.rem = 0 then .fault .nothingToCopy
  else if s.writePos.toNat < s.offset.toNat then .fault .outAddressBelowZero
  else
    match s.readOut (copySource s) with
    | none => .refused .outNotBacked
    | some v => (storeOut v s).bind fun _ s1 => .ok () (countCopied s1)

/-- The check before the copy (44_match_copy R174). -/
def checkOffset (s : State) : Res Unit :=
  if offsetInvalid s then .raised (raiseFault .invalidOffset s.offset s) else .ok () { s with phase := phMCopy }

/-- `repeat n times: COPYB` (44_match_copy R177). -/
def copyTimes : Nat → State → Res Unit
  | 0, s => .ok () s
  | n + 1, s => (copyByte s).bind fun _ s1 => copyTimes n s1

/-- The net effect of a match of length `n` at the offset register's offset: the check, `n` copies, `pwm <- 1`
(44_match_copy R177, R178). -/
def matchEffect (n : Word) (s : State) : Res Unit :=
  (checkOffset { s with rem := n }).bind fun _ s1 =>
  (copyTimes n.toNat s1).bind fun _ s2 => .ok () { s2 with pwm := true, phase := phSop }

/-- The net effect of the end of the stream: `offset <- 0; phase <- DONE` (44_match_copy R180). -/
def endEffect (s : State) : State := { s with offset := 0, phase := phDone }

/-! ## START (45_top_fsm R191) and the hardware reset (70_reset_and_hazards R240) -/

/-- The per-decode initialisation (45_top_fsm R191). -/
def startDecode (s : State) : State :=
  { s with
    dstBase := s.writePos
    state := 0
    probs := Vector.replicate Config.nCtx Config.probInit
    pwm := false
    offset := 0
    cause := 0
    info := 0
    phase := phSop }

/-- Has the host written SRC, SRC_END, DST and DST_END since reset? (10_state R50, U11) -/
def State.launchReady (s : State) : Bool := s.srcSet && s.srcEndSet && s.dstSet && s.dstEndSet

/-- Does the platform back `SRC .. src_end - 1` in IN and `DST .. dst_end - 1` in OUT? (20_memory R71, D19) -/
def State.launchBacked (s : State) : Bool :=
  rangeBacked s.inBacking s.cursor.toNat s.srcEnd.toNat && rangeBacked s.outBacking s.writePos.toNat s.dstEnd.toNat

/-- START: ignored while BUSY, refused where a register the decode needs was never written or a range is not backed,
else the initialisation (45_top_fsm R191, 10_state R41, R50, 20_memory R71). -/
def startCommand (s : State) : Res Unit :=
  if s.busy then .ok () s
  else if s.launchReady then
    if s.launchBacked then .ok () (startDecode s) else .refused .launchNotBacked
  else .refused .startUnwritten

/-- The hardware reset: the registers of `State.reset`; the memories are the platform's and keep their bytes
(70_reset_and_hazards R240: OUT keeps the bytes written so far), and what it backs stays. The host's script, its last
read and the counter of free values are not the block's and stay too (log 16). -/
def hardwareReset (s : State) : State :=
  { State.reset with
    inMem := s.inMem, outMem := s.outMem, inBacking := s.inBacking, outBacking := s.outBacking
    script := s.script, busData := s.busData, freeTick := s.freeTick }

end Sys2Proof.Machine
end

