-- ==== Sys2Proof/Machine/Context.lean ====
section
/-! DEFINITION. The context model's procedures: PROB.RD and PROB.UPD (40_context_model). -/

namespace Sys2Proof.Machine

/-- PROB.RD (40_context_model R121): returns `probs[c]`, changes nothing else. -/
def execProbRd (c : BitVec 9) (s : State) : Host.Outcome State Fault Refusal :=
  (probRead c.toNat s).returning .prob

/-- PROB.UPD (40_context_model R122): adapts `probs[c]` toward the bit; `p` is the value PROB.RD gives for `c`. -/
def execProbUpd (c : BitVec 9) (b : Bool) (s : State) : Host.Outcome State Fault Refusal :=
  ((probRead c.toNat s).bind fun p s1 => .ok () (probWrite c.toNat (probUpdate b p) s1)).toOutcome

end Sys2Proof.Machine
end

