-- ==== Sys2Proof/Machine/Entropy.lean ====
section
/-! DEFINITION. The entropy decoder's procedures: RENORM, DECIDE, STUPD, DECBIT (41_entropy_decoder). -/

namespace Sys2Proof.Machine

/-- RENORM (41_entropy_decoder R130). -/
def execRenorm (s : State) : Host.Outcome State Fault Refusal := (renormalize s).toOutcome

/-- DECIDE (41_entropy_decoder R131): returns the bit and `low`, changes nothing else. -/
def execDecideBit (p : Byte) (s : State) : Host.Outcome State Fault Refusal :=
  (Res.ok () s).returning fun _ => .split (splitBit p s.state) (lowByte s.state)

/-- STUPD (41_entropy_decoder R132); `low` is the low byte of `state`, as DECIDE left it. -/
def execStupd (b : Bool) (p : Byte) (s : State) : Host.Outcome State Fault Refusal :=
  .next { s with state := stateUpdate b p s.state }

/-- DECBIT (41_entropy_decoder R134): returns the bit. -/
def execDecbit (c : BitVec 9) (s : State) : Host.Outcome State Fault Refusal :=
  (decodeBit c.toNat s).returning .bit

end Sys2Proof.Machine
end

