-- ==== Sys2Proof/Machine/Length.lean ====
section
/-! DEFINITION. The length decoder: DECLEN, L_CONT, L_VAL (42_length_decoder). -/

namespace Sys2Proof.Machine

/-- DECLEN (42_length_decoder R151): returns the value of the length code. -/
def execDeclen (b : Block) (s : State) : Host.Outcome State Fault Refusal :=
  (decodeLength b s).returning .length

/-- L_CONT (42_length_decoder R154): a continue decision; on 0 the value is delivered. -/
def execLCont (s : State) : Host.Outcome State Fault Refusal :=
  ((decodeBit (contContext s) s).bind fun c s1 =>
    if c then
      if s1.bitPos = 31 then .raised (raiseFault .lengthOverflow (s1.lctx.setWidth 32) s1)
      else .ok () { s1 with phase := phLVal }
    else if s1.lsel then .ok () (deliverLength (lengthValue s1) s1)
    else .ok () (deliverOffset (lengthValue s1) s1)).toOutcome

/-- L_VAL (42_length_decoder R155): a value decision. -/
def execLVal (s : State) : Host.Outcome State Fault Refusal :=
  ((decodeBit (valContext s) s).bind fun b s1 =>
    if s1.bitPos = 31 then .fault .bitPosTooLarge
    else .ok () { takeValueBit b s1 with phase := phLCont }).toOutcome

end Sys2Proof.Machine
end

