-- ==== Sys2Proof/Machine/Literal.lean ====
section
/-! DEFINITION. The literal decoder: DECLIT, LIT_BIT, LIT_EMIT, EMIT, and the symbol LIT (43_literal_decoder). -/

namespace Sys2Proof.Machine

/-- DECLIT (43_literal_decoder R161): returns the byte. -/
def execDeclit (s : State) : Host.Outcome State Fault Refusal := (decodeLiteral s).returning .literal

/-- LIT_BIT (43_literal_decoder R162): one tree decision. -/
def execLitBit (s : State) : Host.Outcome State Fault Refusal :=
  ((decodeBit (treeContext s) s).bind fun b s1 =>
    if 256 ≤ s1.byte.toNat then .fault .literalTooLong
    else
      let byte := byteWithBit s1 b
      .ok () { s1 with byte := byte, phase := if 256 ≤ byte.toNat then phLitEmit else phLitBit }).toOutcome

/-- LIT_EMIT (43_literal_decoder R163): append the literal. -/
def execLitEmit (s : State) : Host.Outcome State Fault Refusal := (emitByte (literalByte s) s).toOutcome

/-- EMIT: the LIT_EMIT step as a procedure (43_literal_decoder R163, 30_encoding R103). -/
def execEmit (s : State) : Host.Outcome State Fault Refusal := (emitByte (literalByte s) s).toOutcome

/-- LIT (43_literal_decoder R164): the net effect of the symbol once its nine decisions are taken (Machine/Fetch.lean,
log 13). -/
def execLit (v : Byte) (s : State) : Host.Outcome State Fault Refusal := (emitByte v s).toOutcome

end Sys2Proof.Machine
end

