-- ==== Sys2Proof/Machine/Match.lean ====
section
/-! DEFINITION. The match dispatcher and the copy engine: M_HASOFF, M_CHK, M_COPY, COPYB, and the symbols MATCH.N,
MATCH.R, MATCH.C, END.N, END.C (44_match_copy). A symbol's meaning is its net effect once its decisions are taken
(Machine/Fetch.lean, log 13). -/

namespace Sys2Proof.Machine

/-- M_HASOFF (44_match_copy R170): does the match carry a new offset? -/
def execMHasoff (s : State) : Host.Outcome State Fault Refusal :=
  ((decodeBit Config.ctxHasOff s).bind fun h s1 => .ok () (lstart (!h) s1)).toOutcome

/-- M_CHK (44_match_copy R174). -/
def execMChk (s : State) : Host.Outcome State Fault Refusal := (checkOffset s).toOutcome

/-- M_COPY (44_match_copy R175). -/
def execMCopy (s : State) : Host.Outcome State Fault Refusal := (copyByte s).toOutcome

/-- COPYB: the M_COPY step as a procedure (44_match_copy R175, 30_encoding R103). -/
def execCopyb (s : State) : Host.Outcome State Fault Refusal := (copyByte s).toOutcome

/-- MATCH.N (44_match_copy R177): `offset <- o`, the check, `n` copies, `pwm <- 1`. -/
def execMatchN (o n : Word) (s : State) : Host.Outcome State Fault Refusal :=
  (matchEffect n { s with offset := o }).toOutcome

/-- MATCH.C (44_match_copy R179): as MATCH.N. -/
def execMatchC (o n : Word) (s : State) : Host.Outcome State Fault Refusal :=
  (matchEffect n { s with offset := o }).toOutcome

/-- MATCH.R (44_match_copy R178): the offset register as it is. -/
def execMatchR (n : Word) (s : State) : Host.Outcome State Fault Refusal := (matchEffect n s).toOutcome

/-- END.N (44_match_copy R180). -/
def execEndN (s : State) : Host.Outcome State Fault Refusal := .next (endEffect s)

/-- END.C (44_match_copy R181). -/
def execEndC (s : State) : Host.Outcome State Fault Refusal := .next (endEffect s)

end Sys2Proof.Machine
end

