-- ==== Sys2Proof/Machine/Top.lean ====
section
/-! DEFINITION. The top-level FSM: IDLE, SOP, DONE, FAULT and START (45_top_fsm, 60_exceptions R216). -/

namespace Sys2Proof.Machine

/-- SOP (45_top_fsm R194): the is-match decision and the dispatch. -/
def execSop (s : State) : Host.Outcome State Fault Refusal :=
  ((decodeBit Config.ctxIsMatch s).bind fun m s1 =>
    if m then
      if s1.pwm then .ok () (lstart false s1) else .ok () { s1 with phase := phMHasoff }
    else .ok () { s1 with byte := 1, phase := phLitBit }).toOutcome

/-- IDLE (45_top_fsm R196): the engine takes no step; the state stays (log 3). -/
def execIdle (s : State) : Host.Outcome State Fault Refusal := .next s

/-- DONE (45_top_fsm R195): the engine takes no step; the state stays (log 3). -/
def execDone (s : State) : Host.Outcome State Fault Refusal := .next s

/-- FAULT (60_exceptions R216, R218): the engine takes no step; the state stays (log 3). -/
def execFaulted (s : State) : Host.Outcome State Fault Refusal := .next s

/-- START (45_top_fsm R191), the host's command. -/
def execStart (s : State) : Host.Outcome State Fault Refusal := (startCommand s).toOutcome

end Sys2Proof.Machine
end

