-- ==== Sys2Proof/Machine/Dispatch.lean ====
section
/-! DEFINITION. The meaning of every operation of spec/opcode_table.json: one arm each. -/

namespace Sys2Proof.Machine

/-- The meaning of an instruction. -/
def exec (i : Instr) (s : State) : Host.Outcome State Fault Refusal :=
  match i with
  | .lit v => Sys2Proof.Machine.execLit v s
  | .matchR n => Sys2Proof.Machine.execMatchR n s
  | .endN => Sys2Proof.Machine.execEndN s
  | .matchN o n => Sys2Proof.Machine.execMatchN o n s
  | .endC => Sys2Proof.Machine.execEndC s
  | .matchC o n => Sys2Proof.Machine.execMatchC o n s
  | .idle => Sys2Proof.Machine.execIdle s
  | .sop => Sys2Proof.Machine.execSop s
  | .litBit => Sys2Proof.Machine.execLitBit s
  | .litEmit => Sys2Proof.Machine.execLitEmit s
  | .mHasoff => Sys2Proof.Machine.execMHasoff s
  | .lCont => Sys2Proof.Machine.execLCont s
  | .lVal => Sys2Proof.Machine.execLVal s
  | .mChk => Sys2Proof.Machine.execMChk s
  | .mCopy => Sys2Proof.Machine.execMCopy s
  | .done => Sys2Proof.Machine.execDone s
  | .faulted => Sys2Proof.Machine.execFaulted s
  | .probRd c => Sys2Proof.Machine.execProbRd c s
  | .probUpd c b => Sys2Proof.Machine.execProbUpd c b s
  | .renorm => Sys2Proof.Machine.execRenorm s
  | .decideBit p => Sys2Proof.Machine.execDecideBit p s
  | .stupd b p => Sys2Proof.Machine.execStupd b p s
  | .decbit c => Sys2Proof.Machine.execDecbit c s
  | .declen B => Sys2Proof.Machine.execDeclen B s
  | .declit => Sys2Proof.Machine.execDeclit s
  | .emit => Sys2Proof.Machine.execEmit s
  | .copyb => Sys2Proof.Machine.execCopyb s
  | .start => Sys2Proof.Machine.execStart s

end Sys2Proof.Machine
end

