-- ==== Sys2Proof/WellFormed.lean ====
section
/-! DEFINITION. Which instructions the spec can write down: the ranges of the fields and operands. -/

namespace Sys2Proof

/-- An offset field a match can carry: `1 <= o <= 2^32 - 2`; 0 is the sentinel (30_encoding R98, R99). -/
def wfOffset (o : Word) : Bool := 1 ≤ o.toNat && o.toNat ≤ 2 ^ 32 - 2

/-- A length field a match can carry: `1 <= n <= 2^32 - 1` (30_encoding R98). -/
def wfLength (n : Word) : Bool := 1 ≤ n.toNat

/-- Field and operand ranges: 30_encoding R98 for symbols; context indexes 0..384 for PROB.RD and PROB.UPD
(40_context_model R121, R122) and 0..383 for DECBIT (41_entropy_decoder R134). -/
def Instr.wf : Instr → Bool
  | .matchR n => wfLength n
  | .matchN o n | .matchC o n => wfOffset o && wfLength n
  | .probRd c | .probUpd c _ => c.toNat < Config.nCtx
  | .decbit c => c.toNat < Config.nCtx - 1
  | .lit _ | .endN | .endC | .idle | .sop | .litBit | .litEmit | .mHasoff | .lCont | .lVal | .mChk | .mCopy
  | .done | .faulted | .renorm | .decideBit _ | .stupd _ _ | .declen _ | .declit | .emit | .copyb | .start => true

end Sys2Proof
end

