-- ==== Sys2Proof/Decode.lean ====
section
/-! DEFINITION. Decoding and encoding at the decision layer (30_encoding R91): phase codes (R102), stream symbols
(R93 to R101), the selector rows of the opcode table (R101, R103), and the two layers' codes for the host's table
words. The byte layer has no encoding of its own (R90, R92): bytes become decisions only by running DECBIT
(Machine/Fetch.lean). -/

namespace Sys2Proof

/-- Why a word or a decision list is no instruction. -/
inductive DecodeError where
  | noSuchPhase      -- a phase code 11..15 (30_encoding R102: never held)
  | truncated        -- the decisions end inside the symbol
  | lengthOverflow   -- a 32nd continue decision is 1 (30_encoding R100 a)
  | trailing         -- decisions left over after the symbol
  | wrongContext     -- a decision stands at a context the grammar does not put there (30_encoding R93, R94)
deriving DecidableEq, Repr

/-- One decision, `(ctx, bit)` (30_encoding R91, R104). -/
abbrev Decision := Nat × Bool

/-- What an instruction is selected by: a code of the FSM state register, or the decisions of one stream symbol
under the mode `pwm` (30_encoding R94, R102, R103). -/
inductive Encoded where
  | phase (code : BitVec 4)
  | stream (pwm : Bool) (ds : List Decision)
deriving DecidableEq, Repr

/-! ## Phase codes (30_encoding R102) -/

/-- The step operation of a phase code; codes 11..15 are rejected. -/
def decodePhase (c : BitVec 4) : Except DecodeError Instr :=
  match c.toNat with
  | 0 => .ok .idle
  | 1 => .ok .sop
  | 2 => .ok .litBit
  | 3 => .ok .litEmit
  | 4 => .ok .mHasoff
  | 5 => .ok .lCont
  | 6 => .ok .lVal
  | 7 => .ok .mChk
  | 8 => .ok .mCopy
  | 9 => .ok .done
  | 10 => .ok .faulted
  | _ => .error .noSuchPhase

/-- The phase code of a step operation (30_encoding R102); other operations have none. -/
def phaseCode : Instr → Option (BitVec 4)
  | .idle => some 0
  | .sop => some 1
  | .litBit => some 2
  | .litEmit => some 3
  | .mHasoff => some 4
  | .lCont => some 5
  | .lVal => some 6
  | .mChk => some 7
  | .mCopy => some 8
  | .done => some 9
  | .faulted => some 10
  | _ => none

/-! ## Stream symbols: reading the bits -/

/-- The eight tree decisions, most significant bit first, `byte <- (byte << 1) + bit` from seed 1 (30_encoding R95);
`n` decisions are still to come. -/
def parseTree : Nat → Nat → List Bool → Except DecodeError (Byte × List Bool)
  | 0, byte, bs => .ok (BitVec.ofNat 8 byte, bs)
  | _ + 1, _, [] => .error .truncated
  | n + 1, byte, b :: bs => parseTree n (2 * byte + b.toNat) bs

/-- A length code (30_encoding R97): continue and value decisions in turn, value bits least significant first, the
leading 1 implied. `n` is how many positions may still follow; a continue decision of 1 at the last one is the
overflow of R100 (a). -/
def parseLength : Nat → List Bool → Except DecodeError (Nat × List Bool)
  | _, [] => .error .truncated
  | _, false :: bs => .ok (1, bs)
  | 0, true :: _ => .error .lengthOverflow
  | _ + 1, [true] => .error .truncated
  | n + 1, true :: b :: bs =>
    match parseLength n bs with
    | .ok (v, rest) => .ok (2 * v + b.toNat, rest)
    | .error e => .error e

/-- The match-length code and the symbol it completes (30_encoding R94). -/
def parseMatchLength (mk : Word → Instr) (bs : List Bool) : Except DecodeError (Instr × List Bool) :=
  match parseLength Config.lcMaxPos bs with
  | .ok (n, rest) => .ok (mk (BitVec.ofNat 32 n), rest)
  | .error e => .error e

/-- The offset code: value 1 is the end of the stream, a larger value `v` the offset `v - 1`, and then the
match-length code follows (30_encoding R94, R98, R99). -/
def parseOffset (fin : Instr) (mk : Word → Word → Instr) (bs : List Bool) : Except DecodeError (Instr × List Bool) :=
  match parseLength Config.lcMaxPos bs with
  | .ok (v, rest) =>
    if v = 1 then .ok (fin, rest) else parseMatchLength (mk (BitVec.ofNat 32 (v - 1))) rest
  | .error e => .error e

/-- One symbol under the mode `pwm`, and the bits after it (the grammar of 30_encoding R94). -/
def parseSymbol (pwm : Bool) : List Bool → Except DecodeError (Instr × List Bool)
  | [] => .error .truncated
  | false :: bs =>
    match parseTree 8 1 bs with
    | .ok (v, rest) => .ok (.lit v, rest)
    | .error e => .error e
  | true :: bs =>
    if pwm then parseOffset .endC .matchC bs
    else
      match bs with
      | [] => .error .truncated
      | true :: bs => parseOffset .endN .matchN bs
      | false :: bs => parseMatchLength .matchR bs

/-! ## Stream symbols: writing the decisions -/

/-- The decision for bit `b_k` of a literal: its context is `2^(7-k) + (literal >> (k + 1))` (30_encoding R95). -/
def treeDecision (v : Byte) (k : Nat) : Decision := (2 ^ (7 - k) + v.toNat / 2 ^ (k + 1), v.getLsbD k)

/-- The eight tree decisions of a literal, `b7` first (30_encoding R93 format L, R95). -/
def treeDecisions (v : Byte) : List Decision := [7, 6, 5, 4, 3, 2, 1, 0].map (treeDecision v)

/-- The block base of a length code (10_state R32, R38; 42_length_decoder R156). -/
def blockBase : Block → Nat
  | .off => Config.ctxOffBase
  | .len => Config.ctxLenBase

/-- The decisions of the length code of `v` from bit position `k` on, in the block with base `B` (30_encoding R97):
slot `B + 2k` continues or stops, slot `B + 2k + 1` carries the value bit. `n` is how many positions may still
follow. -/
def lengthDecisions (B : Nat) : Nat → Nat → Nat → List Decision
  | 0, k, _ => [(B + 2 * k, false)]
  | n + 1, k, v =>
    if v ≤ 1 then [(B + 2 * k, false)]
    else (B + 2 * k, true) :: (B + 2 * k + 1, v % 2 == 1) :: lengthDecisions B n (k + 1) (v / 2)

/-- `LC_B(v)` (30_encoding R97). -/
def lengthCode (b : Block) (v : Nat) : List Decision := lengthDecisions (blockBase b) Config.lcMaxPos 0 v

/-- The decisions of a symbol under the mode `pwm` (30_encoding R93): `none` where the operation is no symbol or the
mode does not admit it. -/
def symbolDecisions (pwm : Bool) : Instr → Option (List Decision)
  | .lit v => some ((0, false) :: treeDecisions v)
  | .matchN o n =>
    if pwm then none
    else some ((0, true) :: (256, true) :: (lengthCode .off (o.toNat + 1) ++ lengthCode .len n.toNat))
  | .matchR n => if pwm then none else some ((0, true) :: (256, false) :: lengthCode .len n.toNat)
  | .matchC o n =>
    if pwm then some ((0, true) :: (lengthCode .off (o.toNat + 1) ++ lengthCode .len n.toNat)) else none
  | .endN => if pwm then none else some [(0, true), (256, true), (257, false)]
  | .endC => if pwm then some [(0, true), (257, false)] else none
  | _ => none

/-! ## Decode and encode -/

/-- The instruction an encoding stands for: total, rejecting by name. Of a symbol every bit is read and every
context checked against the grammar. -/
def decode : Encoded → Except DecodeError Instr
  | .phase c => decodePhase c
  | .stream pwm ds =>
    match parseSymbol pwm (ds.map Prod.snd) with
    | .error e => .error e
    | .ok (_, _ :: _) => .error .trailing
    | .ok (i, []) => if symbolDecisions pwm i = some ds then .ok i else .error .wrongContext

/-- The encoding of an instruction under the mode `pwm` (which only symbols look at). PROC rows have none
(30_encoding R103). -/
def encode (pwm : Bool) (i : Instr) : Option Encoded :=
  match phaseCode i with
  | some c => some (.phase c)
  | none => (symbolDecisions pwm i).map (.stream pwm)

/-! ## The selector rows of the opcode table (30_encoding R101, R103) -/

/-- The kinds of symbol: the SYM rows. -/
inductive SymKind where
  | lit | matchR | endN | matchN | endC | matchC
deriving DecidableEq, Repr

/-- A SYM row: it applies when `sel & mask = pat`. -/
structure SymRow where
  kind : SymKind
  pat : BitVec 4
  mask : BitVec 4
deriving DecidableEq, Repr

/-- The six SYM rows, as spec/opcode_table.json lists them (30_encoding R101). -/
def symRows : List SymRow :=
  [⟨.lit, 0x0, 0x4⟩, ⟨.matchR, 0x4, 0xE⟩, ⟨.endN, 0x6, 0xF⟩, ⟨.matchN, 0x7, 0xF⟩, ⟨.endC, 0xC, 0xE⟩, ⟨.matchC, 0xE, 0xE⟩]

/-- Does a row apply to the selector `sel = {pwm, d0, d1, d2}`? -/
def SymRow.applies (r : SymRow) (sel : BitVec 4) : Bool := sel &&& r.mask == r.pat

/-- The row a selector picks (30_encoding R101: exactly one). -/
def selectRow (sel : BitVec 4) : Option SymKind := (symRows.find? (·.applies sel)).map (·.kind)

/-- The selector of a symbol: `pwm` in bit 3, then its first three decisions; a decision it does not have counts
as 0, which its row does not look at (30_encoding R101). -/
def selector (pwm : Bool) (bs : List Bool) : BitVec 4 :=
  BitVec.ofNat 4 (8 * pwm.toNat + 4 * (bs.getD 0 false).toNat + 2 * (bs.getD 1 false).toNat + (bs.getD 2 false).toNat)

/-- The kind of a symbol; other operations have none. -/
def Instr.symKind : Instr → Option SymKind
  | .lit _ => some .lit
  | .matchR _ => some .matchR
  | .endN => some .endN
  | .matchN _ _ => some .matchN
  | .endC => some .endC
  | .matchC _ _ => some .matchC
  | _ => none

/-! ## The host's table words -/

/-- The four bits a table word has: the word's low bits (both selectors of the table are four bits wide). -/
def tableBits (nbits w : Nat) : Nat := w % 2 ^ nbits % 16

/-- The bits of the symbol a selector word begins: `d0`, `d1`, `d2`, and zeros after them. 130 bits are more than
any symbol has (1 + 1 + 63 + 63). -/
def selectorBits (sel : Nat) : List Bool := sel.testBit 2 :: sel.testBit 1 :: sel.testBit 0 :: List.replicate 127 false

/-- The symbol a selector word begins, its later decisions all 0. -/
def decodeSelector (sel : Nat) : Option Instr :=
  match parseSymbol (sel.testBit 3) (selectorBits sel) with
  | .ok (i, _) => some i
  | .error _ => none

/-- The instruction a word of spec/opcode_table.json stands for. SYM and PHASE rows use the same four-bit numbers
(30_encoding R103): what the machine's own selector register holds, a phase code, is read as one; the codes 11..15
no phase has are read as symbol selectors. DESIGN CHOICE: log 9. -/
def decodeTableWord (nbits w : Nat) : Option Instr :=
  match decodePhase (BitVec.ofNat 4 (tableBits nbits w)) with
  | .ok i => some i
  | .error _ => decodeSelector (tableBits nbits w)

end Sys2Proof
end

