-- ==== Sys2Proof/Machine/Fetch.lean ====
section
/-! DEFINITION. Fetching: the step operation `phase` selects, and the stream symbol the coder's decisions carry; and the
states that put a table word there. -/

namespace Sys2Proof.Machine

/-- What selects the engine's next step: the FSM state register (10_state R35, 30_encoding R102). -/
def fetchPhase (s : State) : Except DecodeError Instr := decodePhase s.phase

/-- The match-length code of a match, and the symbol it completes (45_top_fsm R197: `rem <- DECLEN(321)`). -/
def fetchLength (mk : Word → Instr) (s : State) : Res Instr :=
  (decodeLength .len { s with lsel := true }).bind fun n s1 => .ok (mk n) { s1 with rem := n }

/-- The offset code (45_top_fsm R197: `offset <- DECLEN(257) - 1`): 0 is the end of the stream, else the match-length
code follows. -/
def fetchOffset (fin : Instr) (mk : Word → Word → Instr) (s : State) : Res Instr :=
  (decodeLength .off { s with lsel := false }).bind fun v s1 =>
  if v - 1 = 0 then .ok fin { s1 with offset := v - 1 }
  else fetchLength (mk (v - 1)) { s1 with offset := v - 1 }

/-- Take the decisions of the next stream symbol, in the order of the loop of 45_top_fsm R197 and the grammar of
30_encoding R94: the symbol and the state with all its decisions taken, or the fault one of them raised. The registers
`byte`, `lsel`, `acc`, `bit_pos`, `lctx`, `offset`, `rem` are left as the step rules leave them (92_eei_decisions D11). -/
def fetchSymbol (s : State) : Res Instr :=
  (decodeBit Config.ctxIsMatch s).bind fun m s1 =>
  if m then
    if s1.pwm then fetchOffset .endC .matchC s1
    else
      (decodeBit Config.ctxHasOff s1).bind fun h s2 =>
      if h then fetchOffset .endN .matchN s2 else fetchLength .matchR s2
  else (decodeLiteral s1).bind fun v s2 => .ok (.lit v) s2

/-! ## Placing a table word (log 9) -/

/-- IN bytes whose decisions, from the coder state and the table START leaves, are the bits of the selector word `sel`
and zeros after them: for the selectors 11 to 15, which no phase code is. Made with the inverse of STUPD that
93_implementation_defined G2 describes; what they decode to is checked in Tests/Slice0.lean. -/
def selectorStream (sel : Nat) : List Byte :=
  match sel with
  | 11 => [0x20, 0xbf, 0x00]
  | 12 => [0x41, 0x00]
  | 13 => [0x41, 0x00]
  | 14 => [0x02, 0x0e, 0x00]
  | 15 => [0x02, 0x0c, 0x00]
  | _ => []

/-- The state whose next step runs the operation with phase code `c`: the engine moves, in that phase. -/
def placePhase (c : BitVec 4) (s : State) : State := { s with phase := c, script := [] }

/-- The state whose next step fetches and runs the symbol the selector word `sel` begins: a decode that has just been
started, under the selector's `pwm`, on a stream that carries the symbol, with the host away until the symbol is done. -/
def placeSymbol (sel : Nat) (s : State) : State :=
  { s with
    phase := phSop
    pwm := sel.testBit 3
    state := 0
    probs := Vector.replicate Config.nCtx Config.probInit
    cursor := 0
    srcEnd := BitVec.ofNat 32 (selectorStream sel).length
    inMem := Memory.ofBytes 0 (selectorStream sel)
    inBacking := wholeSpace
    script := [.symbol] }

/-- A table word placed where the step fetches (log 9, log 10). -/
def placeWord (nbits w : Nat) (s : State) : State :=
  match decodePhase (BitVec.ofNat 4 (tableBits nbits w)) with
  | .ok _ => placePhase (BitVec.ofNat 4 (tableBits nbits w)) s
  | .error _ => placeSymbol (tableBits nbits w) s

end Sys2Proof.Machine
end

