-- ==== Sys2Proof/Machine/HostPort.lean ====
section
/-! DEFINITION. The host's side: the register block (10_state R40 to R44), the two memories (45_top_fsm R200,
70_reset_and_hazards R252). -/

namespace Sys2Proof.Machine

/-- The nine registers, and what lies above them (10_state R40, R44). -/
inductive HostReg where
  | ctrl | status | src | srcEnd | dst | dstEnd | dstBase | cause | info
  | above
deriving DecidableEq, Repr

/-- The register at a byte offset (10_state R40); an offset up to 0x20 that is no word offset names none. -/
def hostReg (off : Nat) : Option HostReg :=
  if 0x20 < off then some .above
  else
    match off with
    | 0x00 => some .ctrl
    | 0x04 => some .status
    | 0x08 => some .src
    | 0x0C => some .srcEnd
    | 0x10 => some .dst
    | 0x14 => some .dstEnd
    | 0x18 => some .dstBase
    | 0x1C => some .cause
    | 0x20 => some .info
    | _ => none

/-- What a read of a register returns (10_state R40 to R44). -/
def hostRegValue (r : HostReg) (s : State) : Word :=
  match r with
  | .ctrl => 0
  | .status => s.statusWord
  | .src => s.cursor
  | .srcEnd => s.srcEnd
  | .dst => s.writePos
  | .dstEnd => s.dstEnd
  | .dstBase => s.dstBase
  | .cause => s.cause.setWidth 32
  | .info => s.info
  | .above => 0

/-- A host read of the register block. -/
def hostRead (off : Nat) (s : State) : Res Unit :=
  match hostReg off with
  | some r => .ok () { s with busData := hostRegValue r s }
  | none => .refused .hostOffsetNotAWord

/-- A host write of one of the four writable registers, ignored while busy (10_state R43). -/
def hostLoad (r : HostReg) (v : Word) (s : State) : State :=
  if s.busy then s
  else
    match r with
    | .src => { s with cursor := v, srcSet := true }
    | .srcEnd => { s with srcEnd := v, srcEndSet := true }
    | .dst => { s with writePos := v, dstSet := true }
    | .dstEnd => { s with dstEnd := v, dstEndSet := true }
    | _ => s

/-- A host write of the register block: CTRL with bit 0 = 1 is START (ignored while busy), with bit 0 = 0 nothing
(10_state R41); the read-only registers and what lies above ignore writes (R44). -/
def hostWrite (off : Nat) (v : Word) (s : State) : Res Unit :=
  match hostReg off with
  | some .ctrl => if v.getLsbD 0 then startCommand s else .ok () s
  | some r => .ok () (hostLoad r v s)
  | none => .refused .hostOffsetNotAWord

/-- Is the OUT address in the range of the running decode, `dst_base .. dst_end - 1`? (20_memory R71) -/
def inOutRange (a : Word) (s : State) : Bool := s.dstBase.toNat ≤ a.toNat && a.toNat < s.dstEnd.toNat

/-- A host read of IN (45_top_fsm R200). While busy the spec lists it neither under what the host may do nor under what
it must not (R200, 70_reset_and_hazards R252): it is performed and returns the byte. DESIGN CHOICE: log 8. -/
def hostReadIn (a : Word) (s : State) : Res Unit :=
  match s.readIn a.toNat with
  | some v => .ok () { s with busData := v.setWidth 32 }
  | none => .refused .inNotBacked

/-- A host write of IN; while busy it puts the decode outside the spec (70_reset_and_hazards R252). -/
def hostWriteIn (a : Word) (v : Byte) (s : State) : Res Unit :=
  if s.busy then .refused .hostWriteWhileBusy
  else if backedAt s.inBacking a.toNat then .ok () { s with inMem := s.inMem.write a.toNat v }
  else .refused .inNotBacked

/-- A host read of OUT: while busy, in the range of the decode, any value (70_reset_and_hazards R252, U15; log 8);
else the byte OUT holds, a free value where nothing was written (log 5). -/
def hostReadOut (a : Word) (s : State) : Res Unit :=
  match s.readOut a.toNat with
  | some v =>
    if s.busy && inOutRange a s then
      .ok () { s with busData := (Config.earlyOutByte s.freeTick a).setWidth 32, freeTick := s.freeTick + 1 }
    else .ok () { s with busData := v.setWidth 32 }
  | none => .refused .outNotBacked

/-- A host write of OUT; while busy, in the range of the decode, it puts the decode outside the spec
(70_reset_and_hazards R252). -/
def hostWriteOut (a : Word) (v : Byte) (s : State) : Res Unit :=
  if s.busy && inOutRange a s then .refused .hostWriteWhileBusy
  else if backedAt s.outBacking a.toNat then .ok () { s with outMem := s.outMem.write a.toNat v }
  else .refused .outNotBacked

end Sys2Proof.Machine
end

