-- ==== Sys2Proof/Machine/Engine.lean ====
section
/-! DEFINITION. The moves of the two agents: an engine step, a whole symbol, a host action; and the whole decode as one
loop. -/

namespace Sys2Proof.Machine

/-- One step of the engine: the operation `phase` selects (45_top_fsm R193). A code no phase has is stuck (U20). -/
def engineStep (s : State) : Host.Outcome State Fault Refusal :=
  match fetchPhase s with
  | .ok i => exec i s
  | .error _ => .fault .noSuchPhase

/-- One whole symbol, the big-step reading of the engine (45_top_fsm R197, 92_eei_decisions D11): take its decisions,
then its net effect. Away from the start of an operation it is one engine step. -/
def symbolStep (s : State) : Host.Outcome State Fault Refusal :=
  if s.phase = phSop then
    match fetchSymbol s with
    | .ok i s1 => exec i s1
    | .raised s1 => .next s1
    | .fault e => .fault e
    | .refused e => .refused e
  else engineStep s

/-- What happens at a step boundary where the host does `act` (45_top_fsm R200). -/
def boundary (act : HostAct) (s : State) : Host.Outcome State Fault Refusal :=
  match act with
  | .engine => engineStep s
  | .symbol => symbolStep s
  | .regRead off => (hostRead off s).toOutcome
  | .regWrite off v => (hostWrite off v s).toOutcome
  | .inRead a => (hostReadIn a s).toOutcome
  | .inWrite a v => (hostWriteIn a v s).toOutcome
  | .outRead a => (hostReadOut a s).toOutcome
  | .outWrite a v => (hostWriteOut a v s).toOutcome
  | .reset => .next (hardwareReset s)

/-- The next agent's next move: the host's next action if its script holds one, else an engine step (00_scope R7,
log 2). -/
def nextMove (s : State) : Host.Outcome State Fault Refusal :=
  match s.script with
  | [] => engineStep s
  | act :: rest => boundary act { s with script := rest }

/-- The whole decode, symbol by symbol, until the engine is not busy: the loop of 45_top_fsm R197 under fuel. -/
def unpack : Nat → State → Host.Outcome State Fault Refusal
  | 0, s => .next s
  | n + 1, s =>
    if s.busy then
      match symbolStep s with
      | .next t => unpack n t
      | .fault e => .fault e
      | .refused e => .refused e
    else .next s

end Sys2Proof.Machine
end

