-- ==== Sys2Proof/Machine/Step.lean ====
section
/-! DEFINITION. One step of the machine, and a table word placed where it fetches. -/

namespace Sys2Proof.Machine

/-- One step: the next agent's next move (00_scope R7, log 2). -/
def step (s : State) : Host.Outcome State Fault Refusal := nextMove s

/-- `s` with a table word placed where `step` fetches its next instruction (log 9). -/
def State.withFetchWord (s : State) (nbits w : Nat) : State := placeWord nbits w s

end Sys2Proof.Machine
end

