-- ==== Sys2Proof/Safety.lean ====
section
/-! DEFINITION. The terms claims are stated in: what the decisions of a stream are, as relations over numbers that the
loops of Machine/Ops.lean do not appear in; the invariants of 10_state R47; what a run needs and how it ends. -/

namespace Sys2Proof.Machine

/-! ## The bytes a renormalization consumes (20_memory R61, 41_entropy_decoder R130) -/

/-- The value of `state` after consuming bytes, earlier bytes more significant (20_memory R61). -/
def accumulate (x : Nat) (bs : List Byte) : Nat := bs.foldl (fun x b => 256 * x + b.toNat) x

/-- IN holds `bs` at the addresses from `cursor` on. -/
def InputHolds (s : State) (bs : List Byte) : Prop :=
  ∀ k (h : k < bs.length), s.readIn (s.cursor.toNat + k) = some bs[k]

/-- RENORM of `s` consumes exactly `bs`: they stand in IN before `src_end`, every shorter run of them leaves the value
below 4096, all of them bring it to 4096 or more. With `bs` empty: `state` is at least 4096. -/
structure Feeds (s : State) (bs : List Byte) : Prop where
  holds : InputHolds s bs
  within : bs = [] ∨ s.cursor.toNat + bs.length ≤ s.srcEnd.toNat
  tooSmall : ∀ k < bs.length, accumulate s.state.toNat (bs.take k) < 4096
  enough : 4096 ≤ accumulate s.state.toNat bs

/-- RENORM of `s` runs out of input after `bs`: they are all that stands before `src_end`, and the value is below 4096
throughout. -/
structure Starves (s : State) (bs : List Byte) : Prop where
  holds : InputHolds s bs
  allUsed : s.srcEnd.toNat - s.cursor.toNat = bs.length
  tooSmall : ∀ k ≤ bs.length, accumulate s.state.toNat (bs.take k) < 4096

/-- `s` with `bs` consumed: `state` and `cursor` moved on, nothing else. -/
def fed (s : State) (bs : List Byte) : State :=
  { s with state := BitVec.ofNat 32 (accumulate s.state.toNat bs), cursor := s.cursor + BitVec.ofNat 32 bs.length }

/-- `s` stopped by TruncatedInput after `bs`: `cause` 1, `info` the cursor, the bytes consumed stay consumed
(41_entropy_decoder R130, 60_exceptions R210, R211, R216). -/
def truncated (s : State) (bs : List Byte) : State :=
  { fed s bs with cause := 1, info := s.cursor + BitVec.ofNat 32 bs.length, phase := phFault }

/-! ## Decisions (41_entropy_decoder R130 to R134) -/

/-- The coder state after a decision `b` under probability `p`, from the renormalized value `x`
(41_entropy_decoder R132). -/
def nextCoderState (b : Bool) (p x : Nat) : Nat :=
  if b then p * (x / 256) + x % 256 else (256 - p) * (x / 256) + x % 256 - p

/-- The probability after a decision `b` (40_context_model R122). -/
def nextProbability (b : Bool) (p : Nat) : Nat := if b then p + (264 - p) / 16 else p - (p + 8) / 16

/-- `s` after the decision `b` at context `c` with probability `p`, having consumed `bs`: `state`, `cursor` and one
probability changed, nothing else. -/
def decided (c : Nat) (p : Byte) (b : Bool) (bs : List Byte) (s : State) : State :=
  { s with
    state := BitVec.ofNat 32 (nextCoderState b p.toNat (accumulate s.state.toNat bs))
    cursor := s.cursor + BitVec.ofNat 32 bs.length
    probs := s.probs.setIfInBounds c (BitVec.ofNat 8 (nextProbability b p.toNat)) }

/-- The context of the one decision the step of `s` takes; `none` in the phases that take no decision (45_top_fsm R193,
R194, 43_literal_decoder R162, 44_match_copy R170, 42_length_decoder R154, R155). -/
def decisionContext (s : State) : Option Nat :=
  if s.phase = phSop then some Config.ctxIsMatch
  else if s.phase = phLitBit then some (treeContext s)
  else if s.phase = phMHasoff then some Config.ctxHasOff
  else if s.phase = phLCont then some (contContext s)
  else if s.phase = phLVal then some (valContext s)
  else none

/-- The decision the stream of `s` carries at context `c` is `b`, and taking it leaves `t`
(41_entropy_decoder R134): `low < p` gives 1. -/
def Decides (c : Nat) (s : State) (b : Bool) (t : State) : Prop :=
  ∃ bs p, Feeds s bs ∧ s.probs[c]? = some p ∧ b = decide (accumulate s.state.toNat bs % 256 < p.toNat) ∧
    t = decided c p b bs s

/-- The stream of `s` carries the decisions `ds` in order, and taking them leaves `t` (30_encoding R91). -/
inductive DecidesAll : List Decision → State → State → Prop where
  | nil (s : State) : DecidesAll [] s s
  | cons {c : Nat} {b : Bool} {ds : List Decision} {s u t : State} :
      Decides c s b u → DecidesAll ds u t → DecidesAll ((c, b) :: ds) s t

/-- The value bits of a length code, least significant first, as a number (30_encoding R97). -/
def bitsValue : List Bool → Nat
  | [] => 0
  | b :: vs => b.toNat + 2 * bitsValue vs

/-- The decisions of a length code that carry the value bits `vs` from bit position `k` on: before each one a continue
decision of 1 (30_encoding R97). -/
def valueDecisions (B k : Nat) : List Bool → List Decision
  | [] => []
  | b :: vs => (B + 2 * k, true) :: (B + 2 * k + 1, b) :: valueDecisions B (k + 1) vs

/-- `t` with the length decoder's registers as after the value bits `vs` in the block with base `B`
(42_length_decoder R151). -/
def afterValueBits (B : Nat) (vs : List Bool) (t : State) : State :=
  { t with
    acc := BitVec.ofNat 32 (bitsValue vs)
    bitPos := BitVec.ofNat 5 vs.length
    lctx := BitVec.ofNat 9 (B + 2 * vs.length) }

/-! ## The output -/

/-- Every OUT address from `lo` up to, not including, `hi` has been written. -/
def OutWritten (s : State) (lo hi : Nat) : Prop := ∀ a, lo ≤ a → a < hi → (s.outMem.read a).isSome

/-- The platform backs every OUT address from `lo` up to, not including, `hi` (20_memory R71). -/
def OutBacked (s : State) (lo hi : Nat) : Prop := ∀ a, lo ≤ a → a < hi → backedAt s.outBacking a = true

/-- The platform backs every IN address the engine may still read: what the host ensures before START, and START refuses
to go without (20_memory R71, 70_reset_and_hazards R242). -/
def InputBacked (s : State) : Prop := ∀ a, s.cursor.toNat ≤ a → a < s.srcEnd.toNat → backedAt s.inBacking a = true

/-! ## Invariants (10_state R47) -/

/-- What holds at every step boundary of a decode, whatever the input (10_state R47 a to g). -/
structure DecodeInv (s : State) : Prop where
  /-- R47 a. -/
  stateBound : s.state.toNat < 2 ^ 20
  /-- R47 c: only the start of a decode has a state below 16, and it is 0. -/
  stateFloor : 16 ≤ s.state.toNat ∨ (s.state = 0 ∧ s.phase = phSop)
  /-- R47 b. -/
  probsRange : ∀ (i : Nat) (p : Byte), s.probs[i]? = some p → 7 ≤ p.toNat ∧ p.toNat ≤ 249
  /-- R47 d, and 42_length_decoder R155: L_VAL is entered with `bit_pos <= 30`. -/
  lengthCode : s.phase = phLCont ∨ s.phase = phLVal →
    s.lctx.toNat = (if s.lsel then 321 else 257) + 2 * s.bitPos.toNat ∧ s.acc.toNat < 2 ^ s.bitPos.toNat
  valPosition : s.phase = phLVal → s.bitPos.toNat ≤ 30
  /-- R47 e. -/
  treePosition : s.phase = phLitBit → 1 ≤ s.byte.toNat ∧ s.byte.toNat ≤ 255
  treeDone : s.phase = phLitEmit → 256 ≤ s.byte.toNat
  /-- R47 f, and 42_length_decoder R152: a match length is at least 1. -/
  toCopy : s.phase = phMChk ∨ s.phase = phMCopy → 1 ≤ s.rem.toNat
  copyOffset : s.phase = phMCopy → 1 ≤ s.offset.toNat ∧ s.offset.toNat + s.dstBase.toNat ≤ s.writePos.toNat
  /-- R47 g, the half that needs no premise: the output starts at `dst_base`. -/
  outStart : s.dstBase.toNat ≤ s.writePos.toNat
  /-- 20_memory R67: what a copy may read, the engine has written. -/
  outFilled : OutWritten s s.dstBase.toNat s.writePos.toNat
  /-- 20_memory R71: what is left to read of IN is backed. -/
  inputBacked : InputBacked s
  /-- 20_memory R71: the whole OUT range of the decode is backed. -/
  outBacked : OutBacked s s.dstBase.toNat s.dstEnd.toNat

/-- The machine's invariant: the memories are in canonical form, `phase` and `cause` are codes the spec has, the fault
record is there exactly in FAULT (60_exceptions R210, R216), and a busy engine meets R47. -/
structure Inv (s : State) : Prop where
  inCanonical : s.inMem.wf
  outCanonical : s.outMem.wf
  phaseLegal : s.phase.toNat ≤ 10
  causeLegal : s.cause.toNat ≤ 4
  faultRecorded : s.phase = phFault ↔ s.cause ≠ 0
  noStaleInfo : s.cause = 0 → s.info = 0
  decoding : s.busy → DecodeInv s

/-! ## Termination (45_top_fsm R198) -/

/-- What every engine step of a busy engine makes smaller: the input left, the coder state, the room left in OUT, and
one more while a match is about to be checked (41_entropy_decoder R136, 45_top_fsm R198). -/
def work (s : State) : Nat :=
  (s.srcEnd.toNat - s.cursor.toNat) * 2 ^ 20 + s.state.toNat + (s.dstEnd.toNat - s.writePos.toNat) +
    (if s.phase = phMChk then 1 else 0)

/-! ## What a decode depends on (10_state R45, R49) -/

/-- Two states in the same decode: equal but for registers that no rule reads before writing them again in the phase
(10_state R50), for OUT below `dst_base`, and for the model's own fields. -/
structure SameDecode (s t : State) : Prop where
  state : s.state = t.state
  cursor : s.cursor = t.cursor
  srcEnd : s.srcEnd = t.srcEnd
  writePos : s.writePos = t.writePos
  dstBase : s.dstBase = t.dstBase
  dstEnd : s.dstEnd = t.dstEnd
  offset : s.offset = t.offset
  pwm : s.pwm = t.pwm
  phase : s.phase = t.phase
  cause : s.cause = t.cause
  info : s.info = t.info
  probs : s.probs = t.probs
  input : s.inMem = t.inMem
  output : ∀ a, s.dstBase.toNat ≤ a → a < s.writePos.toNat → s.outMem.read a = t.outMem.read a
  byte : s.phase = phLitBit ∨ s.phase = phLitEmit → s.byte = t.byte
  lengthCode : s.phase = phLCont ∨ s.phase = phLVal →
    s.acc = t.acc ∧ s.bitPos = t.bitPos ∧ s.lctx = t.lctx ∧ s.lsel = t.lsel
  rem : s.phase = phMChk ∨ s.phase = phMCopy → s.rem = t.rem

/-! ## The probabilities a decode can reach (40_context_model R123) -/

/-- The values updates can bring 128 to. -/
inductive ReachableProbability : Byte → Prop where
  | init : ReachableProbability Config.probInit
  | update (b : Bool) {p : Byte} : ReachableProbability p → ReachableProbability (probUpdate b p)

/-! ## The transition table (45_top_fsm R193) -/

/-- The pairs of phases (from, to) of the table's rows for a busy engine. -/
def transitions : List (BitVec 4 × BitVec 4) :=
  [(phSop, phLitBit), (phSop, phLCont), (phSop, phMHasoff), (phSop, phFault),
   (phLitBit, phLitBit), (phLitBit, phLitEmit), (phLitBit, phFault),
   (phLitEmit, phSop), (phLitEmit, phFault),
   (phMHasoff, phLCont), (phMHasoff, phFault),
   (phLCont, phLVal), (phLCont, phFault), (phLCont, phDone), (phLCont, phLCont), (phLCont, phMChk),
   (phLVal, phLCont), (phLVal, phFault),
   (phMChk, phMCopy), (phMChk, phFault),
   (phMCopy, phMCopy), (phMCopy, phSop), (phMCopy, phFault)]

end Sys2Proof.Machine
end

