-- ==== Sys2Proof/Certificates/Slice0/Obligations.lean ====
section
/-! DEFINITION. The statements for the provers. A decision-bearing operation is described by `Decides` and `Starves`
(Safety.lean), which say in numbers which bytes the decision consumes and what it leaves; a state written
`(t with …)` says that everything not named is as in `t`. -/

open Sys2Proof Sys2Proof.Machine

/-! ## Reset and the host -/

/-- 70_reset_and_hazards R240, on `State.reset` and on the reset input at any moment: IDLE, no fault recorded, STATUS 0,
OUT keeps its bytes, and START needs the registers written again (R242). -/
def Obligations.ResetGivesIdleAndKeepsOutput : Prop :=
  (State.reset.phase = phIdle ∧ State.reset.cause = 0 ∧ State.reset.info = 0 ∧ State.reset.statusWord = 0) ∧
  ∀ (s : State) (rest : List HostAct), s.script = .reset :: rest →
    ∃ t, step s = .next t ∧ t.phase = phIdle ∧ t.cause = 0 ∧ t.info = 0 ∧ t.statusWord = 0 ∧
      t.outMem = s.outMem ∧ t.inMem = s.inMem ∧ t.launchReady = false ∧ t.script = rest

/-- The invariant of the machine holds after reset. -/
def Obligations.ResetMeetsTheInvariant : Prop := Inv State.reset

/-- 45_top_fsm R191: START while not busy initialises exactly these registers; while busy it is ignored. (That the host
has written the four registers and that the two ranges are backed is 70_reset_and_hazards R242.) -/
def Obligations.StartInitialisesTheDecode : Prop :=
  ∀ s : State,
    (s.busy = false → s.launchReady = true → InputBacked s → OutBacked s s.writePos.toNat s.dstEnd.toNat →
      exec .start s = .next { s with
        dstBase := s.writePos, state := 0, probs := Vector.replicate 385 128, pwm := false, offset := 0,
        cause := 0, info := 0, phase := phSop }) ∧
    (s.busy = true → exec .start s = .next s)

/-- 10_state R50, 93_implementation_defined U11: START is refused while one of the four registers is unwritten since
reset. The bookkeeping fields are the model's own (log 6). -/
def Obligations.StartIsRefusedUntilTheRegistersAreWritten : Prop :=
  ∀ s : State, s.busy = false →
    (s.srcSet = false ∨ s.srcEndSet = false ∨ s.dstSet = false ∨ s.dstEndSet = false) →
    exec .start s = .refused .startUnwritten

/-- 20_memory R71, 93_implementation_defined U14: a launch whose IN range `SRC .. src_end - 1` or OUT range
`DST .. dst_end - 1` the platform does not back with plain memory throughout is refused, and no other launch is. Which
addresses it backs is the model's own field (log 17). -/
def Obligations.StartRefusesExactlyTheUnbackedLaunches : Prop :=
  ∀ s : State, s.busy = false → s.launchReady = true →
    (exec .start s = .refused .launchNotBacked ↔
      (∃ a, s.cursor.toNat ≤ a ∧ a < s.srcEnd.toNat ∧ backedAt s.inBacking a = false) ∨
      ∃ a, s.writePos.toNat ≤ a ∧ a < s.dstEnd.toNat ∧ backedAt s.outBacking a = false)

/-- 10_state R41: a CTRL write with bit 0 = 1 is START while not busy and ignored while busy, with bit 0 = 0 it does
nothing, and CTRL reads 0. -/
def Obligations.CtrlWriteIsStart : Prop :=
  ∀ (s : State) (rest : List HostAct),
    (∀ v : Word, s.script = .regWrite 0x00 v :: rest →
      (v.getLsbD 0 = true → s.busy = false → step s = exec .start { s with script := rest }) ∧
      (v.getLsbD 0 = true → s.busy = true → step s = .next { s with script := rest }) ∧
      (v.getLsbD 0 = false → step s = .next { s with script := rest })) ∧
    (s.script = .regRead 0x00 :: rest → step s = .next { s with script := rest, busData := 0 })

/-- 10_state R42: STATUS as a function of `phase`, for the codes the spec has. -/
def Obligations.StatusIsAFunctionOfPhase : Prop :=
  ∀ s : State, s.phase.toNat ≤ 10 →
    (s.busy = true ↔ s.phase ∈ [phSop, phLitBit, phLitEmit, phMHasoff, phLCont, phLVal, phMChk, phMCopy]) ∧
    (s.doneFlag = true ↔ s.phase = phDone) ∧ (s.faultFlag = true ↔ s.phase = phFault) ∧
    s.statusWord.toNat = 16 * s.phase.toNat + (if s.busy then 1 else 0) + (if s.doneFlag then 2 else 0)
      + (if s.faultFlag then 4 else 0) ∧
    s.busy.toNat + s.doneFlag.toNat + s.faultFlag.toNat ≤ 1 ∧
    ((s.busy = false ∧ s.doneFlag = false ∧ s.faultFlag = false) ↔ s.phase = phIdle) ∧
    State.reset.statusWord = 0 ∧
    ∀ rest, s.script = .regRead 0x04 :: rest → step s = .next { s with script := rest, busData := s.statusWord }

/-- 10_state R43: the host's windows on `cursor`, `src_end`, `write_pos`, `dst_end`: a write while not busy sets the
register, a write while busy is ignored, a read returns the current value. The fields `…Set` are the model's own
(log 6). -/
def Obligations.HostWindowsOnTheFourRegisters : Prop :=
  ∀ (s : State) (rest : List HostAct) (v : Word),
    (s.busy = true → ∀ off ∈ [0x08, 0x0C, 0x10, 0x14], s.script = .regWrite off v :: rest →
      step s = .next { s with script := rest }) ∧
    (s.busy = false →
      (s.script = .regWrite 0x08 v :: rest → step s = .next { s with script := rest, cursor := v, srcSet := true }) ∧
      (s.script = .regWrite 0x0C v :: rest → step s = .next { s with script := rest, srcEnd := v, srcEndSet := true }) ∧
      (s.script = .regWrite 0x10 v :: rest → step s = .next { s with script := rest, writePos := v, dstSet := true }) ∧
      (s.script = .regWrite 0x14 v :: rest → step s = .next { s with script := rest, dstEnd := v, dstEndSet := true })) ∧
    (s.script = .regRead 0x08 :: rest → step s = .next { s with script := rest, busData := s.cursor }) ∧
    (s.script = .regRead 0x0C :: rest → step s = .next { s with script := rest, busData := s.srcEnd }) ∧
    (s.script = .regRead 0x10 :: rest → step s = .next { s with script := rest, busData := s.writePos }) ∧
    (s.script = .regRead 0x14 :: rest → step s = .next { s with script := rest, busData := s.dstEnd })

/-- 10_state R40, R44: STATUS, DST_BASE, CAUSE and INFO are read only; offsets above 0x20 read 0 and ignore writes. -/
def Obligations.ReadOnlyRegistersIgnoreWrites : Prop :=
  ∀ (s : State) (rest : List HostAct) (v : Word) (off : Nat),
    (off ∈ [0x04, 0x18, 0x1C, 0x20] ∨ 0x20 < off → s.script = .regWrite off v :: rest →
      step s = .next { s with script := rest }) ∧
    (s.script = .regRead 0x18 :: rest → step s = .next { s with script := rest, busData := s.dstBase }) ∧
    (s.script = .regRead 0x1C :: rest → step s = .next { s with script := rest, busData := s.cause.setWidth 32 }) ∧
    (s.script = .regRead 0x20 :: rest → step s = .next { s with script := rest, busData := s.info }) ∧
    (0x20 < off → s.script = .regRead off :: rest → step s = .next { s with script := rest, busData := 0 })

/-- 70_reset_and_hazards R252, 93_implementation_defined U15: while busy a host write of IN, or of the OUT range of the
decode, is refused, and a host read of that range returns a value nothing is known of (log 8); while not busy the host
writes what it later reads. (Of bytes the platform backs, log 17.) -/
def Obligations.HostKeepsOffTheBuffersWhileBusy : Prop :=
  ∀ (s : State) (rest : List HostAct) (a : Word) (v : Byte),
    (s.busy = true → s.script = .inWrite a v :: rest → step s = .refused .hostWriteWhileBusy) ∧
    (s.busy = true → s.dstBase.toNat ≤ a.toNat → a.toNat < s.dstEnd.toNat →
      (s.script = .outWrite a v :: rest → step s = .refused .hostWriteWhileBusy) ∧
      (backedAt s.outBacking a.toNat = true → s.script = .outRead a :: rest → ∃ b : Byte,
        step s = .next { s with script := rest, busData := b.setWidth 32, freeTick := s.freeTick + 1 })) ∧
    (s.busy = false →
      (backedAt s.inBacking a.toNat = true → s.script = .inWrite a v :: .inRead a :: rest → ∃ t u, step s = .next t ∧ step t = .next u ∧
        u = { s with script := rest, inMem := u.inMem, busData := v.setWidth 32 } ∧
        ∀ b, u.inMem.read b = if b = a.toNat then some v else s.inMem.read b) ∧
      (backedAt s.outBacking a.toNat = true → s.script = .outWrite a v :: .outRead a :: rest → ∃ t u, step s = .next t ∧ step t = .next u ∧
        u = { s with script := rest, outMem := u.outMem, busData := v.setWidth 32 } ∧
        ∀ b, u.outMem.read b = if b = a.toNat then some v else s.outMem.read b))

/-- 45_top_fsm R200: the host may read IN and OUT while BUSY = 0, whatever has been written there: it gets the byte
last written, or, where nothing was, a value nothing is known of (log 5), and the read changes nothing (20_memory R71).
That a read of IN while busy does the same is the model's choice (log 8), and which bytes the platform backs its own
field (log 17). -/
def Obligations.HostReadsTheMemories : Prop :=
  ∀ (s : State) (rest : List HostAct) (a : Word),
    (s.script = .inRead a :: rest →
      (backedAt s.inBacking a.toNat = true → ∃ b : Byte,
        step s = .next { s with script := rest, busData := b.setWidth 32 } ∧ ∀ v, s.inMem.read a.toNat = some v → b = v) ∧
      (backedAt s.inBacking a.toNat = false → step s = .refused .inNotBacked)) ∧
    (s.script = .outRead a :: rest →
      (s.busy = false → backedAt s.outBacking a.toNat = true → ∃ b : Byte,
        step s = .next { s with script := rest, busData := b.setWidth 32 } ∧ ∀ v, s.outMem.read a.toNat = some v → b = v) ∧
      (backedAt s.outBacking a.toNat = false → step s = .refused .outNotBacked))

/-! ## Steps -/

/-- 45_top_fsm R193, 30_encoding R102: an engine step runs the operation whose code `phase` holds, and a code no phase
has is stuck (93_implementation_defined U20). The machine's step is an engine step where the host's script is empty or
says so, and a symbol step where it says that (the script is log 2, the symbol step log 13). -/
def Obligations.StepRunsThePhaseOperation : Prop :=
  ∀ s : State,
    (∀ i, decode (.phase s.phase) = .ok i → engineStep s = exec i s) ∧
    (11 ≤ s.phase.toNat → engineStep s = .fault .noSuchPhase) ∧
    (s.script = [] → step s = engineStep s) ∧
    (∀ rest, s.script = .engine :: rest → step s = engineStep { s with script := rest }) ∧
    (∀ rest, s.script = .symbol :: rest → step s = symbolStep { s with script := rest }) ∧
    (s.phase ≠ phSop → symbolStep s = engineStep s) ∧
    (s.phase = phSop → ∀ i t, fetchSymbol s = .ok i t → symbolStep s = exec i t)

/-- A table word placed with `withFetchWord` is the next thing the step runs: for a phase code the operation itself, for
a selector no phase code is (log 9) the symbol, once its decisions are taken. -/
def Obligations.StepRunsThePlacedWord : Prop :=
  (∀ (s : State) (w : Nat), w ≤ 10 → ∃ i, decodeTableWord 8 w = some i ∧
    step (s.withFetchWord 8 w) = exec i (s.withFetchWord 8 w)) ∧
  (∀ (s : State) (w : Nat), 11 ≤ w → w ≤ 15 → ∃ i t, decodeTableWord 8 w = some i ∧
    fetchSymbol { s.withFetchWord 8 w with script := [] } = .ok i t ∧ step (s.withFetchWord 8 w) = exec i t)

/-- 45_top_fsm R195, R196, 60_exceptions R216, R218: in IDLE, DONE and FAULT the engine takes no step, so the fault
record stays. That the model's step then leaves the state as it is, rather than stopping, is log 3. -/
def Obligations.IdleDoneAndFaultTakeNoStep : Prop :=
  ∀ s : State,
    exec .idle s = .next s ∧ exec .done s = .next s ∧ exec .faulted s = .next s ∧
    (s.script = [] → s.phase.toNat ≤ 10 → s.busy = false → step s = .next s)

/-! ## The context model -/

/-- 40_context_model R121: PROB.RD returns `probs[c]` and changes nothing else (the returned value stands in the model's
own field `result`, log 11); a context above 384 has no meaning. -/
def Obligations.ProbReadReturnsTheSlot : Prop :=
  ∀ (s : State) (c : BitVec 9),
    (∀ h : c.toNat < 385, exec (.probRd c) s = .next { s with result := .prob s.probs[c.toNat] }) ∧
    (385 ≤ c.toNat → exec (.probRd c) s = .fault .noSuchContext)

/-- 40_context_model R122: PROB.UPD stores `p + ((256 - p + 8) >> 4)` or `p - ((p + 8) >> 4)` in `probs[c]`, and changes
nothing else. -/
def Obligations.ProbUpdateAdaptsTheSlot : Prop :=
  ∀ (s : State) (c : BitVec 9) (h : c.toNat < 385) (b : Bool),
    ∃ t, exec (.probUpd c b) s = .next t ∧ t = { s with probs := t.probs } ∧
      (∀ (i : Nat) (hi : i < 385), i ≠ c.toNat → t.probs[i] = s.probs[i]) ∧
      (b = true → t.probs[c.toNat].toNat
        = s.probs[c.toNat].toNat + ((256 - s.probs[c.toNat].toNat + 8) >>> 4)) ∧
      (b = false → t.probs[c.toNat].toNat = s.probs[c.toNat].toNat - ((s.probs[c.toNat].toNat + 8) >>> 4))

/-- 40_context_model R123: the values updates can bring 128 to are exactly 7..249. -/
def Obligations.ReachableProbabilitiesAre7To249 : Prop :=
  ∀ p : Byte, ReachableProbability p ↔ 7 ≤ p.toNat ∧ p.toNat ≤ 249

/-! ## The entropy decoder -/

/-- 41_entropy_decoder R130: RENORM consumes the bytes that bring `state` to 4096 or more, earlier bytes more
significant (20_memory R61), leaves it below 2^20 where it consumed one, and raises TruncatedInput with the bytes
consumed so far kept; on backed input (20_memory R71) one of the two is the case. -/
def Obligations.RenormConsumesUntil4096 : Prop :=
  ∀ s : State,
    (∀ bs : List Byte, Feeds s bs → ∃ t, exec .renorm s = .next t ∧
      t = { s with state := t.state, cursor := t.cursor } ∧
      t.state.toNat = accumulate s.state.toNat bs ∧ t.cursor.toNat = s.cursor.toNat + bs.length ∧
      4096 ≤ t.state.toNat ∧ (bs ≠ [] → t.state.toNat < 2 ^ 20)) ∧
    (∀ bs : List Byte, Starves s bs → exec .renorm s = .next (truncated s bs)) ∧
    (InputBacked s → (∃ bs, Feeds s bs) ∨ ∃ bs, Starves s bs)

/-- 41_entropy_decoder R131: DECIDE returns `low = state[7:0]` and the bit `low < p`, and changes nothing else. -/
def Obligations.DecideComparesTheLowByte : Prop :=
  ∀ (s : State) (p : Byte), ∃ low : Byte, low.toNat = s.state.toNat % 256 ∧
    exec (.decideBit p) s = .next { s with result := .split (decide (low.toNat < p.toNat)) low }

/-- 41_entropy_decoder R132: STUPD on the bit DECIDE gives, over the naturals; nothing but `state` changes. -/
def Obligations.StateUpdateFollowsTheFormula : Prop :=
  ∀ (s : State) (b : Bool) (p : Byte), b = decide (s.state.toNat % 256 < p.toNat) →
    ∃ v : Word, exec (.stupd b p) s = .next { s with state := v } ∧
      (b = true → v.toNat = p.toNat * (s.state.toNat / 256) + s.state.toNat % 256) ∧
      (b = false → v.toNat + p.toNat = (256 - p.toNat) * (s.state.toNat / 256) + s.state.toNat % 256)

/-- STUPD with a bit that DECIDE would not give, for which 41_entropy_decoder R132 states no purpose: it completes, only
`state` changes, and where the formula stays within the naturals it holds. The free value elsewhere is log 7. -/
def Obligations.StateUpdateCompletesOnAnyBit : Prop :=
  ∀ (s : State) (b : Bool) (p : Byte), ∃ v : Word, exec (.stupd b p) s = .next { s with state := v } ∧
    (b = true → v = BitVec.ofNat 32 (p.toNat * (s.state.toNat / 256) + s.state.toNat % 256)) ∧
    (b = false → p.toNat ≤ (256 - p.toNat) * (s.state.toNat / 256) + s.state.toNat % 256 →
      v = BitVec.ofNat 32 ((256 - p.toNat) * (s.state.toNat / 256) + s.state.toNat % 256 - p.toNat))

/-- 41_entropy_decoder R136, R137: on the bit DECIDE gives, STUPD never increases `state`, leaves at least 16 where
`state` was renormalized, and takes at least 112 away where moreover `7 <= p <= 249`; and from 16 on one byte is enough
to renormalize. -/
def Obligations.StateUpdateShrinksTheState : Prop :=
  (∀ (s t : State) (b : Bool) (p : Byte), b = decide (s.state.toNat % 256 < p.toNat) →
    exec (.stupd b p) s = .next t →
    t.state.toNat ≤ s.state.toNat ∧ (4096 ≤ s.state.toNat → 16 ≤ t.state.toNat) ∧
    (4096 ≤ s.state.toNat → 7 ≤ p.toNat → p.toNat ≤ 249 → t.state.toNat + 112 ≤ s.state.toNat)) ∧
  (∀ (s : State) (bs : List Byte), Feeds s bs → 16 ≤ s.state.toNat → bs.length ≤ 1)

/-- 41_entropy_decoder R134: DECBIT takes the decision the stream carries, which it does wherever RENORM is fed (the bit
stands in the model's own field `result`, log 11), or raises TruncatedInput with `probs` untouched. R134 gives DECBIT
the contexts 0 to 383 only; that it does the same on context 384 is the model's choice (log 11). -/
def Obligations.DecbitTakesTheDecision : Prop :=
  ∀ (s : State) (c : BitVec 9), c.toNat < 385 →
    (∀ bs, Feeds s bs → ∃ b t, Decides c.toNat s b t) ∧
    (∀ b t, Decides c.toNat s b t → exec (.decbit c) s = .next { t with result := .bit b }) ∧
    (∀ bs, Starves s bs → exec (.decbit c) s = .next (truncated s bs))

/-! ## The length decoder -/

/-- 42_length_decoder R151, R153: DECLEN returns the value the decisions carry, raises LengthOverflow on the 32nd
continue decision of 1, and TruncatedInput where any decision runs out of input; the length decoder's registers move
along. -/
def Obligations.DeclenReadsTheLengthCode : Prop :=
  ∀ (B : Block) (s : State) (vs : List Bool), vs.length ≤ 31 →
    (∀ t, DecidesAll (valueDecisions (blockBase B) 0 vs ++ [(blockBase B + 2 * vs.length, false)]) s t →
      exec (.declen B) s = .next { afterValueBits (blockBase B) vs t with
        result := .length (BitVec.ofNat 32 (bitsValue vs + 2 ^ vs.length)) }) ∧
    (vs.length = 31 → ∀ t, DecidesAll (valueDecisions (blockBase B) 0 vs ++ [(blockBase B + 62, true)]) s t →
      exec (.declen B) s = .next { afterValueBits (blockBase B) vs t with
        cause := 4, info := BitVec.ofNat 32 (blockBase B + 62), phase := phFault }) ∧
    (∀ t bs, DecidesAll (valueDecisions (blockBase B) 0 vs) s t → Starves t bs →
      exec (.declen B) s = .next (truncated (afterValueBits (blockBase B) vs t) bs)) ∧
    (vs.length ≤ 30 → ∀ t bs,
      DecidesAll (valueDecisions (blockBase B) 0 vs ++ [(blockBase B + 2 * vs.length, true)]) s t → Starves t bs →
      exec (.declen B) s = .next (truncated (afterValueBits (blockBase B) vs t) bs))

/-- 42_length_decoder R154, with the deliveries of 44_match_copy R172, R173 and LSTART of R156: L_CONT continues,
overflows at position 31, delivers a length, ends the stream on the offset value 1, or delivers an offset and begins the
length code; TruncatedInput leaves all else. -/
def Obligations.LContContinuesOrDelivers : Prop :=
  ∀ s : State,
    (∀ b t, Decides s.lctx.toNat s b t → exec .lCont s = .next (
      if b then
        if s.bitPos = 31 then { t with cause := 4, info := s.lctx.setWidth 32, phase := phFault }
        else { t with phase := phLVal }
      else if s.lsel then { t with rem := s.acc ||| (1 <<< s.bitPos.toNat), phase := phMChk }
      else if (s.acc ||| (1 <<< s.bitPos.toNat)) = 1 then { t with offset := 0, phase := phDone }
      else { t with offset := (s.acc ||| (1 <<< s.bitPos.toNat)) - 1, lsel := true, acc := 0, bitPos := 0, lctx := 321,
                    phase := phLCont })) ∧
    (∀ bs, Starves s bs → exec .lCont s = .next (truncated s bs))

/-- 42_length_decoder R155: L_VAL, entered with `bit_pos <= 30`. -/
def Obligations.LValTakesAValueBit : Prop :=
  ∀ s : State,
    (s.bitPos.toNat ≤ 30 → ∀ b t, Decides (s.lctx.toNat + 1) s b t → exec .lVal s = .next { t with
      acc := s.acc ||| (BitVec.ofNat 32 b.toNat <<< s.bitPos.toNat), bitPos := s.bitPos + 1, lctx := s.lctx + 2,
      phase := phLCont }) ∧
    (∀ bs, Starves s bs → exec .lVal s = .next (truncated s bs))

/-! ## The literal decoder -/

/-- 43_literal_decoder R161: DECLIT returns the byte its eight decisions carry; where one runs out of input, `byte` holds
the bits before it with the seed. -/
def Obligations.DeclitReadsTheLiteral : Prop :=
  ∀ (s : State) (v : Byte),
    (∀ t, DecidesAll (treeDecisions v) s t →
      exec .declit s = .next { t with byte := BitVec.ofNat 9 (256 + v.toNat), result := .literal v }) ∧
    (∀ (m : Nat) (t : State) (bs : List Byte), m < 8 → DecidesAll ((treeDecisions v).take m) s t → Starves t bs →
      exec .declit s = .next (truncated { t with byte := BitVec.ofNat 9 (2 ^ m + v.toNat / 2 ^ (8 - m)) } bs))

/-- 43_literal_decoder R162: LIT_BIT, entered with `1 <= byte <= 255`. -/
def Obligations.LitBitShiftsInADecision : Prop :=
  ∀ s : State,
    (1 ≤ s.byte.toNat → s.byte.toNat ≤ 255 → ∀ b t, Decides s.byte.toNat s b t → exec .litBit s = .next { t with
      byte := BitVec.ofNat 9 (2 * s.byte.toNat + b.toNat)
      phase := if 256 ≤ 2 * s.byte.toNat + b.toNat then phLitEmit else phLitBit }) ∧
    (∀ bs, Starves s bs → exec .litBit s = .next (truncated s bs))

/-- 43_literal_decoder R163: LIT_EMIT, and EMIT, the same as a procedure, append `byte[7:0]`, or raise OutputOverflow
before the write. (Of OUT the platform backs, log 17.) -/
def Obligations.LitEmitAppendsTheLiteral : Prop :=
  ∀ s : State, ∀ i ∈ [Instr.litEmit, Instr.emit],
    (s.writePos.toNat < s.dstEnd.toNat → backedAt s.outBacking s.writePos.toNat = true → ∃ t, exec i s = .next t ∧
      t = { s with outMem := t.outMem, writePos := s.writePos + 1, pwm := false, phase := phSop } ∧
      ∀ a, t.outMem.read a = if a = s.writePos.toNat then some (s.byte.setWidth 8) else s.outMem.read a) ∧
    (s.dstEnd.toNat ≤ s.writePos.toNat →
      exec i s = .next { s with cause := 2, info := s.writePos, phase := phFault })

/-- 43_literal_decoder R164, after the symbol's decisions: LIT appends its field. (Of OUT the platform backs, log 17.) -/
def Obligations.LitAppendsItsField : Prop :=
  ∀ (s : State) (v : Byte),
    (s.writePos.toNat < s.dstEnd.toNat → backedAt s.outBacking s.writePos.toNat = true → ∃ t, exec (.lit v) s = .next t ∧
      t = { s with outMem := t.outMem, writePos := s.writePos + 1, pwm := false, phase := phSop } ∧
      ∀ a, t.outMem.read a = if a = s.writePos.toNat then some v else s.outMem.read a) ∧
    (s.dstEnd.toNat ≤ s.writePos.toNat →
      exec (.lit v) s = .next { s with cause := 2, info := s.writePos, phase := phFault })

/-! ## The top of a symbol -/

/-- 45_top_fsm R194: SOP, the dispatch on the is-match decision and `pwm`. -/
def Obligations.SopDispatches : Prop :=
  ∀ s : State,
    (∀ b t, Decides 0 s b t → exec .sop s = .next (
      if b then
        if s.pwm then { t with lsel := false, acc := 0, bitPos := 0, lctx := 257, phase := phLCont }
        else { t with phase := phMHasoff }
      else { t with byte := 1, phase := phLitBit })) ∧
    (∀ bs, Starves s bs → exec .sop s = .next (truncated s bs))

/-- 44_match_copy R170: M_HASOFF begins the offset code on 1 and the length code on 0, `offset` unchanged. -/
def Obligations.MHasoffChoosesTheCode : Prop :=
  ∀ s : State,
    (∀ b t, Decides 256 s b t → exec .mHasoff s = .next (
      if b then { t with lsel := false, acc := 0, bitPos := 0, lctx := 257, phase := phLCont }
      else { t with lsel := true, acc := 0, bitPos := 0, lctx := 321, phase := phLCont })) ∧
    (∀ bs, Starves s bs → exec .mHasoff s = .next (truncated s bs))

/-! ## Matches -/

/-- 44_match_copy R174: M_CHK passes exactly the offsets from 1 to the bytes written, and raises InvalidOffset on any
other. -/
def Obligations.MChkValidatesTheOffset : Prop :=
  ∀ s : State, s.dstBase.toNat ≤ s.writePos.toNat →
    (1 ≤ s.offset.toNat → s.offset.toNat ≤ s.writePos.toNat - s.dstBase.toNat →
      exec .mChk s = .next { s with phase := phMCopy }) ∧
    (s.offset.toNat = 0 ∨ s.writePos.toNat - s.dstBase.toNat < s.offset.toNat →
      exec .mChk s = .next { s with cause := 3, info := s.offset, phase := phFault })

/-- 44_match_copy R175: M_COPY, and COPYB, the same as a procedure, copy the byte at `write_pos - offset`, count it, and
end the match with the last one; OutputOverflow comes before the read. (Of OUT the platform backs, log 17.) -/
def Obligations.MCopyCopiesOneByte : Prop :=
  ∀ s : State, ∀ i ∈ [Instr.mCopy, Instr.copyb],
    (s.writePos.toNat < s.dstEnd.toNat → 1 ≤ s.rem.toNat → s.offset.toNat ≤ s.writePos.toNat →
      backedAt s.outBacking s.writePos.toNat = true →
      ∀ v, s.readOut (s.writePos.toNat - s.offset.toNat) = some v → ∃ t, exec i s = .next t ∧
        t = { s with
          outMem := t.outMem, writePos := s.writePos + 1, rem := s.rem - 1
          pwm := if s.rem.toNat = 1 then true else s.pwm
          phase := if s.rem.toNat = 1 then phSop else phMCopy } ∧
        ∀ a, t.outMem.read a = if a = s.writePos.toNat then some v else s.outMem.read a) ∧
    (s.dstEnd.toNat ≤ s.writePos.toNat →
      exec i s = .next { s with cause := 2, info := s.writePos, phase := phFault })

/-- What a match of length `n` at a valid offset `o` that fits leaves (44_match_copy R177 to R179): `n` bytes, each equal
to the one `o` before it, and nothing else in OUT. -/
def Obligations.MatchCopiesItsBytes : Prop :=
  ∀ (s : State) (o n : Word), 1 ≤ n.toNat → 1 ≤ o.toNat → s.dstBase.toNat + o.toNat ≤ s.writePos.toNat →
    OutBacked s (s.writePos.toNat - o.toNat) (s.writePos.toNat + n.toNat) →
    s.writePos.toNat + n.toNat ≤ s.dstEnd.toNat →
    ∀ i ∈ [Instr.matchN o n, Instr.matchC o n] ++ (if s.offset = o then [Instr.matchR n] else []),
      ∃ t, exec i s = .next t ∧
        t = { s with
          offset := o, rem := 0, outMem := t.outMem, writePos := s.writePos + n, pwm := true, phase := phSop } ∧
        (∀ a, a < s.writePos.toNat ∨ s.writePos.toNat + n.toNat ≤ a → t.outMem.read a = s.outMem.read a) ∧
        (∀ k < n.toNat, t.readOut (s.writePos.toNat + k) = t.readOut (s.writePos.toNat + k - o.toNat) ∧
          (t.outMem.read (s.writePos.toNat + k)).isSome)

/-- 44_match_copy R176: a match at offset 1 repeats the byte before `write_pos`. -/
def Obligations.OffsetOneRepeatsTheLastByte : Prop :=
  ∀ (s : State) (n : Word) (v : Byte), 1 ≤ n.toNat → s.dstBase.toNat < s.writePos.toNat →
    s.readOut (s.writePos.toNat - 1) = some v → OutBacked s s.writePos.toNat (s.writePos.toNat + n.toNat) →
    s.writePos.toNat + n.toNat ≤ s.dstEnd.toNat →
    ∀ i ∈ [Instr.matchN 1 n, Instr.matchC 1 n],
      ∃ t, exec i s = .next t ∧ t.writePos.toNat = s.writePos.toNat + n.toNat ∧
        ∀ k < n.toNat, t.outMem.read (s.writePos.toNat + k) = some v

/-- 60_exceptions R212 on a match: copied up to the last byte that fits, then OutputOverflow, `rem` the bytes not
copied, `pwm` unchanged. -/
def Obligations.MatchThatDoesNotFitIsCutAtTheLimit : Prop :=
  ∀ (s : State) (o n : Word), 1 ≤ o.toNat → s.dstBase.toNat + o.toNat ≤ s.writePos.toNat →
    OutBacked s (s.writePos.toNat - o.toNat) s.dstEnd.toNat → s.dstEnd.toNat < s.writePos.toNat + n.toNat →
    1 ≤ n.toNat →
    ∀ i ∈ [Instr.matchN o n, Instr.matchC o n] ++ (if s.offset = o then [Instr.matchR n] else []),
      ∃ t, exec i s = .next t ∧
        t = { s with
          offset := o, rem := t.rem, outMem := t.outMem, writePos := t.writePos, cause := 2, info := t.writePos
          phase := phFault } ∧
        t.writePos.toNat = max s.writePos.toNat s.dstEnd.toNat ∧
        t.rem.toNat = n.toNat - (s.dstEnd.toNat - s.writePos.toNat) ∧
        (∀ a, a < s.writePos.toNat ∨ t.writePos.toNat ≤ a → t.outMem.read a = s.outMem.read a) ∧
        (∀ k, s.writePos.toNat + k < t.writePos.toNat →
          t.readOut (s.writePos.toNat + k) = t.readOut (s.writePos.toNat + k - o.toNat))

/-- 60_exceptions R213, R217: an invalid offset is reported before any byte is copied, whatever room there is. -/
def Obligations.InvalidOffsetComesBeforeOverflow : Prop :=
  ∀ (s : State) (o n : Word), s.dstBase.toNat ≤ s.writePos.toNat →
    o.toNat = 0 ∨ s.writePos.toNat - s.dstBase.toNat < o.toNat →
    ∀ i ∈ [Instr.matchN o n, Instr.matchC o n] ++ (if s.offset = o then [Instr.matchR n] else []),
      exec i s = .next { s with offset := o, rem := n, cause := 3, info := o, phase := phFault }

/-- 44_match_copy R180, R181, after the symbol's decisions: the end of the stream sets `offset` to 0 and goes to DONE,
and changes nothing else. -/
def Obligations.EndGoesToDone : Prop :=
  ∀ s : State, ∀ i ∈ [Instr.endN, Instr.endC], exec i s = .next { s with offset := 0, phase := phDone }

/-! ## Rules of the whole engine -/

/-- 45_top_fsm R193: a busy engine makes only the transitions of the table. -/
def Obligations.EngineFollowsTheTransitionTable : Prop :=
  ∀ s t : State, s.busy = true → engineStep s = .next t → (s.phase, t.phase) ∈ transitions

/-- 30_encoding R99: only the offset-zero sentinel, an offset code whose first decision stops it, leads to DONE, with no
output mutation. -/
def Obligations.OnlyTheSentinelReachesDone : Prop :=
  ∀ s t : State, s.busy = true → engineStep s = .next t → t.phase = phDone →
    s.phase = phLCont ∧ s.lsel = false ∧ (s.acc ||| (1 <<< s.bitPos.toNat)) = 1 ∧ t.offset = 0 ∧
      (∃ u, Decides s.lctx.toNat s false u) ∧ t.outMem = s.outMem ∧ t.writePos = s.writePos ∧ t.pwm = s.pwm

/-- 20_memory R65, R66, R68: the engine never writes IN, writes OUT only at `write_pos`, below `dst_end`, and moves
`write_pos` on by one when it does. -/
def Obligations.EngineWritesOnlyAtWritePos : Prop :=
  ∀ s t : State, engineStep s = .next t →
    t.inMem = s.inMem ∧
    (∀ a, a ≠ s.writePos.toNat → t.outMem.read a = s.outMem.read a) ∧
    ((t.outMem = s.outMem ∧ t.writePos = s.writePos) ∨
      ((s.phase = phLitEmit ∨ s.phase = phMCopy) ∧ s.writePos.toNat < s.dstEnd.toNat ∧
        t.writePos.toNat = s.writePos.toNat + 1))

/-- 10_state R37, 40_context_model R124: an engine step changes the table only at the context of the phase's own
decision, by the update of R122 with the bit the stream carries there, or not at all where the input runs out; in the
phases that take no decision it changes nothing of the table. -/
def Obligations.ProbabilitiesChangeOnlyByADecision : Prop :=
  ∀ s t : State, engineStep s = .next t →
    (∀ c, decisionContext s = some c →
      (t.probs = s.probs ∧ t.phase = phFault ∧ t.cause = 1) ∨
      ∃ (h : c < 385) (b : Bool), (∃ u, Decides c s b u) ∧
        t.probs = s.probs.set c (BitVec.ofNat 8 (nextProbability b s.probs[c].toNat)) h) ∧
    (decisionContext s = none → t.probs = s.probs)

/-- 10_state R22, R24, R47 g: while busy the cursors only advance and stay within limits they were within, and the
limits stay. -/
def Obligations.CursorsAdvanceWithinTheirLimits : Prop :=
  ∀ s t : State, s.busy = true → engineStep s = .next t →
    s.cursor.toNat ≤ t.cursor.toNat ∧ s.writePos.toNat ≤ t.writePos.toNat ∧
    t.srcEnd = s.srcEnd ∧ t.dstEnd = s.dstEnd ∧ t.dstBase = s.dstBase ∧
    (s.cursor.toNat ≤ s.srcEnd.toNat → t.cursor.toNat ≤ t.srcEnd.toNat) ∧
    (s.writePos.toNat ≤ s.dstEnd.toNat → t.writePos.toNat ≤ t.dstEnd.toNat)

/-- 60_exceptions R210, R215: a busy engine that stops in FAULT does so for one of the four causes, where its condition
holds, with its `info`. -/
def Obligations.FaultsAreTheFourOfTheTable : Prop :=
  ∀ s t : State, s.busy = true → engineStep s = .next t → t.phase = phFault →
    (t.cause = 1 ∧ t.info = t.cursor ∧ t.srcEnd.toNat ≤ t.cursor.toNat ∧ t.state.toNat < 4096 ∧ t.probs = s.probs ∧
      s.phase ∈ [phSop, phLitBit, phMHasoff, phLCont, phLVal]) ∨
    (t.cause = 2 ∧ t.info = t.writePos ∧ t.dstEnd.toNat ≤ t.writePos.toNat ∧ t.outMem = s.outMem ∧
      s.phase ∈ [phLitEmit, phMCopy]) ∨
    (t.cause = 3 ∧ t.info = t.offset ∧ (t.offset.toNat = 0 ∨ t.writePos.toNat < t.dstBase.toNat + t.offset.toNat) ∧
      t.outMem = s.outMem ∧ s.phase = phMChk) ∨
    (t.cause = 4 ∧ t.info = s.lctx.setWidth 32 ∧ s.bitPos = 31 ∧ (∃ u, Decides s.lctx.toNat s true u) ∧
      s.phase = phLCont ∧ t.outMem = s.outMem)

/-- The model's own stops (log 12, log 17): entries that 43_literal_decoder R162, 42_length_decoder R155, 44_match_copy
R174, R175, 40_context_model R121 say never happen, and bytes the platform does not back (20_memory R71). -/
def Obligations.ExcludedEntriesStopByName : Prop :=
  ∀ s : State,
    (256 ≤ s.byte.toNat → ∀ b t, Decides s.byte.toNat s b t → exec .litBit s = .fault .literalTooLong) ∧
    (385 ≤ s.byte.toNat → ∀ bs, Feeds s bs → exec .litBit s = .fault .noSuchContext) ∧
    (s.bitPos.toNat = 31 → ∀ b t, Decides (s.lctx.toNat + 1) s b t → exec .lVal s = .fault .bitPosTooLarge) ∧
    (∀ i ∈ [Instr.mCopy, Instr.copyb], s.writePos.toNat < s.dstEnd.toNat →
      (s.rem.toNat = 0 → exec i s = .fault .nothingToCopy) ∧
      (1 ≤ s.rem.toNat → s.writePos.toNat < s.offset.toNat → exec i s = .fault .outAddressBelowZero) ∧
      (1 ≤ s.rem.toNat → s.offset.toNat ≤ s.writePos.toNat →
        backedAt s.outBacking (s.writePos.toNat - s.offset.toNat) = false ∨
          backedAt s.outBacking s.writePos.toNat = false →
        exec i s = .refused .outNotBacked)) ∧
    (∀ i ∈ [Instr.litEmit, Instr.emit, Instr.lit (s.byte.setWidth 8)], s.writePos.toNat < s.dstEnd.toNat →
      backedAt s.outBacking s.writePos.toNat = false → exec i s = .refused .outNotBacked) ∧
    (∀ c : BitVec 9, 385 ≤ c.toNat →
      (∀ b, exec (.probUpd c b) s = .fault .noSuchContext) ∧
      (∀ bs, Feeds s bs → exec (.decbit c) s = .fault .noSuchContext)) ∧
    (s.state.toNat < 4096 → s.cursor.toNat < s.srcEnd.toNat → backedAt s.inBacking s.cursor.toNat = false →
      exec .renorm s = .refused .inNotBacked)

/-- 10_state R47 and the canonical form of the memories: every step of the machine, by the engine or the host, keeps the
invariant. -/
def Obligations.StepKeepsTheInvariant : Prop :=
  ∀ s t : State, Inv s → step s = .next t → Inv t

/-- 10_state R47, R50, 20_memory R67, R71: from a state that meets the invariant, which for a decode says that its
ranges are backed, the engine never stops in the model: no stop stands where the spec gives an effect. -/
def Obligations.EngineNeverStopsOnBackedInput : Prop :=
  ∀ s : State, Inv s →
    (∃ t, engineStep s = .next t) ∧ (∃ t, symbolStep s = .next t)

/-- 45_top_fsm R198: every decode ends, in DONE or in FAULT, after at most `work s + 1` steps, whatever IN holds. -/
def Obligations.EveryDecodeEnds : Prop :=
  ∀ s : State, Inv s → s.busy = true → s.script = [] →
    ∃ k t, k ≤ work s + 1 ∧ Host.Core.run core k s = .next t ∧ (t.phase = phDone ∨ t.phase = phFault)

/-- 92_eei_decisions D11, 45_top_fsm R197: one symbol of the big-step loop is a run of phase steps, to the same outcome,
every register included. -/
def Obligations.SymbolStepIsARunOfPhaseSteps : Prop :=
  ∀ s : State, s.script = [] → s.phase = phSop → ∃ k, 1 ≤ k ∧ Host.Core.run core k s = symbolStep s

/-- 45_top_fsm R197: the whole decode as one loop is a run of phase steps. -/
def Obligations.UnpackIsARunOfPhaseSteps : Prop :=
  ∀ (n : Nat) (s : State), s.script = [] → s.phase = phSop → ∃ k, Host.Core.run core k s = unpack n s

/-- 30_encoding R91, R94, 44_match_copy R177 to R181, 43_literal_decoder R164: where the stream carries the decisions of
a symbol, the symbol step takes exactly them and then has the symbol's net effect. -/
def Obligations.StreamDecisionsAreReadAsTheirSymbol : Prop :=
  ∀ (s t : State) (i : Instr) (ds : List Decision), s.phase = phSop → i.wf = true →
    symbolDecisions s.pwm i = some ds → DecidesAll ds s t →
    ∃ u, fetchSymbol s = .ok i u ∧ symbolStep s = exec i u ∧
      u = { t with
        byte := u.byte, lsel := u.lsel, acc := u.acc, bitPos := u.bitPos, lctx := u.lctx, offset := u.offset
        rem := u.rem } ∧
      (∀ v, i = .lit v → u.byte.setWidth 8 = v ∧ u.offset = s.offset ∧ u.rem = s.rem) ∧
      (∀ n, i = .matchR n → u.rem = n ∧ u.offset = s.offset) ∧
      (∀ o n, i = .matchN o n ∨ i = .matchC o n → u.offset = o ∧ u.rem = n) ∧
      (i = .endN ∨ i = .endC → u.rem = s.rem)

/-- 10_state R45, R48, R49: after START nothing of an earlier decode matters: two machines with equal SRC, SRC_END, DST,
DST_END and IN go through equal states of the decode, OUT included, step by step. Equal IN is equal written bytes: where nothing has
been written both hold the free value (log 5). -/
def Obligations.DecodeDependsOnlyOnItsInput : Prop :=
  ∀ s s' u u' : State, Inv s → Inv s' → s.busy = false → s'.busy = false →
    s.script = [] → s'.script = [] →
    s.cursor = s'.cursor → s.srcEnd = s'.srcEnd → s.writePos = s'.writePos → s.dstEnd = s'.dstEnd → s.inMem = s'.inMem →
    s.launchReady = true → s'.launchReady = true →
    exec .start s = .next u → exec .start s' = .next u' →
    ∀ k t, Host.Core.run core k u = .next t → ∃ t', Host.Core.run core k u' = .next t' ∧ SameDecode t t'

/-! ## Encodings -/

/-- Words written out from 30_encoding R102 and the examples of R164, R177 to R181 decode to what they stand for, and
reserved ones are refused. -/
def Obligations.WrittenOutEncodingsDecode : Prop :=
  decode (.phase 0x1) = .ok .sop ∧ decode (.phase 0x8) = .ok .mCopy ∧ decode (.phase 0xB) = .error .noSuchPhase ∧
  decode (.stream false [(0, false), (1, false), (2, true), (5, false), (10, false), (20, false), (40, false),
    (80, false), (160, true)]) = .ok (.lit 0x41) ∧
  decode (.stream false [(0, true), (256, true), (257, true), (258, true), (259, false), (321, false)])
    = .ok (.matchN 2 1) ∧
  decode (.stream false [(0, true), (256, false), (321, true), (322, false), (323, false)]) = .ok (.matchR 2) ∧
  decode (.stream true [(0, true), (257, true), (258, false), (259, false), (321, true), (322, true), (323, false)])
    = .ok (.matchC 1 3) ∧
  decode (.stream false [(0, true), (256, true), (257, false)]) = .ok .endN ∧
  decode (.stream true [(0, true), (257, false)]) = .ok .endC

/-- 30_encoding R93 to R98: for every well-formed instruction that has an encoding under the mode, decoding it gives the
instruction back, every field at every value; and the instructions without one are the procedures and the symbols the
mode does not admit. -/
def Obligations.DecodeInvertsEncode : Prop :=
  ∀ (pwm : Bool) (i : Instr), i.wf = true →
    (∀ e, encode pwm i = some e → decode e = .ok i) ∧
    (encode pwm i = none ↔ (phaseCode i = none ∧ i.symKind = none) ∨
      (i.symKind ∈ [some .matchN, some .matchR, some .endN] ∧ pwm = true) ∨
      (i.symKind ∈ [some .matchC, some .endC] ∧ pwm = false))

/-- What decodes is well formed and encodes back to what was read: each decision list has one meaning. -/
def Obligations.EncodeInvertsDecode : Prop :=
  (∀ (pwm : Bool) (ds : List Decision) (i : Instr), decode (.stream pwm ds) = .ok i →
    i.wf = true ∧ encode pwm i = some (.stream pwm ds)) ∧
  (∀ (pwm : Bool) (c : BitVec 4) (i : Instr), decode (.phase c) = .ok i →
    i.wf = true ∧ encode pwm i = some (.phase c))

/-- 30_encoding R101: a symbol's decisions are read as that symbol whatever follows them, so no symbol's decisions begin
another's. -/
def Obligations.SymbolsDelimitThemselves : Prop :=
  ∀ (pwm : Bool) (i : Instr) (ds : List Decision) (rest : List Bool), i.wf = true →
    symbolDecisions pwm i = some ds → parseSymbol pwm (ds.map Prod.snd ++ rest) = .ok (i, rest)

/-- 30_encoding R101: the selector of a symbol picks its row of the table, whatever follows the symbol. -/
def Obligations.SelectorPicksTheRowOfTheSymbol : Prop :=
  ∀ (pwm : Bool) (i : Instr) (ds : List Decision) (rest : List Bool), i.wf = true →
    symbolDecisions pwm i = some ds → selectRow (selector pwm (ds.map Prod.snd ++ rest)) = i.symKind

/-- 30_encoding R101: each of the sixteen selectors is claimed by exactly one row. -/
def Obligations.EverySelectorHasExactlyOneRow : Prop :=
  ∀ sel : BitVec 4, (symRows.filter (·.applies sel)).length = 1
end

