-- ==== Sys2Proof/Laws/State.lean ====
section
/-! SUPPORT. The fields of a state after each named update: one lemma per field, so that no proof unfolds an update. -/

namespace Sys2Proof.Machine

/-! ## raiseFault -/

@[simp] theorem raiseFault_state (k : FaultKind) (i : Word) (s : State) : (raiseFault k i s).state = s.state := rfl
@[simp] theorem raiseFault_cursor (k : FaultKind) (i : Word) (s : State) : (raiseFault k i s).cursor = s.cursor := rfl
@[simp] theorem raiseFault_srcEnd (k : FaultKind) (i : Word) (s : State) : (raiseFault k i s).srcEnd = s.srcEnd := rfl
@[simp] theorem raiseFault_writePos (k : FaultKind) (i : Word) (s : State) : (raiseFault k i s).writePos = s.writePos := rfl
@[simp] theorem raiseFault_dstBase (k : FaultKind) (i : Word) (s : State) : (raiseFault k i s).dstBase = s.dstBase := rfl
@[simp] theorem raiseFault_dstEnd (k : FaultKind) (i : Word) (s : State) : (raiseFault k i s).dstEnd = s.dstEnd := rfl
@[simp] theorem raiseFault_offset (k : FaultKind) (i : Word) (s : State) : (raiseFault k i s).offset = s.offset := rfl
@[simp] theorem raiseFault_rem (k : FaultKind) (i : Word) (s : State) : (raiseFault k i s).rem = s.rem := rfl
@[simp] theorem raiseFault_acc (k : FaultKind) (i : Word) (s : State) : (raiseFault k i s).acc = s.acc := rfl
@[simp] theorem raiseFault_bitPos (k : FaultKind) (i : Word) (s : State) : (raiseFault k i s).bitPos = s.bitPos := rfl
@[simp] theorem raiseFault_lctx (k : FaultKind) (i : Word) (s : State) : (raiseFault k i s).lctx = s.lctx := rfl
@[simp] theorem raiseFault_lsel (k : FaultKind) (i : Word) (s : State) : (raiseFault k i s).lsel = s.lsel := rfl
@[simp] theorem raiseFault_byte (k : FaultKind) (i : Word) (s : State) : (raiseFault k i s).byte = s.byte := rfl
@[simp] theorem raiseFault_pwm (k : FaultKind) (i : Word) (s : State) : (raiseFault k i s).pwm = s.pwm := rfl
@[simp] theorem raiseFault_phase (k : FaultKind) (i : Word) (s : State) : (raiseFault k i s).phase = phFault := rfl
@[simp] theorem raiseFault_cause (k : FaultKind) (i : Word) (s : State) : (raiseFault k i s).cause = causeCode k := rfl
@[simp] theorem raiseFault_info (k : FaultKind) (i : Word) (s : State) : (raiseFault k i s).info = i := rfl
@[simp] theorem raiseFault_probs (k : FaultKind) (i : Word) (s : State) : (raiseFault k i s).probs = s.probs := rfl
@[simp] theorem raiseFault_inMem (k : FaultKind) (i : Word) (s : State) : (raiseFault k i s).inMem = s.inMem := rfl
@[simp] theorem raiseFault_outMem (k : FaultKind) (i : Word) (s : State) : (raiseFault k i s).outMem = s.outMem := rfl
@[simp] theorem raiseFault_inBacking (k : FaultKind) (i : Word) (s : State) : (raiseFault k i s).inBacking = s.inBacking := rfl
@[simp] theorem raiseFault_outBacking (k : FaultKind) (i : Word) (s : State) : (raiseFault k i s).outBacking = s.outBacking := rfl
@[simp] theorem raiseFault_srcSet (k : FaultKind) (i : Word) (s : State) : (raiseFault k i s).srcSet = s.srcSet := rfl
@[simp] theorem raiseFault_srcEndSet (k : FaultKind) (i : Word) (s : State) : (raiseFault k i s).srcEndSet = s.srcEndSet := rfl
@[simp] theorem raiseFault_dstSet (k : FaultKind) (i : Word) (s : State) : (raiseFault k i s).dstSet = s.dstSet := rfl
@[simp] theorem raiseFault_dstEndSet (k : FaultKind) (i : Word) (s : State) : (raiseFault k i s).dstEndSet = s.dstEndSet := rfl
@[simp] theorem raiseFault_result (k : FaultKind) (i : Word) (s : State) : (raiseFault k i s).result = s.result := rfl
@[simp] theorem raiseFault_script (k : FaultKind) (i : Word) (s : State) : (raiseFault k i s).script = s.script := rfl
@[simp] theorem raiseFault_busData (k : FaultKind) (i : Word) (s : State) : (raiseFault k i s).busData = s.busData := rfl
@[simp] theorem raiseFault_freeTick (k : FaultKind) (i : Word) (s : State) : (raiseFault k i s).freeTick = s.freeTick := rfl
@[simp] theorem raiseFault_readIn (k : FaultKind) (i : Word) (s : State) (x : Nat) : (raiseFault k i s).readIn x = s.readIn x := rfl
@[simp] theorem raiseFault_readOut (k : FaultKind) (i : Word) (s : State) (x : Nat) : (raiseFault k i s).readOut x = s.readOut x := rfl

/-! ## probWrite -/

@[simp] theorem probWrite_state (c : Nat) (p : Byte) (s : State) : (probWrite c p s).state = s.state := rfl
@[simp] theorem probWrite_cursor (c : Nat) (p : Byte) (s : State) : (probWrite c p s).cursor = s.cursor := rfl
@[simp] theorem probWrite_srcEnd (c : Nat) (p : Byte) (s : State) : (probWrite c p s).srcEnd = s.srcEnd := rfl
@[simp] theorem probWrite_writePos (c : Nat) (p : Byte) (s : State) : (probWrite c p s).writePos = s.writePos := rfl
@[simp] theorem probWrite_dstBase (c : Nat) (p : Byte) (s : State) : (probWrite c p s).dstBase = s.dstBase := rfl
@[simp] theorem probWrite_dstEnd (c : Nat) (p : Byte) (s : State) : (probWrite c p s).dstEnd = s.dstEnd := rfl
@[simp] theorem probWrite_offset (c : Nat) (p : Byte) (s : State) : (probWrite c p s).offset = s.offset := rfl
@[simp] theorem probWrite_rem (c : Nat) (p : Byte) (s : State) : (probWrite c p s).rem = s.rem := rfl
@[simp] theorem probWrite_acc (c : Nat) (p : Byte) (s : State) : (probWrite c p s).acc = s.acc := rfl
@[simp] theorem probWrite_bitPos (c : Nat) (p : Byte) (s : State) : (probWrite c p s).bitPos = s.bitPos := rfl
@[simp] theorem probWrite_lctx (c : Nat) (p : Byte) (s : State) : (probWrite c p s).lctx = s.lctx := rfl
@[simp] theorem probWrite_lsel (c : Nat) (p : Byte) (s : State) : (probWrite c p s).lsel = s.lsel := rfl
@[simp] theorem probWrite_byte (c : Nat) (p : Byte) (s : State) : (probWrite c p s).byte = s.byte := rfl
@[simp] theorem probWrite_pwm (c : Nat) (p : Byte) (s : State) : (probWrite c p s).pwm = s.pwm := rfl
@[simp] theorem probWrite_phase (c : Nat) (p : Byte) (s : State) : (probWrite c p s).phase = s.phase := rfl
@[simp] theorem probWrite_cause (c : Nat) (p : Byte) (s : State) : (probWrite c p s).cause = s.cause := rfl
@[simp] theorem probWrite_info (c : Nat) (p : Byte) (s : State) : (probWrite c p s).info = s.info := rfl
@[simp] theorem probWrite_probs (c : Nat) (p : Byte) (s : State) : (probWrite c p s).probs = s.probs.setIfInBounds c p := rfl
@[simp] theorem probWrite_inMem (c : Nat) (p : Byte) (s : State) : (probWrite c p s).inMem = s.inMem := rfl
@[simp] theorem probWrite_outMem (c : Nat) (p : Byte) (s : State) : (probWrite c p s).outMem = s.outMem := rfl
@[simp] theorem probWrite_inBacking (c : Nat) (p : Byte) (s : State) : (probWrite c p s).inBacking = s.inBacking := rfl
@[simp] theorem probWrite_outBacking (c : Nat) (p : Byte) (s : State) : (probWrite c p s).outBacking = s.outBacking := rfl
@[simp] theorem probWrite_srcSet (c : Nat) (p : Byte) (s : State) : (probWrite c p s).srcSet = s.srcSet := rfl
@[simp] theorem probWrite_srcEndSet (c : Nat) (p : Byte) (s : State) : (probWrite c p s).srcEndSet = s.srcEndSet := rfl
@[simp] theorem probWrite_dstSet (c : Nat) (p : Byte) (s : State) : (probWrite c p s).dstSet = s.dstSet := rfl
@[simp] theorem probWrite_dstEndSet (c : Nat) (p : Byte) (s : State) : (probWrite c p s).dstEndSet = s.dstEndSet := rfl
@[simp] theorem probWrite_result (c : Nat) (p : Byte) (s : State) : (probWrite c p s).result = s.result := rfl
@[simp] theorem probWrite_script (c : Nat) (p : Byte) (s : State) : (probWrite c p s).script = s.script := rfl
@[simp] theorem probWrite_busData (c : Nat) (p : Byte) (s : State) : (probWrite c p s).busData = s.busData := rfl
@[simp] theorem probWrite_freeTick (c : Nat) (p : Byte) (s : State) : (probWrite c p s).freeTick = s.freeTick := rfl
@[simp] theorem probWrite_readIn (c : Nat) (p : Byte) (s : State) (x : Nat) : (probWrite c p s).readIn x = s.readIn x := rfl
@[simp] theorem probWrite_readOut (c : Nat) (p : Byte) (s : State) (x : Nat) : (probWrite c p s).readOut x = s.readOut x := rfl

/-! ## shiftIn -/

@[simp] theorem shiftIn_state (b : Byte) (s : State) : (shiftIn b s).state = (s.state <<< Config.renormShift) ||| b.setWidth 32 := rfl
@[simp] theorem shiftIn_cursor (b : Byte) (s : State) : (shiftIn b s).cursor = s.cursor + 1 := rfl
@[simp] theorem shiftIn_srcEnd (b : Byte) (s : State) : (shiftIn b s).srcEnd = s.srcEnd := rfl
@[simp] theorem shiftIn_writePos (b : Byte) (s : State) : (shiftIn b s).writePos = s.writePos := rfl
@[simp] theorem shiftIn_dstBase (b : Byte) (s : State) : (shiftIn b s).dstBase = s.dstBase := rfl
@[simp] theorem shiftIn_dstEnd (b : Byte) (s : State) : (shiftIn b s).dstEnd = s.dstEnd := rfl
@[simp] theorem shiftIn_offset (b : Byte) (s : State) : (shiftIn b s).offset = s.offset := rfl
@[simp] theorem shiftIn_rem (b : Byte) (s : State) : (shiftIn b s).rem = s.rem := rfl
@[simp] theorem shiftIn_acc (b : Byte) (s : State) : (shiftIn b s).acc = s.acc := rfl
@[simp] theorem shiftIn_bitPos (b : Byte) (s : State) : (shiftIn b s).bitPos = s.bitPos := rfl
@[simp] theorem shiftIn_lctx (b : Byte) (s : State) : (shiftIn b s).lctx = s.lctx := rfl
@[simp] theorem shiftIn_lsel (b : Byte) (s : State) : (shiftIn b s).lsel = s.lsel := rfl
@[simp] theorem shiftIn_byte (b : Byte) (s : State) : (shiftIn b s).byte = s.byte := rfl
@[simp] theorem shiftIn_pwm (b : Byte) (s : State) : (shiftIn b s).pwm = s.pwm := rfl
@[simp] theorem shiftIn_phase (b : Byte) (s : State) : (shiftIn b s).phase = s.phase := rfl
@[simp] theorem shiftIn_cause (b : Byte) (s : State) : (shiftIn b s).cause = s.cause := rfl
@[simp] theorem shiftIn_info (b : Byte) (s : State) : (shiftIn b s).info = s.info := rfl
@[simp] theorem shiftIn_probs (b : Byte) (s : State) : (shiftIn b s).probs = s.probs := rfl
@[simp] theorem shiftIn_inMem (b : Byte) (s : State) : (shiftIn b s).inMem = s.inMem := rfl
@[simp] theorem shiftIn_outMem (b : Byte) (s : State) : (shiftIn b s).outMem = s.outMem := rfl
@[simp] theorem shiftIn_inBacking (b : Byte) (s : State) : (shiftIn b s).inBacking = s.inBacking := rfl
@[simp] theorem shiftIn_outBacking (b : Byte) (s : State) : (shiftIn b s).outBacking = s.outBacking := rfl
@[simp] theorem shiftIn_srcSet (b : Byte) (s : State) : (shiftIn b s).srcSet = s.srcSet := rfl
@[simp] theorem shiftIn_srcEndSet (b : Byte) (s : State) : (shiftIn b s).srcEndSet = s.srcEndSet := rfl
@[simp] theorem shiftIn_dstSet (b : Byte) (s : State) : (shiftIn b s).dstSet = s.dstSet := rfl
@[simp] theorem shiftIn_dstEndSet (b : Byte) (s : State) : (shiftIn b s).dstEndSet = s.dstEndSet := rfl
@[simp] theorem shiftIn_result (b : Byte) (s : State) : (shiftIn b s).result = s.result := rfl
@[simp] theorem shiftIn_script (b : Byte) (s : State) : (shiftIn b s).script = s.script := rfl
@[simp] theorem shiftIn_busData (b : Byte) (s : State) : (shiftIn b s).busData = s.busData := rfl
@[simp] theorem shiftIn_freeTick (b : Byte) (s : State) : (shiftIn b s).freeTick = s.freeTick := rfl
@[simp] theorem shiftIn_readIn (b : Byte) (s : State) (x : Nat) : (shiftIn b s).readIn x = s.readIn x := rfl
@[simp] theorem shiftIn_readOut (b : Byte) (s : State) (x : Nat) : (shiftIn b s).readOut x = s.readOut x := rfl

/-! ## afterDecision -/

@[simp] theorem afterDecision_state (c : Nat) (p : Byte) (s : State) : (afterDecision c p s).state = stateUpdate (splitBit p s.state) p s.state := rfl
@[simp] theorem afterDecision_cursor (c : Nat) (p : Byte) (s : State) : (afterDecision c p s).cursor = s.cursor := rfl
@[simp] theorem afterDecision_srcEnd (c : Nat) (p : Byte) (s : State) : (afterDecision c p s).srcEnd = s.srcEnd := rfl
@[simp] theorem afterDecision_writePos (c : Nat) (p : Byte) (s : State) : (afterDecision c p s).writePos = s.writePos := rfl
@[simp] theorem afterDecision_dstBase (c : Nat) (p : Byte) (s : State) : (afterDecision c p s).dstBase = s.dstBase := rfl
@[simp] theorem afterDecision_dstEnd (c : Nat) (p : Byte) (s : State) : (afterDecision c p s).dstEnd = s.dstEnd := rfl
@[simp] theorem afterDecision_offset (c : Nat) (p : Byte) (s : State) : (afterDecision c p s).offset = s.offset := rfl
@[simp] theorem afterDecision_rem (c : Nat) (p : Byte) (s : State) : (afterDecision c p s).rem = s.rem := rfl
@[simp] theorem afterDecision_acc (c : Nat) (p : Byte) (s : State) : (afterDecision c p s).acc = s.acc := rfl
@[simp] theorem afterDecision_bitPos (c : Nat) (p : Byte) (s : State) : (afterDecision c p s).bitPos = s.bitPos := rfl
@[simp] theorem afterDecision_lctx (c : Nat) (p : Byte) (s : State) : (afterDecision c p s).lctx = s.lctx := rfl
@[simp] theorem afterDecision_lsel (c : Nat) (p : Byte) (s : State) : (afterDecision c p s).lsel = s.lsel := rfl
@[simp] theorem afterDecision_byte (c : Nat) (p : Byte) (s : State) : (afterDecision c p s).byte = s.byte := rfl
@[simp] theorem afterDecision_pwm (c : Nat) (p : Byte) (s : State) : (afterDecision c p s).pwm = s.pwm := rfl
@[simp] theorem afterDecision_phase (c : Nat) (p : Byte) (s : State) : (afterDecision c p s).phase = s.phase := rfl
@[simp] theorem afterDecision_cause (c : Nat) (p : Byte) (s : State) : (afterDecision c p s).cause = s.cause := rfl
@[simp] theorem afterDecision_info (c : Nat) (p : Byte) (s : State) : (afterDecision c p s).info = s.info := rfl
@[simp] theorem afterDecision_probs (c : Nat) (p : Byte) (s : State) : (afterDecision c p s).probs = s.probs.setIfInBounds c (probUpdate (splitBit p s.state) p) := rfl
@[simp] theorem afterDecision_inMem (c : Nat) (p : Byte) (s : State) : (afterDecision c p s).inMem = s.inMem := rfl
@[simp] theorem afterDecision_outMem (c : Nat) (p : Byte) (s : State) : (afterDecision c p s).outMem = s.outMem := rfl
@[simp] theorem afterDecision_inBacking (c : Nat) (p : Byte) (s : State) : (afterDecision c p s).inBacking = s.inBacking := rfl
@[simp] theorem afterDecision_outBacking (c : Nat) (p : Byte) (s : State) : (afterDecision c p s).outBacking = s.outBacking := rfl
@[simp] theorem afterDecision_srcSet (c : Nat) (p : Byte) (s : State) : (afterDecision c p s).srcSet = s.srcSet := rfl
@[simp] theorem afterDecision_srcEndSet (c : Nat) (p : Byte) (s : State) : (afterDecision c p s).srcEndSet = s.srcEndSet := rfl
@[simp] theorem afterDecision_dstSet (c : Nat) (p : Byte) (s : State) : (afterDecision c p s).dstSet = s.dstSet := rfl
@[simp] theorem afterDecision_dstEndSet (c : Nat) (p : Byte) (s : State) : (afterDecision c p s).dstEndSet = s.dstEndSet := rfl
@[simp] theorem afterDecision_result (c : Nat) (p : Byte) (s : State) : (afterDecision c p s).result = s.result := rfl
@[simp] theorem afterDecision_script (c : Nat) (p : Byte) (s : State) : (afterDecision c p s).script = s.script := rfl
@[simp] theorem afterDecision_busData (c : Nat) (p : Byte) (s : State) : (afterDecision c p s).busData = s.busData := rfl
@[simp] theorem afterDecision_freeTick (c : Nat) (p : Byte) (s : State) : (afterDecision c p s).freeTick = s.freeTick := rfl
@[simp] theorem afterDecision_readIn (c : Nat) (p : Byte) (s : State) (x : Nat) : (afterDecision c p s).readIn x = s.readIn x := rfl
@[simp] theorem afterDecision_readOut (c : Nat) (p : Byte) (s : State) (x : Nat) : (afterDecision c p s).readOut x = s.readOut x := rfl

/-! ## lstart -/

@[simp] theorem lstart_state (sel : Bool) (s : State) : (lstart sel s).state = s.state := rfl
@[simp] theorem lstart_cursor (sel : Bool) (s : State) : (lstart sel s).cursor = s.cursor := rfl
@[simp] theorem lstart_srcEnd (sel : Bool) (s : State) : (lstart sel s).srcEnd = s.srcEnd := rfl
@[simp] theorem lstart_writePos (sel : Bool) (s : State) : (lstart sel s).writePos = s.writePos := rfl
@[simp] theorem lstart_dstBase (sel : Bool) (s : State) : (lstart sel s).dstBase = s.dstBase := rfl
@[simp] theorem lstart_dstEnd (sel : Bool) (s : State) : (lstart sel s).dstEnd = s.dstEnd := rfl
@[simp] theorem lstart_offset (sel : Bool) (s : State) : (lstart sel s).offset = s.offset := rfl
@[simp] theorem lstart_rem (sel : Bool) (s : State) : (lstart sel s).rem = s.rem := rfl
@[simp] theorem lstart_acc (sel : Bool) (s : State) : (lstart sel s).acc = 0 := rfl
@[simp] theorem lstart_bitPos (sel : Bool) (s : State) : (lstart sel s).bitPos = 0 := rfl
@[simp] theorem lstart_lctx (sel : Bool) (s : State) : (lstart sel s).lctx = lstartContext sel := rfl
@[simp] theorem lstart_lsel (sel : Bool) (s : State) : (lstart sel s).lsel = sel := rfl
@[simp] theorem lstart_byte (sel : Bool) (s : State) : (lstart sel s).byte = s.byte := rfl
@[simp] theorem lstart_pwm (sel : Bool) (s : State) : (lstart sel s).pwm = s.pwm := rfl
@[simp] theorem lstart_phase (sel : Bool) (s : State) : (lstart sel s).phase = phLCont := rfl
@[simp] theorem lstart_cause (sel : Bool) (s : State) : (lstart sel s).cause = s.cause := rfl
@[simp] theorem lstart_info (sel : Bool) (s : State) : (lstart sel s).info = s.info := rfl
@[simp] theorem lstart_probs (sel : Bool) (s : State) : (lstart sel s).probs = s.probs := rfl
@[simp] theorem lstart_inMem (sel : Bool) (s : State) : (lstart sel s).inMem = s.inMem := rfl
@[simp] theorem lstart_outMem (sel : Bool) (s : State) : (lstart sel s).outMem = s.outMem := rfl
@[simp] theorem lstart_inBacking (sel : Bool) (s : State) : (lstart sel s).inBacking = s.inBacking := rfl
@[simp] theorem lstart_outBacking (sel : Bool) (s : State) : (lstart sel s).outBacking = s.outBacking := rfl
@[simp] theorem lstart_srcSet (sel : Bool) (s : State) : (lstart sel s).srcSet = s.srcSet := rfl
@[simp] theorem lstart_srcEndSet (sel : Bool) (s : State) : (lstart sel s).srcEndSet = s.srcEndSet := rfl
@[simp] theorem lstart_dstSet (sel : Bool) (s : State) : (lstart sel s).dstSet = s.dstSet := rfl
@[simp] theorem lstart_dstEndSet (sel : Bool) (s : State) : (lstart sel s).dstEndSet = s.dstEndSet := rfl
@[simp] theorem lstart_result (sel : Bool) (s : State) : (lstart sel s).result = s.result := rfl
@[simp] theorem lstart_script (sel : Bool) (s : State) : (lstart sel s).script = s.script := rfl
@[simp] theorem lstart_busData (sel : Bool) (s : State) : (lstart sel s).busData = s.busData := rfl
@[simp] theorem lstart_freeTick (sel : Bool) (s : State) : (lstart sel s).freeTick = s.freeTick := rfl
@[simp] theorem lstart_readIn (sel : Bool) (s : State) (x : Nat) : (lstart sel s).readIn x = s.readIn x := rfl
@[simp] theorem lstart_readOut (sel : Bool) (s : State) (x : Nat) : (lstart sel s).readOut x = s.readOut x := rfl

/-! ## deliverLength -/

@[simp] theorem deliverLength_state (v : Word) (s : State) : (deliverLength v s).state = s.state := rfl
@[simp] theorem deliverLength_cursor (v : Word) (s : State) : (deliverLength v s).cursor = s.cursor := rfl
@[simp] theorem deliverLength_srcEnd (v : Word) (s : State) : (deliverLength v s).srcEnd = s.srcEnd := rfl
@[simp] theorem deliverLength_writePos (v : Word) (s : State) : (deliverLength v s).writePos = s.writePos := rfl
@[simp] theorem deliverLength_dstBase (v : Word) (s : State) : (deliverLength v s).dstBase = s.dstBase := rfl
@[simp] theorem deliverLength_dstEnd (v : Word) (s : State) : (deliverLength v s).dstEnd = s.dstEnd := rfl
@[simp] theorem deliverLength_offset (v : Word) (s : State) : (deliverLength v s).offset = s.offset := rfl
@[simp] theorem deliverLength_rem (v : Word) (s : State) : (deliverLength v s).rem = v := rfl
@[simp] theorem deliverLength_acc (v : Word) (s : State) : (deliverLength v s).acc = s.acc := rfl
@[simp] theorem deliverLength_bitPos (v : Word) (s : State) : (deliverLength v s).bitPos = s.bitPos := rfl
@[simp] theorem deliverLength_lctx (v : Word) (s : State) : (deliverLength v s).lctx = s.lctx := rfl
@[simp] theorem deliverLength_lsel (v : Word) (s : State) : (deliverLength v s).lsel = s.lsel := rfl
@[simp] theorem deliverLength_byte (v : Word) (s : State) : (deliverLength v s).byte = s.byte := rfl
@[simp] theorem deliverLength_pwm (v : Word) (s : State) : (deliverLength v s).pwm = s.pwm := rfl
@[simp] theorem deliverLength_phase (v : Word) (s : State) : (deliverLength v s).phase = phMChk := rfl
@[simp] theorem deliverLength_cause (v : Word) (s : State) : (deliverLength v s).cause = s.cause := rfl
@[simp] theorem deliverLength_info (v : Word) (s : State) : (deliverLength v s).info = s.info := rfl
@[simp] theorem deliverLength_probs (v : Word) (s : State) : (deliverLength v s).probs = s.probs := rfl
@[simp] theorem deliverLength_inMem (v : Word) (s : State) : (deliverLength v s).inMem = s.inMem := rfl
@[simp] theorem deliverLength_outMem (v : Word) (s : State) : (deliverLength v s).outMem = s.outMem := rfl
@[simp] theorem deliverLength_inBacking (v : Word) (s : State) : (deliverLength v s).inBacking = s.inBacking := rfl
@[simp] theorem deliverLength_outBacking (v : Word) (s : State) : (deliverLength v s).outBacking = s.outBacking := rfl
@[simp] theorem deliverLength_srcSet (v : Word) (s : State) : (deliverLength v s).srcSet = s.srcSet := rfl
@[simp] theorem deliverLength_srcEndSet (v : Word) (s : State) : (deliverLength v s).srcEndSet = s.srcEndSet := rfl
@[simp] theorem deliverLength_dstSet (v : Word) (s : State) : (deliverLength v s).dstSet = s.dstSet := rfl
@[simp] theorem deliverLength_dstEndSet (v : Word) (s : State) : (deliverLength v s).dstEndSet = s.dstEndSet := rfl
@[simp] theorem deliverLength_result (v : Word) (s : State) : (deliverLength v s).result = s.result := rfl
@[simp] theorem deliverLength_script (v : Word) (s : State) : (deliverLength v s).script = s.script := rfl
@[simp] theorem deliverLength_busData (v : Word) (s : State) : (deliverLength v s).busData = s.busData := rfl
@[simp] theorem deliverLength_freeTick (v : Word) (s : State) : (deliverLength v s).freeTick = s.freeTick := rfl
@[simp] theorem deliverLength_readIn (v : Word) (s : State) (x : Nat) : (deliverLength v s).readIn x = s.readIn x := rfl
@[simp] theorem deliverLength_readOut (v : Word) (s : State) (x : Nat) : (deliverLength v s).readOut x = s.readOut x := rfl

/-! ## takeValueBit -/

@[simp] theorem takeValueBit_state (b : Bool) (s : State) : (takeValueBit b s).state = s.state := rfl
@[simp] theorem takeValueBit_cursor (b : Bool) (s : State) : (takeValueBit b s).cursor = s.cursor := rfl
@[simp] theorem takeValueBit_srcEnd (b : Bool) (s : State) : (takeValueBit b s).srcEnd = s.srcEnd := rfl
@[simp] theorem takeValueBit_writePos (b : Bool) (s : State) : (takeValueBit b s).writePos = s.writePos := rfl
@[simp] theorem takeValueBit_dstBase (b : Bool) (s : State) : (takeValueBit b s).dstBase = s.dstBase := rfl
@[simp] theorem takeValueBit_dstEnd (b : Bool) (s : State) : (takeValueBit b s).dstEnd = s.dstEnd := rfl
@[simp] theorem takeValueBit_offset (b : Bool) (s : State) : (takeValueBit b s).offset = s.offset := rfl
@[simp] theorem takeValueBit_rem (b : Bool) (s : State) : (takeValueBit b s).rem = s.rem := rfl
@[simp] theorem takeValueBit_acc (b : Bool) (s : State) : (takeValueBit b s).acc = accWithBit s b := rfl
@[simp] theorem takeValueBit_bitPos (b : Bool) (s : State) : (takeValueBit b s).bitPos = s.bitPos + 1 := rfl
@[simp] theorem takeValueBit_lctx (b : Bool) (s : State) : (takeValueBit b s).lctx = s.lctx + 2 := rfl
@[simp] theorem takeValueBit_lsel (b : Bool) (s : State) : (takeValueBit b s).lsel = s.lsel := rfl
@[simp] theorem takeValueBit_byte (b : Bool) (s : State) : (takeValueBit b s).byte = s.byte := rfl
@[simp] theorem takeValueBit_pwm (b : Bool) (s : State) : (takeValueBit b s).pwm = s.pwm := rfl
@[simp] theorem takeValueBit_phase (b : Bool) (s : State) : (takeValueBit b s).phase = s.phase := rfl
@[simp] theorem takeValueBit_cause (b : Bool) (s : State) : (takeValueBit b s).cause = s.cause := rfl
@[simp] theorem takeValueBit_info (b : Bool) (s : State) : (takeValueBit b s).info = s.info := rfl
@[simp] theorem takeValueBit_probs (b : Bool) (s : State) : (takeValueBit b s).probs = s.probs := rfl
@[simp] theorem takeValueBit_inMem (b : Bool) (s : State) : (takeValueBit b s).inMem = s.inMem := rfl
@[simp] theorem takeValueBit_outMem (b : Bool) (s : State) : (takeValueBit b s).outMem = s.outMem := rfl
@[simp] theorem takeValueBit_inBacking (b : Bool) (s : State) : (takeValueBit b s).inBacking = s.inBacking := rfl
@[simp] theorem takeValueBit_outBacking (b : Bool) (s : State) : (takeValueBit b s).outBacking = s.outBacking := rfl
@[simp] theorem takeValueBit_srcSet (b : Bool) (s : State) : (takeValueBit b s).srcSet = s.srcSet := rfl
@[simp] theorem takeValueBit_srcEndSet (b : Bool) (s : State) : (takeValueBit b s).srcEndSet = s.srcEndSet := rfl
@[simp] theorem takeValueBit_dstSet (b : Bool) (s : State) : (takeValueBit b s).dstSet = s.dstSet := rfl
@[simp] theorem takeValueBit_dstEndSet (b : Bool) (s : State) : (takeValueBit b s).dstEndSet = s.dstEndSet := rfl
@[simp] theorem takeValueBit_result (b : Bool) (s : State) : (takeValueBit b s).result = s.result := rfl
@[simp] theorem takeValueBit_script (b : Bool) (s : State) : (takeValueBit b s).script = s.script := rfl
@[simp] theorem takeValueBit_busData (b : Bool) (s : State) : (takeValueBit b s).busData = s.busData := rfl
@[simp] theorem takeValueBit_freeTick (b : Bool) (s : State) : (takeValueBit b s).freeTick = s.freeTick := rfl
@[simp] theorem takeValueBit_readIn (b : Bool) (s : State) (x : Nat) : (takeValueBit b s).readIn x = s.readIn x := rfl
@[simp] theorem takeValueBit_readOut (b : Bool) (s : State) (x : Nat) : (takeValueBit b s).readOut x = s.readOut x := rfl

/-! ## appendOut -/

@[simp] theorem appendOut_state (v : Byte) (s : State) : (appendOut v s).state = s.state := rfl
@[simp] theorem appendOut_cursor (v : Byte) (s : State) : (appendOut v s).cursor = s.cursor := rfl
@[simp] theorem appendOut_srcEnd (v : Byte) (s : State) : (appendOut v s).srcEnd = s.srcEnd := rfl
@[simp] theorem appendOut_writePos (v : Byte) (s : State) : (appendOut v s).writePos = s.writePos + 1 := rfl
@[simp] theorem appendOut_dstBase (v : Byte) (s : State) : (appendOut v s).dstBase = s.dstBase := rfl
@[simp] theorem appendOut_dstEnd (v : Byte) (s : State) : (appendOut v s).dstEnd = s.dstEnd := rfl
@[simp] theorem appendOut_offset (v : Byte) (s : State) : (appendOut v s).offset = s.offset := rfl
@[simp] theorem appendOut_rem (v : Byte) (s : State) : (appendOut v s).rem = s.rem := rfl
@[simp] theorem appendOut_acc (v : Byte) (s : State) : (appendOut v s).acc = s.acc := rfl
@[simp] theorem appendOut_bitPos (v : Byte) (s : State) : (appendOut v s).bitPos = s.bitPos := rfl
@[simp] theorem appendOut_lctx (v : Byte) (s : State) : (appendOut v s).lctx = s.lctx := rfl
@[simp] theorem appendOut_lsel (v : Byte) (s : State) : (appendOut v s).lsel = s.lsel := rfl
@[simp] theorem appendOut_byte (v : Byte) (s : State) : (appendOut v s).byte = s.byte := rfl
@[simp] theorem appendOut_pwm (v : Byte) (s : State) : (appendOut v s).pwm = s.pwm := rfl
@[simp] theorem appendOut_phase (v : Byte) (s : State) : (appendOut v s).phase = s.phase := rfl
@[simp] theorem appendOut_cause (v : Byte) (s : State) : (appendOut v s).cause = s.cause := rfl
@[simp] theorem appendOut_info (v : Byte) (s : State) : (appendOut v s).info = s.info := rfl
@[simp] theorem appendOut_probs (v : Byte) (s : State) : (appendOut v s).probs = s.probs := rfl
@[simp] theorem appendOut_inMem (v : Byte) (s : State) : (appendOut v s).inMem = s.inMem := rfl
@[simp] theorem appendOut_outMem (v : Byte) (s : State) : (appendOut v s).outMem = s.outMem.write s.writePos.toNat v := rfl
@[simp] theorem appendOut_inBacking (v : Byte) (s : State) : (appendOut v s).inBacking = s.inBacking := rfl
@[simp] theorem appendOut_outBacking (v : Byte) (s : State) : (appendOut v s).outBacking = s.outBacking := rfl
@[simp] theorem appendOut_srcSet (v : Byte) (s : State) : (appendOut v s).srcSet = s.srcSet := rfl
@[simp] theorem appendOut_srcEndSet (v : Byte) (s : State) : (appendOut v s).srcEndSet = s.srcEndSet := rfl
@[simp] theorem appendOut_dstSet (v : Byte) (s : State) : (appendOut v s).dstSet = s.dstSet := rfl
@[simp] theorem appendOut_dstEndSet (v : Byte) (s : State) : (appendOut v s).dstEndSet = s.dstEndSet := rfl
@[simp] theorem appendOut_result (v : Byte) (s : State) : (appendOut v s).result = s.result := rfl
@[simp] theorem appendOut_script (v : Byte) (s : State) : (appendOut v s).script = s.script := rfl
@[simp] theorem appendOut_busData (v : Byte) (s : State) : (appendOut v s).busData = s.busData := rfl
@[simp] theorem appendOut_freeTick (v : Byte) (s : State) : (appendOut v s).freeTick = s.freeTick := rfl
@[simp] theorem appendOut_readIn (v : Byte) (s : State) (x : Nat) : (appendOut v s).readIn x = s.readIn x := rfl

/-! ## endEffect -/

@[simp] theorem endEffect_state (s : State) : (endEffect s).state = s.state := rfl
@[simp] theorem endEffect_cursor (s : State) : (endEffect s).cursor = s.cursor := rfl
@[simp] theorem endEffect_srcEnd (s : State) : (endEffect s).srcEnd = s.srcEnd := rfl
@[simp] theorem endEffect_writePos (s : State) : (endEffect s).writePos = s.writePos := rfl
@[simp] theorem endEffect_dstBase (s : State) : (endEffect s).dstBase = s.dstBase := rfl
@[simp] theorem endEffect_dstEnd (s : State) : (endEffect s).dstEnd = s.dstEnd := rfl
@[simp] theorem endEffect_offset (s : State) : (endEffect s).offset = 0 := rfl
@[simp] theorem endEffect_rem (s : State) : (endEffect s).rem = s.rem := rfl
@[simp] theorem endEffect_acc (s : State) : (endEffect s).acc = s.acc := rfl
@[simp] theorem endEffect_bitPos (s : State) : (endEffect s).bitPos = s.bitPos := rfl
@[simp] theorem endEffect_lctx (s : State) : (endEffect s).lctx = s.lctx := rfl
@[simp] theorem endEffect_lsel (s : State) : (endEffect s).lsel = s.lsel := rfl
@[simp] theorem endEffect_byte (s : State) : (endEffect s).byte = s.byte := rfl
@[simp] theorem endEffect_pwm (s : State) : (endEffect s).pwm = s.pwm := rfl
@[simp] theorem endEffect_phase (s : State) : (endEffect s).phase = phDone := rfl
@[simp] theorem endEffect_cause (s : State) : (endEffect s).cause = s.cause := rfl
@[simp] theorem endEffect_info (s : State) : (endEffect s).info = s.info := rfl
@[simp] theorem endEffect_probs (s : State) : (endEffect s).probs = s.probs := rfl
@[simp] theorem endEffect_inMem (s : State) : (endEffect s).inMem = s.inMem := rfl
@[simp] theorem endEffect_outMem (s : State) : (endEffect s).outMem = s.outMem := rfl
@[simp] theorem endEffect_inBacking (s : State) : (endEffect s).inBacking = s.inBacking := rfl
@[simp] theorem endEffect_outBacking (s : State) : (endEffect s).outBacking = s.outBacking := rfl
@[simp] theorem endEffect_srcSet (s : State) : (endEffect s).srcSet = s.srcSet := rfl
@[simp] theorem endEffect_srcEndSet (s : State) : (endEffect s).srcEndSet = s.srcEndSet := rfl
@[simp] theorem endEffect_dstSet (s : State) : (endEffect s).dstSet = s.dstSet := rfl
@[simp] theorem endEffect_dstEndSet (s : State) : (endEffect s).dstEndSet = s.dstEndSet := rfl
@[simp] theorem endEffect_result (s : State) : (endEffect s).result = s.result := rfl
@[simp] theorem endEffect_script (s : State) : (endEffect s).script = s.script := rfl
@[simp] theorem endEffect_busData (s : State) : (endEffect s).busData = s.busData := rfl
@[simp] theorem endEffect_freeTick (s : State) : (endEffect s).freeTick = s.freeTick := rfl
@[simp] theorem endEffect_readIn (s : State) (x : Nat) : (endEffect s).readIn x = s.readIn x := rfl
@[simp] theorem endEffect_readOut (s : State) (x : Nat) : (endEffect s).readOut x = s.readOut x := rfl

/-! ## startDecode -/

@[simp] theorem startDecode_state (s : State) : (startDecode s).state = 0 := rfl
@[simp] theorem startDecode_cursor (s : State) : (startDecode s).cursor = s.cursor := rfl
@[simp] theorem startDecode_srcEnd (s : State) : (startDecode s).srcEnd = s.srcEnd := rfl
@[simp] theorem startDecode_writePos (s : State) : (startDecode s).writePos = s.writePos := rfl
@[simp] theorem startDecode_dstBase (s : State) : (startDecode s).dstBase = s.writePos := rfl
@[simp] theorem startDecode_dstEnd (s : State) : (startDecode s).dstEnd = s.dstEnd := rfl
@[simp] theorem startDecode_offset (s : State) : (startDecode s).offset = 0 := rfl
@[simp] theorem startDecode_rem (s : State) : (startDecode s).rem = s.rem := rfl
@[simp] theorem startDecode_acc (s : State) : (startDecode s).acc = s.acc := rfl
@[simp] theorem startDecode_bitPos (s : State) : (startDecode s).bitPos = s.bitPos := rfl
@[simp] theorem startDecode_lctx (s : State) : (startDecode s).lctx = s.lctx := rfl
@[simp] theorem startDecode_lsel (s : State) : (startDecode s).lsel = s.lsel := rfl
@[simp] theorem startDecode_byte (s : State) : (startDecode s).byte = s.byte := rfl
@[simp] theorem startDecode_pwm (s : State) : (startDecode s).pwm = false := rfl
@[simp] theorem startDecode_phase (s : State) : (startDecode s).phase = phSop := rfl
@[simp] theorem startDecode_cause (s : State) : (startDecode s).cause = 0 := rfl
@[simp] theorem startDecode_info (s : State) : (startDecode s).info = 0 := rfl
@[simp] theorem startDecode_probs (s : State) : (startDecode s).probs = Vector.replicate Config.nCtx Config.probInit := rfl
@[simp] theorem startDecode_inMem (s : State) : (startDecode s).inMem = s.inMem := rfl
@[simp] theorem startDecode_outMem (s : State) : (startDecode s).outMem = s.outMem := rfl
@[simp] theorem startDecode_inBacking (s : State) : (startDecode s).inBacking = s.inBacking := rfl
@[simp] theorem startDecode_outBacking (s : State) : (startDecode s).outBacking = s.outBacking := rfl
@[simp] theorem startDecode_srcSet (s : State) : (startDecode s).srcSet = s.srcSet := rfl
@[simp] theorem startDecode_srcEndSet (s : State) : (startDecode s).srcEndSet = s.srcEndSet := rfl
@[simp] theorem startDecode_dstSet (s : State) : (startDecode s).dstSet = s.dstSet := rfl
@[simp] theorem startDecode_dstEndSet (s : State) : (startDecode s).dstEndSet = s.dstEndSet := rfl
@[simp] theorem startDecode_result (s : State) : (startDecode s).result = s.result := rfl
@[simp] theorem startDecode_script (s : State) : (startDecode s).script = s.script := rfl
@[simp] theorem startDecode_busData (s : State) : (startDecode s).busData = s.busData := rfl
@[simp] theorem startDecode_freeTick (s : State) : (startDecode s).freeTick = s.freeTick := rfl
@[simp] theorem startDecode_readIn (s : State) (x : Nat) : (startDecode s).readIn x = s.readIn x := rfl
@[simp] theorem startDecode_readOut (s : State) (x : Nat) : (startDecode s).readOut x = s.readOut x := rfl

/-! ## fed -/

@[simp] theorem fed_state (s : State) (bs : List Byte) : (fed s bs).state = BitVec.ofNat 32 (accumulate s.state.toNat bs) := rfl
@[simp] theorem fed_cursor (s : State) (bs : List Byte) : (fed s bs).cursor = s.cursor + BitVec.ofNat 32 bs.length := rfl
@[simp] theorem fed_srcEnd (s : State) (bs : List Byte) : (fed s bs).srcEnd = s.srcEnd := rfl
@[simp] theorem fed_writePos (s : State) (bs : List Byte) : (fed s bs).writePos = s.writePos := rfl
@[simp] theorem fed_dstBase (s : State) (bs : List Byte) : (fed s bs).dstBase = s.dstBase := rfl
@[simp] theorem fed_dstEnd (s : State) (bs : List Byte) : (fed s bs).dstEnd = s.dstEnd := rfl
@[simp] theorem fed_offset (s : State) (bs : List Byte) : (fed s bs).offset = s.offset := rfl
@[simp] theorem fed_rem (s : State) (bs : List Byte) : (fed s bs).rem = s.rem := rfl
@[simp] theorem fed_acc (s : State) (bs : List Byte) : (fed s bs).acc = s.acc := rfl
@[simp] theorem fed_bitPos (s : State) (bs : List Byte) : (fed s bs).bitPos = s.bitPos := rfl
@[simp] theorem fed_lctx (s : State) (bs : List Byte) : (fed s bs).lctx = s.lctx := rfl
@[simp] theorem fed_lsel (s : State) (bs : List Byte) : (fed s bs).lsel = s.lsel := rfl
@[simp] theorem fed_byte (s : State) (bs : List Byte) : (fed s bs).byte = s.byte := rfl
@[simp] theorem fed_pwm (s : State) (bs : List Byte) : (fed s bs).pwm = s.pwm := rfl
@[simp] theorem fed_phase (s : State) (bs : List Byte) : (fed s bs).phase = s.phase := rfl
@[simp] theorem fed_cause (s : State) (bs : List Byte) : (fed s bs).cause = s.cause := rfl
@[simp] theorem fed_info (s : State) (bs : List Byte) : (fed s bs).info = s.info := rfl
@[simp] theorem fed_probs (s : State) (bs : List Byte) : (fed s bs).probs = s.probs := rfl
@[simp] theorem fed_inMem (s : State) (bs : List Byte) : (fed s bs).inMem = s.inMem := rfl
@[simp] theorem fed_outMem (s : State) (bs : List Byte) : (fed s bs).outMem = s.outMem := rfl
@[simp] theorem fed_inBacking (s : State) (bs : List Byte) : (fed s bs).inBacking = s.inBacking := rfl
@[simp] theorem fed_outBacking (s : State) (bs : List Byte) : (fed s bs).outBacking = s.outBacking := rfl
@[simp] theorem fed_srcSet (s : State) (bs : List Byte) : (fed s bs).srcSet = s.srcSet := rfl
@[simp] theorem fed_srcEndSet (s : State) (bs : List Byte) : (fed s bs).srcEndSet = s.srcEndSet := rfl
@[simp] theorem fed_dstSet (s : State) (bs : List Byte) : (fed s bs).dstSet = s.dstSet := rfl
@[simp] theorem fed_dstEndSet (s : State) (bs : List Byte) : (fed s bs).dstEndSet = s.dstEndSet := rfl
@[simp] theorem fed_result (s : State) (bs : List Byte) : (fed s bs).result = s.result := rfl
@[simp] theorem fed_script (s : State) (bs : List Byte) : (fed s bs).script = s.script := rfl
@[simp] theorem fed_busData (s : State) (bs : List Byte) : (fed s bs).busData = s.busData := rfl
@[simp] theorem fed_freeTick (s : State) (bs : List Byte) : (fed s bs).freeTick = s.freeTick := rfl
@[simp] theorem fed_readIn (s : State) (bs : List Byte) (x : Nat) : (fed s bs).readIn x = s.readIn x := rfl
@[simp] theorem fed_readOut (s : State) (bs : List Byte) (x : Nat) : (fed s bs).readOut x = s.readOut x := rfl

/-! ## decided -/

@[simp] theorem decided_state (c : Nat) (p : Byte) (b : Bool) (bs : List Byte) (s : State) : (decided c p b bs s).state = BitVec.ofNat 32 (nextCoderState b p.toNat (accumulate s.state.toNat bs)) := rfl
@[simp] theorem decided_cursor (c : Nat) (p : Byte) (b : Bool) (bs : List Byte) (s : State) : (decided c p b bs s).cursor = s.cursor + BitVec.ofNat 32 bs.length := rfl
@[simp] theorem decided_srcEnd (c : Nat) (p : Byte) (b : Bool) (bs : List Byte) (s : State) : (decided c p b bs s).srcEnd = s.srcEnd := rfl
@[simp] theorem decided_writePos (c : Nat) (p : Byte) (b : Bool) (bs : List Byte) (s : State) : (decided c p b bs s).writePos = s.writePos := rfl
@[simp] theorem decided_dstBase (c : Nat) (p : Byte) (b : Bool) (bs : List Byte) (s : State) : (decided c p b bs s).dstBase = s.dstBase := rfl
@[simp] theorem decided_dstEnd (c : Nat) (p : Byte) (b : Bool) (bs : List Byte) (s : State) : (decided c p b bs s).dstEnd = s.dstEnd := rfl
@[simp] theorem decided_offset (c : Nat) (p : Byte) (b : Bool) (bs : List Byte) (s : State) : (decided c p b bs s).offset = s.offset := rfl
@[simp] theorem decided_rem (c : Nat) (p : Byte) (b : Bool) (bs : List Byte) (s : State) : (decided c p b bs s).rem = s.rem := rfl
@[simp] theorem decided_acc (c : Nat) (p : Byte) (b : Bool) (bs : List Byte) (s : State) : (decided c p b bs s).acc = s.acc := rfl
@[simp] theorem decided_bitPos (c : Nat) (p : Byte) (b : Bool) (bs : List Byte) (s : State) : (decided c p b bs s).bitPos = s.bitPos := rfl
@[simp] theorem decided_lctx (c : Nat) (p : Byte) (b : Bool) (bs : List Byte) (s : State) : (decided c p b bs s).lctx = s.lctx := rfl
@[simp] theorem decided_lsel (c : Nat) (p : Byte) (b : Bool) (bs : List Byte) (s : State) : (decided c p b bs s).lsel = s.lsel := rfl
@[simp] theorem decided_byte (c : Nat) (p : Byte) (b : Bool) (bs : List Byte) (s : State) : (decided c p b bs s).byte = s.byte := rfl
@[simp] theorem decided_pwm (c : Nat) (p : Byte) (b : Bool) (bs : List Byte) (s : State) : (decided c p b bs s).pwm = s.pwm := rfl
@[simp] theorem decided_phase (c : Nat) (p : Byte) (b : Bool) (bs : List Byte) (s : State) : (decided c p b bs s).phase = s.phase := rfl
@[simp] theorem decided_cause (c : Nat) (p : Byte) (b : Bool) (bs : List Byte) (s : State) : (decided c p b bs s).cause = s.cause := rfl
@[simp] theorem decided_info (c : Nat) (p : Byte) (b : Bool) (bs : List Byte) (s : State) : (decided c p b bs s).info = s.info := rfl
@[simp] theorem decided_probs (c : Nat) (p : Byte) (b : Bool) (bs : List Byte) (s : State) : (decided c p b bs s).probs = s.probs.setIfInBounds c (BitVec.ofNat 8 (nextProbability b p.toNat)) := rfl
@[simp] theorem decided_inMem (c : Nat) (p : Byte) (b : Bool) (bs : List Byte) (s : State) : (decided c p b bs s).inMem = s.inMem := rfl
@[simp] theorem decided_outMem (c : Nat) (p : Byte) (b : Bool) (bs : List Byte) (s : State) : (decided c p b bs s).outMem = s.outMem := rfl
@[simp] theorem decided_inBacking (c : Nat) (p : Byte) (b : Bool) (bs : List Byte) (s : State) : (decided c p b bs s).inBacking = s.inBacking := rfl
@[simp] theorem decided_outBacking (c : Nat) (p : Byte) (b : Bool) (bs : List Byte) (s : State) : (decided c p b bs s).outBacking = s.outBacking := rfl
@[simp] theorem decided_srcSet (c : Nat) (p : Byte) (b : Bool) (bs : List Byte) (s : State) : (decided c p b bs s).srcSet = s.srcSet := rfl
@[simp] theorem decided_srcEndSet (c : Nat) (p : Byte) (b : Bool) (bs : List Byte) (s : State) : (decided c p b bs s).srcEndSet = s.srcEndSet := rfl
@[simp] theorem decided_dstSet (c : Nat) (p : Byte) (b : Bool) (bs : List Byte) (s : State) : (decided c p b bs s).dstSet = s.dstSet := rfl
@[simp] theorem decided_dstEndSet (c : Nat) (p : Byte) (b : Bool) (bs : List Byte) (s : State) : (decided c p b bs s).dstEndSet = s.dstEndSet := rfl
@[simp] theorem decided_result (c : Nat) (p : Byte) (b : Bool) (bs : List Byte) (s : State) : (decided c p b bs s).result = s.result := rfl
@[simp] theorem decided_script (c : Nat) (p : Byte) (b : Bool) (bs : List Byte) (s : State) : (decided c p b bs s).script = s.script := rfl
@[simp] theorem decided_busData (c : Nat) (p : Byte) (b : Bool) (bs : List Byte) (s : State) : (decided c p b bs s).busData = s.busData := rfl
@[simp] theorem decided_freeTick (c : Nat) (p : Byte) (b : Bool) (bs : List Byte) (s : State) : (decided c p b bs s).freeTick = s.freeTick := rfl
@[simp] theorem decided_readIn (c : Nat) (p : Byte) (b : Bool) (bs : List Byte) (s : State) (x : Nat) : (decided c p b bs s).readIn x = s.readIn x := rfl
@[simp] theorem decided_readOut (c : Nat) (p : Byte) (b : Bool) (bs : List Byte) (s : State) (x : Nat) : (decided c p b bs s).readOut x = s.readOut x := rfl

end Sys2Proof.Machine
end

