-- ==== Sys2Proof/Laws/Memory.lean ====
section
/-! SUPPORT. Reading after writing, the canonical form every memory operation keeps, and what backing says. -/

namespace Sys2Proof.Machine

/-- A read after a write gives the value written at its address, and the old value everywhere else. -/
theorem read_write (m : Memory) (a b : Nat) (v : Byte) :
    (m.write a v).read b = if b = a then some v else m.read b := by
  induction m with
  | nil => simp [Memory.write, Memory.read]
  | cons c rest ih =>
    obtain ⟨d, w⟩ := c
    simp only [Memory.write]
    split
    · simp [Memory.read]
    · split
      · subst_vars
        simp only [Memory.read]
        split <;> simp_all
      · simp only [Memory.read, ih]
        split <;> split <;> simp_all

@[simp] theorem read_write_same (m : Memory) (a : Nat) (v : Byte) : (m.write a v).read a = some v := by
  simp [read_write]

theorem read_write_other (m : Memory) {a b : Nat} (v : Byte) (h : b ≠ a) : (m.write a v).read b = m.read b := by
  simp [read_write, h]

theorem mem_write (m : Memory) (a : Nat) (v : Byte) (c : Host.Cell) (h : c ∈ m.write a v) : c.1 = a ∨ c ∈ m := by
  induction m with
  | nil => simp_all [Memory.write]
  | cons d rest ih =>
    obtain ⟨e, w⟩ := d
    simp only [Memory.write] at h
    split at h
    · simp_all; rcases h with rfl | h <;> simp_all
    · split at h
      · simp_all; rcases h with rfl | h <;> simp_all
      · simp only [List.mem_cons] at h ⊢
        rcases h with h | h
        · exact .inr (.inl h)
        · rcases ih h with h | h
          · exact .inl h
          · exact .inr (.inr h)

/-- A write of a 32-bit address keeps the canonical form. -/
theorem write_wf (m : Memory) (a : Nat) (v : Byte) (ha : a < 2 ^ 32) (h : m.wf) : (m.write a v).wf := by
  induction m with
  | nil => simpa [Memory.write, Memory.wf] using ha
  | cons c rest ih =>
    obtain ⟨d, w⟩ := c
    simp only [Memory.wf, Bool.and_eq_true, decide_eq_true_eq, List.all_eq_true] at h
    obtain ⟨⟨hd, hall⟩, hrest⟩ := h
    simp only [Memory.write]
    split
    · simp only [Memory.wf, Bool.and_eq_true, decide_eq_true_eq, List.all_eq_true, List.mem_cons]
      refine ⟨⟨ha, ?_⟩, ⟨hd, hall⟩, hrest⟩
      rintro x (rfl | hx)
      · assumption
      · have := hall x hx; omega
    · split
      · simp only [Memory.wf, Bool.and_eq_true, decide_eq_true_eq, List.all_eq_true]
        subst_vars
        exact ⟨⟨ha, hall⟩, hrest⟩
      · simp only [Memory.wf, Bool.and_eq_true, decide_eq_true_eq, List.all_eq_true]
        refine ⟨⟨hd, ?_⟩, ih hrest⟩
        intro x hx
        rcases mem_write rest a v x hx with h | h
        · omega
        · exact hall x h

/-- No address below the first one of a canonical memory holds a byte. -/
theorem read_below (m : Memory) (a : Nat) (h : m.all fun c => a < c.1) : m.read a = none := by
  induction m with
  | nil => rfl
  | cons c rest ih =>
    obtain ⟨d, w⟩ := c
    simp only [List.all_cons, Bool.and_eq_true, decide_eq_true_eq] at h
    simp only [Memory.read]
    rw [if_neg (by omega)]
    exact ih h.2

/-- Canonical memories that read alike everywhere are equal: the form is canonical. -/
theorem wf_ext (m n : Memory) (hm : m.wf) (hn : n.wf) (h : ∀ a, m.read a = n.read a) : m = n := by
  induction m generalizing n with
  | nil =>
    cases n with
    | nil => rfl
    | cons c rest => have := h c.1; obtain ⟨d, w⟩ := c; simp [Memory.read] at this
  | cons c rest ih =>
    obtain ⟨d, w⟩ := c
    cases n with
    | nil => have := h d; simp [Memory.read] at this
    | cons e rest' =>
      obtain ⟨f, x⟩ := e
      simp only [Memory.wf, Bool.and_eq_true, decide_eq_true_eq] at hm hn
      have bm := read_below rest d hm.1.2
      have bn := read_below rest' f hn.1.2
      have lt_of : ∀ (l : Memory) (p q : Nat), p < q → (l.all fun c => q < c.1) → l.read p = none := by
        intro l p q hpq hl
        refine read_below l p ?_
        simp only [List.all_eq_true, decide_eq_true_eq] at hl ⊢
        intro y hy; have := hl y hy; omega
      have hdf : d = f := by
        rcases Nat.lt_trichotomy d f with hlt | heq | hgt
        · have := h d
          simp only [Memory.read, if_true] at this
          rw [if_neg (by omega), lt_of rest' d f hlt hn.1.2] at this
          simp at this
        · exact heq
        · have := h f
          simp only [Memory.read, if_true] at this
          rw [if_neg (by omega), lt_of rest f d hgt hm.1.2] at this
          simp at this
      subst hdf
      have hw : w = x := by have := h d; simpa [Memory.read] using this
      subst hw
      congr 1
      refine ih rest' hm.2 hn.2 fun a => ?_
      by_cases ha : a = d
      · subst ha; rw [bm, bn]
      · have := h a; simpa [Memory.read, ha] using this

/-! ## Backing and the values of unwritten bytes -/

theorem backedAt_iff {rs : List Region} {a : Nat} : backedAt rs a = true ↔ ∃ r ∈ rs, r.lo ≤ a ∧ a < r.hi := by
  simp [backedAt]

/-- The check of a range looks at its first address and the ends of regions, and so at every address of it: of the
addresses no region backs, the lowest one from `lo` on is one of these. -/
theorem rangeBacked_iff {rs : List Region} {lo hi : Nat} :
    rangeBacked rs lo hi = true ↔ ∀ a, lo ≤ a → a < hi → backedAt rs a = true := by
  have hchk : rangeBacked rs lo hi = true ↔
      ∀ c ∈ lo :: rs.map (·.hi), lo ≤ c → c < hi → backedAt rs c = true := by
    simp only [rangeBacked, List.all_eq_true, Bool.or_eq_true, decide_eq_true_eq]
    refine forall₂_congr fun c _ => ⟨fun h h1 h2 => ?_, fun h => ?_⟩
    · rcases h with (h | h) | h
      · omega
      · omega
      · exact h
    · by_cases h1 : lo ≤ c
      · by_cases h2 : c < hi
        · exact .inr (h h1 h2)
        · exact .inl (.inr (by omega))
      · exact .inl (.inl (by omega))
  rw [hchk]
  refine ⟨fun h a => ?_, fun h c _ => h c⟩
  induction a with
  | zero => intro h1 h2; exact h 0 (by simp; omega) h1 h2
  | succ a ih =>
    intro h1 h2
    by_cases hlo : lo = a + 1
    · subst hlo; exact h _ (by simp) h1 h2
    obtain ⟨r, hr, hr1, hr2⟩ := backedAt_iff.mp (ih (by omega) (by omega))
    by_cases hend : a + 1 < r.hi
    · exact backedAt_iff.mpr ⟨r, hr, by omega, hend⟩
    · have : r.hi = a + 1 := by omega
      exact h _ (List.mem_cons_of_mem _ (List.mem_map.mpr ⟨r, hr, this⟩)) h1 h2

/-- A backed byte of IN has a value, written or free; one that is not backed has none. -/
theorem readIn_isSome {s : State} {a : Nat} : (s.readIn a).isSome = backedAt s.inBacking a := by
  unfold State.readIn; split <;> simp_all

theorem readIn_eq_none {s : State} {a : Nat} : s.readIn a = none ↔ backedAt s.inBacking a = false := by
  unfold State.readIn; split <;> simp_all

theorem readOut_isSome {s : State} {a : Nat} : (s.readOut a).isSome = backedAt s.outBacking a := by
  unfold State.readOut; split <;> simp_all

theorem readOut_eq_none {s : State} {a : Nat} : s.readOut a = none ↔ backedAt s.outBacking a = false := by
  unfold State.readOut; split <;> simp_all

/-- What is read depends on the written bytes and the backing only. -/
theorem readIn_congr {s t : State} {a : Nat} (hm : s.inMem = t.inMem) (hb : s.inBacking = t.inBacking) :
    s.readIn a = t.readIn a := by simp only [State.readIn, hm, hb]

theorem readOut_congr {s t : State} {a : Nat} (hm : s.outMem.read a = t.outMem.read a)
    (hb : s.outBacking = t.outBacking) : s.readOut a = t.readOut a := by simp only [State.readOut, hm, hb]

/-- A written byte is read as it was written, where it is backed. -/
theorem readOut_of_read {s : State} {a : Nat} {v : Byte} (hb : backedAt s.outBacking a = true)
    (hm : s.outMem.read a = some v) : s.readOut a = some v := by simp [State.readOut, hb, hm]

/-- The reset machine's memories have the canonical form. -/
theorem reset_memories_wf : State.reset.inMem.wf ∧ State.reset.outMem.wf := by decide

end Sys2Proof.Machine
end

