-- ==== Sys2Proof/Laws/Coder.lean ====
section
/-! SUPPORT. What RENORM and DECBIT can do, said once: they consume exactly the bytes `Feeds` names, or run out of input
after those `Starves` names; a decision is `Decides`. -/

namespace Sys2Proof.Machine

/-! ## Results -/

@[simp] theorem bind_ok {α β : Type} (a : α) (s : State) (f : α → State → Res β) : (Res.ok a s).bind f = f a s := rfl
@[simp] theorem bind_raised {α β : Type} (s : State) (f : α → State → Res β) : (Res.raised s).bind f = .raised s := rfl
@[simp] theorem bind_fault {α β : Type} (e : Fault) (f : α → State → Res β) : (Res.fault e).bind f = .fault e := rfl
@[simp] theorem bind_refused {α β : Type} (e : Refusal) (f : α → State → Res β) :
    (Res.refused e).bind f = .refused e := rfl
@[simp] theorem toOutcome_ok {α : Type} (a : α) (s : State) : (Res.ok a s).toOutcome = .next s := rfl
@[simp] theorem toOutcome_raised {α : Type} (s : State) : (Res.raised s : Res α).toOutcome = .next s := rfl
@[simp] theorem toOutcome_fault {α : Type} (e : Fault) : (Res.fault e : Res α).toOutcome = .fault e := rfl
@[simp] theorem toOutcome_refused {α : Type} (e : Refusal) : (Res.refused e : Res α).toOutcome = .refused e := rfl
@[simp] theorem returning_ok {α : Type} (f : α → ProcResult) (a : α) (s : State) :
    (Res.ok a s).returning f = .next { s with result := f a } := rfl
@[simp] theorem returning_raised {α : Type} (f : α → ProcResult) (s : State) :
    (Res.raised s : Res α).returning f = .next s := rfl
@[simp] theorem returning_fault {α : Type} (f : α → ProcResult) (e : Fault) :
    (Res.fault e : Res α).returning f = .fault e := rfl
@[simp] theorem returning_refused {α : Type} (f : α → ProcResult) (e : Refusal) :
    (Res.refused e : Res α).returning f = .refused e := rfl

theorem bind_eq_ok {α β : Type} {x : Res α} {f : α → State → Res β} {b : β} {t : State} :
    x.bind f = .ok b t ↔ ∃ a s, x = .ok a s ∧ f a s = .ok b t := by
  cases x <;> simp

theorem bind_eq_raised {α β : Type} {x : Res α} {f : α → State → Res β} {t : State} :
    x.bind f = .raised t ↔ x = .raised t ∨ ∃ a s, x = .ok a s ∧ f a s = .raised t := by
  cases x <;> simp

theorem bind_eq_fault {α β : Type} {x : Res α} {f : α → State → Res β} {e : Fault} :
    x.bind f = .fault e ↔ x = .fault e ∨ ∃ a s, x = .ok a s ∧ f a s = .fault e := by
  cases x <;> simp

theorem bind_eq_refused {α β : Type} {x : Res α} {f : α → State → Res β} {e : Refusal} :
    x.bind f = .refused e ↔ x = .refused e ∨ ∃ a s, x = .ok a s ∧ f a s = .refused e := by
  cases x <;> simp

theorem toOutcome_eq_next {α : Type} {x : Res α} {t : State} :
    x.toOutcome = .next t ↔ (∃ a, x = .ok a t) ∨ x = .raised t := by
  cases x <;> simp

theorem toOutcome_eq_fault {α : Type} {x : Res α} {e : Fault} : x.toOutcome = .fault e ↔ x = .fault e := by
  cases x <;> simp

theorem toOutcome_eq_refused {α : Type} {x : Res α} {e : Refusal} : x.toOutcome = .refused e ↔ x = .refused e := by
  cases x <;> simp

theorem returning_eq_next {α : Type} {f : α → ProcResult} {x : Res α} {t : State} :
    x.returning f = .next t ↔ (∃ a s, x = .ok a s ∧ t = { s with result := f a }) ∨ x = .raised t := by
  cases x <;> simp [eq_comm]

/-! ## RENORM -/

@[simp] theorem accumulate_nil (x : Nat) : accumulate x [] = x := rfl
@[simp] theorem accumulate_cons (x : Nat) (b : Byte) (bs : List Byte) :
    accumulate x (b :: bs) = accumulate (256 * x + b.toNat) bs := rfl

/-- One byte shifted in: `256 * state + b`, where `state` is below 4096 (41_entropy_decoder R130). -/
theorem shiftIn_toNat (b : Byte) (s : State) (h : s.state.toNat < 4096) :
    (shiftIn b s).state.toNat = 256 * s.state.toNat + b.toNat := by
  have hb := b.isLt
  simp only [shiftIn_state, BitVec.toNat_or, BitVec.toNat_shiftLeft, BitVec.toNat_setWidth, Config.renormShift]
  rw [Nat.mod_eq_of_lt (a := s.state.toNat <<< 8) (by rw [Nat.shiftLeft_eq]; omega),
    Nat.mod_eq_of_lt (a := b.toNat) (by omega), ← Nat.shiftLeft_add_eq_or_of_lt (by simpa using hb), Nat.shiftLeft_eq]
  omega

@[simp] theorem fed_empty (s : State) : fed s [] = s := by simp [fed]

theorem fed_shiftIn (b : Byte) (bs : List Byte) (s : State) (h : s.state.toNat < 4096) :
    fed (shiftIn b s) bs = fed s (b :: bs) := by
  simp only [fed, shiftIn_toNat b s h, accumulate_cons, List.length_cons]
  congr 1
  simp only [shiftIn_cursor]
  rw [BitVec.add_assoc]
  congr 1
  apply BitVec.eq_of_toNat_eq
  simp [BitVec.toNat_add]
  omega

/-- The value a fed state holds fits the register: below 2^20 where a byte was consumed. -/
theorem Feeds.lt_of_ne_nil {s : State} {bs : List Byte} (h : Feeds s bs) (hne : bs ≠ []) :
    accumulate s.state.toNat bs < 2 ^ 20 := by
  have hlen : 0 < bs.length := List.length_pos_iff.mpr hne
  have hsmall := h.tooSmall (bs.length - 1) (by omega)
  have hsplit : bs = bs.take (bs.length - 1) ++ [bs.getLast hne] := by
    rw [← List.dropLast_eq_take]; exact (List.dropLast_append_getLast hne).symm
  have hb := (bs.getLast hne).isLt
  have happ : accumulate s.state.toNat bs
      = 256 * accumulate s.state.toNat (bs.take (bs.length - 1)) + (bs.getLast hne).toNat := by
    conv_lhs => rw [hsplit]
    unfold accumulate
    rw [List.foldl_append]
    rfl
  omega

theorem Feeds.lt {s : State} {bs : List Byte} (h : Feeds s bs) : accumulate s.state.toNat bs < 2 ^ 32 := by
  by_cases hne : bs = []
  · subst hne; exact s.state.isLt
  · have := h.lt_of_ne_nil hne; omega

theorem Feeds.fed_toNat {s : State} {bs : List Byte} (h : Feeds s bs) :
    (fed s bs).state.toNat = accumulate s.state.toNat bs := by
  rw [fed_state, BitVec.toNat_ofNat, Nat.mod_eq_of_lt h.lt]

theorem cursor_succ_toNat (s : State) (h : s.cursor.toNat < s.srcEnd.toNat) :
    (s.cursor + 1).toNat = s.cursor.toNat + 1 := by
  have := s.srcEnd.isLt
  rw [BitVec.toNat_add]
  simp
  omega

theorem feeds_nil_iff {s : State} : Feeds s [] ↔ 4096 ≤ s.state.toNat := by
  constructor
  · intro h; exact h.enough
  · intro h
    exact ⟨by intro k hk; simp at hk, .inl rfl, by intro k hk; simp at hk, h⟩

/-- The bytes after the first one feed the state with the first one shifted in, and the other way round. -/
theorem feeds_cons_iff {s : State} {b : Byte} {bs : List Byte} :
    Feeds s (b :: bs) ↔ s.state.toNat < 4096 ∧ s.cursor.toNat < s.srcEnd.toNat ∧
      s.readIn s.cursor.toNat = some b ∧ Feeds (shiftIn b s) bs := by
  constructor
  · intro h
    have h0 : s.state.toNat < 4096 := by simpa using h.tooSmall 0 (by simp)
    have hw : s.cursor.toNat + (bs.length + 1) ≤ s.srcEnd.toNat := by simpa using h.within
    have hc : s.cursor.toNat < s.srcEnd.toNat := by omega
    refine ⟨h0, hc, h.holds 0 (by simp), ?_, ?_, ?_, ?_⟩
    · intro k hk
      have := h.holds (k + 1) (by simpa using hk)
      simp only [shiftIn_readIn, shiftIn_cursor, cursor_succ_toNat s hc]
      rw [show s.cursor.toNat + 1 + k = s.cursor.toNat + (k + 1) by omega]
      simpa using this
    · right
      simp only [shiftIn_cursor, shiftIn_srcEnd, cursor_succ_toNat s hc]
      omega
    · intro k hk
      rw [shiftIn_toNat b s h0]
      simpa using h.tooSmall (k + 1) (by simpa using hk)
    · rw [shiftIn_toNat b s h0]; simpa using h.enough
  · rintro ⟨h0, hc, hb, h⟩
    refine ⟨?_, ?_, ?_, ?_⟩
    · intro k hk
      cases k with
      | zero => simpa using hb
      | succ k =>
        have := h.holds k (by simpa using hk)
        simp only [shiftIn_readIn, shiftIn_cursor, cursor_succ_toNat s hc] at this
        rw [show s.cursor.toNat + 1 + k = s.cursor.toNat + (k + 1) by omega] at this
        simpa using this
    · right
      rcases h.within with hnil | hw
      · subst hnil; simpa using hc
      · simp only [shiftIn_cursor, shiftIn_srcEnd, cursor_succ_toNat s hc] at hw
        simp; omega
    · intro k hk
      cases k with
      | zero => simpa using h0
      | succ k =>
        have := h.tooSmall k (by simpa using hk)
        rw [shiftIn_toNat b s h0] at this
        simpa using this
    · have := h.enough
      rw [shiftIn_toNat b s h0] at this
      simpa using this

theorem starves_nil_iff {s : State} : Starves s [] ↔ s.state.toNat < 4096 ∧ s.srcEnd.toNat ≤ s.cursor.toNat := by
  constructor
  · intro h
    have := h.allUsed
    exact ⟨by simpa using h.tooSmall 0 (by simp), by simp at this; omega⟩
  · rintro ⟨h, hc⟩
    exact ⟨by intro k hk; simp at hk, by simp; omega, by intro k hk; simpa using h⟩

theorem starves_cons_iff {s : State} {b : Byte} {bs : List Byte} :
    Starves s (b :: bs) ↔ s.state.toNat < 4096 ∧ s.cursor.toNat < s.srcEnd.toNat ∧
      s.readIn s.cursor.toNat = some b ∧ Starves (shiftIn b s) bs := by
  constructor
  · intro h
    have h0 : s.state.toNat < 4096 := by simpa using h.tooSmall 0 (by simp)
    have hu := h.allUsed
    simp only [List.length_cons] at hu
    have hc : s.cursor.toNat < s.srcEnd.toNat := by omega
    refine ⟨h0, hc, h.holds 0 (by simp), ?_, ?_, ?_⟩
    · intro k hk
      have := h.holds (k + 1) (by simpa using hk)
      simp only [shiftIn_readIn, shiftIn_cursor, cursor_succ_toNat s hc]
      rw [show s.cursor.toNat + 1 + k = s.cursor.toNat + (k + 1) by omega]
      simpa using this
    · simp only [shiftIn_cursor, shiftIn_srcEnd, cursor_succ_toNat s hc]
      omega
    · intro k hk
      rw [shiftIn_toNat b s h0]
      simpa using h.tooSmall (k + 1) (by simpa using hk)
  · rintro ⟨h0, hc, hb, h⟩
    refine ⟨?_, ?_, ?_⟩
    · intro k hk
      cases k with
      | zero => simpa using hb
      | succ k =>
        have := h.holds k (by simpa using hk)
        simp only [shiftIn_readIn, shiftIn_cursor, cursor_succ_toNat s hc] at this
        rw [show s.cursor.toNat + 1 + k = s.cursor.toNat + (k + 1) by omega] at this
        simpa using this
    · have := h.allUsed
      simp only [shiftIn_cursor, shiftIn_srcEnd, cursor_succ_toNat s hc] at this
      simp; omega
    · intro k hk
      cases k with
      | zero => simpa using h0
      | succ k =>
        have := h.tooSmall k (by simpa using hk)
        rw [shiftIn_toNat b s h0] at this
        simpa using this

/-- Running out of input is taking TruncatedInput in the state the bytes left. -/
theorem truncated_eq_raise (s : State) (bs : List Byte) :
    truncated s bs = raiseFault .truncatedInput (s.cursor + BitVec.ofNat 32 bs.length) (fed s bs) := rfl

theorem truncated_shiftIn (b : Byte) (bs : List Byte) (s : State) (h : s.state.toNat < 4096) :
    truncated (shiftIn b s) bs = truncated s (b :: bs) := by
  have hf := fed_shiftIn b bs s h
  have hc : (fed (shiftIn b s) bs).cursor = (fed s (b :: bs)).cursor := by rw [hf]
  simp only [fed_cursor] at hc
  rw [truncated_eq_raise, truncated_eq_raise, hf, hc]

theorem renormLoop_feeds (bs : List Byte) (s : State) (h : Feeds s bs) :
    renormLoop (s.srcEnd.toNat - s.cursor.toNat) s = .ok () (fed s bs) := by
  induction bs generalizing s with
  | nil =>
    have h4 := feeds_nil_iff.mp h
    cases hn : s.srcEnd.toNat - s.cursor.toNat <;> simp [renormLoop, Nat.not_lt.mpr h4]
  | cons b bs ih =>
    obtain ⟨h0, hc, hb, h'⟩ := feeds_cons_iff.mp h
    obtain ⟨n, hn⟩ : ∃ n, s.srcEnd.toNat - s.cursor.toNat = n + 1 := ⟨s.srcEnd.toNat - s.cursor.toNat - 1, by omega⟩
    have hn' : (shiftIn b s).srcEnd.toNat - (shiftIn b s).cursor.toNat = n := by
      simp only [shiftIn_srcEnd, shiftIn_cursor, cursor_succ_toNat s hc]; omega
    have hi := ih (shiftIn b s) h'
    rw [hn'] at hi
    rw [hn]
    simp only [renormLoop, hb, if_pos h0, hi, fed_shiftIn b bs s h0]

theorem renormLoop_starves (bs : List Byte) (s : State) (h : Starves s bs) :
    renormLoop (s.srcEnd.toNat - s.cursor.toNat) s = .raised (truncated s bs) := by
  induction bs generalizing s with
  | nil =>
    obtain ⟨h0, hc⟩ := starves_nil_iff.mp h
    rw [show s.srcEnd.toNat - s.cursor.toNat = 0 by omega]
    simp [renormLoop, if_pos h0, truncated_eq_raise]
  | cons b bs ih =>
    obtain ⟨h0, hc, hb, h'⟩ := starves_cons_iff.mp h
    obtain ⟨n, hn⟩ : ∃ n, s.srcEnd.toNat - s.cursor.toNat = n + 1 := ⟨s.srcEnd.toNat - s.cursor.toNat - 1, by omega⟩
    have hn' : (shiftIn b s).srcEnd.toNat - (shiftIn b s).cursor.toNat = n := by
      simp only [shiftIn_srcEnd, shiftIn_cursor, cursor_succ_toNat s hc]; omega
    have hi := ih (shiftIn b s) h'
    rw [hn'] at hi
    rw [hn]
    simp only [renormLoop, hb, if_pos h0, hi, truncated_shiftIn b bs s h0]

/-- Everything RENORM can do: be fed, run out of input, or meet a byte of IN the platform does not back. -/
theorem renormalize_cases (s : State) :
    (∃ bs, Feeds s bs ∧ renormalize s = .ok () (fed s bs)) ∨
    (∃ bs, Starves s bs ∧ renormalize s = .raised (truncated s bs)) ∨
    ((∃ a, s.cursor.toNat ≤ a ∧ a < s.srcEnd.toNat ∧ s.readIn a = none) ∧
      renormalize s = .refused .inNotBacked) := by
  unfold renormalize
  generalize hn : s.srcEnd.toNat - s.cursor.toNat = n
  induction n generalizing s with
  | zero =>
    by_cases h0 : s.state.toNat < 4096
    · refine .inr (.inl ⟨[], starves_nil_iff.mpr ⟨h0, by omega⟩, ?_⟩)
      simp [renormLoop, h0, truncated_eq_raise]
    · exact .inl ⟨[], feeds_nil_iff.mpr (by omega), by simp [renormLoop, h0]⟩
  | succ n ih =>
    by_cases h0 : s.state.toNat < 4096
    · have hc : s.cursor.toNat < s.srcEnd.toNat := by omega
      cases hb : s.readIn s.cursor.toNat with
      | none => exact .inr (.inr ⟨⟨_, le_refl _, hc, hb⟩, by simp [renormLoop, h0, hb]⟩)
      | some b =>
        have hn' : (shiftIn b s).srcEnd.toNat - (shiftIn b s).cursor.toNat = n := by
          simp only [shiftIn_srcEnd, shiftIn_cursor, cursor_succ_toNat s hc]; omega
        have hstep : renormLoop (n + 1) s = renormLoop n (shiftIn b s) := by simp [renormLoop, h0, hb]
        rw [hstep]
        rcases ih (shiftIn b s) hn' with ⟨bs, hf, hr⟩ | ⟨bs, hf, hr⟩ | ⟨⟨a, ha, ha', hm⟩, hr⟩
        · exact .inl ⟨b :: bs, feeds_cons_iff.mpr ⟨h0, hc, hb, hf⟩, by rw [hr, fed_shiftIn b bs s h0]⟩
        · exact .inr (.inl ⟨b :: bs, starves_cons_iff.mpr ⟨h0, hc, hb, hf⟩, by rw [hr, truncated_shiftIn b bs s h0]⟩)
        · refine .inr (.inr ⟨⟨a, ?_, ?_, ?_⟩, hr⟩)
          · simp only [shiftIn_cursor, cursor_succ_toNat s hc] at ha; omega
          · simpa using ha'
          · simpa using hm
    · exact .inl ⟨[], feeds_nil_iff.mpr (by omega), by simp [renormLoop, h0]⟩

theorem renormalize_feeds {s : State} {bs : List Byte} (h : Feeds s bs) : renormalize s = .ok () (fed s bs) :=
  renormLoop_feeds bs s h

theorem renormalize_starves {s : State} {bs : List Byte} (h : Starves s bs) : renormalize s = .raised (truncated s bs) :=
  renormLoop_starves bs s h

/-! ## DECBIT -/

@[simp] theorem fed_same_probs (s : State) (bs : List Byte) (c : Nat) : (fed s bs).probs[c]? = s.probs[c]? := rfl

/-- The model's decision on a fed state is the decision of its number. -/
theorem splitBit_fed {s : State} {bs : List Byte} (h : Feeds s bs) (p : Byte) :
    splitBit p (fed s bs).state = decide (accumulate s.state.toNat bs % 256 < p.toNat) := by
  simp only [splitBit, lowByte, BitVec.toNat_setWidth, h.fed_toNat]

/-- What a decision leaves, as numbers: the subtraction of STUPD never borrows on the bit DECIDE gives. -/
theorem stateUpdate_split (p : Byte) (st : Word) :
    stateUpdate (splitBit p st) p st = BitVec.ofNat 32 (nextCoderState (splitBit p st) p.toNat st.toNat) := by
  unfold stateUpdate nextCoderState
  by_cases h : splitBit p st
  · simp [h]
  · have hlow : p.toNat ≤ st.toNat % 256 := by
      simp only [splitBit, lowByte, BitVec.toNat_setWidth, decide_eq_true_eq] at h
      omega
    simp only [Bool.not_eq_true] at h
    simp only [h, Config.probOne]
    have hle : p.toNat ≤ (256 - p.toNat) * (st.toNat / 256) + st.toNat % 256 :=
      le_trans hlow (Nat.le_add_left _ _)
    simp [hle]

theorem probUpdate_eq (b : Bool) (p : Byte) : probUpdate b p = BitVec.ofNat 8 (nextProbability b p.toNat) := by
  have := p.isLt
  unfold probUpdate nextProbability
  simp only [Config.probOne, Config.adaptBias, Config.adaptShift, Nat.reducePow]
  rw [show 256 - p.toNat + 8 = 264 - p.toNat by omega]
  split <;> rfl

theorem afterDecision_fed {s : State} {bs : List Byte} (h : Feeds s bs) (c : Nat) (p : Byte) :
    afterDecision c p (fed s bs) = decided c p (decide (accumulate s.state.toNat bs % 256 < p.toNat)) bs s := by
  unfold afterDecision
  rw [stateUpdate_split, splitBit_fed h, probUpdate_eq, h.fed_toNat]
  rfl

/-- DECBIT takes the decision the stream carries. -/
theorem decodeBit_decides {c : Nat} {s t : State} {b : Bool} (h : Decides c s b t) : decodeBit c s = .ok b t := by
  obtain ⟨bs, p, hf, hp, rfl, rfl⟩ := h
  simp only [decodeBit, renormalize_feeds hf, bind_ok, probRead, fed_same_probs, hp]
  rw [splitBit_fed hf, afterDecision_fed hf]

theorem decodeBit_starves {c : Nat} {s : State} {bs : List Byte} (h : Starves s bs) :
    decodeBit c s = .raised (truncated s bs) := by
  simp [decodeBit, renormalize_starves h]

/-- Everything DECBIT can do. -/
theorem decodeBit_cases (c : Nat) (s : State) :
    (∃ b t, Decides c s b t ∧ decodeBit c s = .ok b t) ∨
    (∃ bs, Starves s bs ∧ decodeBit c s = .raised (truncated s bs)) ∨
    (Config.nCtx ≤ c ∧ decodeBit c s = .fault .noSuchContext) ∨
    ((∃ a, s.cursor.toNat ≤ a ∧ a < s.srcEnd.toNat ∧ s.readIn a = none) ∧
      decodeBit c s = .refused .inNotBacked) := by
  rcases renormalize_cases s with ⟨bs, hf, hr⟩ | ⟨bs, hf, hr⟩ | ⟨ha, hr⟩
  · by_cases hc : c < Config.nCtx
    · obtain ⟨p, hp⟩ : ∃ p, s.probs[c]? = some p := ⟨s.probs[c], by simp [hc]⟩
      refine .inl ⟨_, _, ⟨bs, p, hf, hp, rfl, rfl⟩, decodeBit_decides ⟨bs, p, hf, hp, rfl, rfl⟩⟩
    · have hp : s.probs[c]? = none := by simpa using hc
      exact .inr (.inr (.inl ⟨by omega, by simp [decodeBit, hr, probRead, hp]⟩))
  · exact .inr (.inl ⟨bs, hf, decodeBit_starves hf⟩)
  · exact .inr (.inr (.inr ⟨ha, by simp [decodeBit, hr]⟩))

theorem decodeBit_eq_ok {c : Nat} {s t : State} {b : Bool} : decodeBit c s = .ok b t ↔ Decides c s b t := by
  constructor
  · intro h
    rcases decodeBit_cases c s with ⟨b', t', hd, hr⟩ | ⟨bs, _, hr⟩ | ⟨_, hr⟩ | ⟨_, hr⟩ <;> rw [hr] at h <;> cases h
    exact hd
  · exact decodeBit_decides

theorem decodeBit_eq_raised {c : Nat} {s t : State} (h : decodeBit c s = .raised t) :
    ∃ bs, Starves s bs ∧ t = truncated s bs := by
  rcases decodeBit_cases c s with ⟨b', t', hd, hr⟩ | ⟨bs, hs, hr⟩ | ⟨_, hr⟩ | ⟨_, hr⟩ <;> rw [hr] at h <;> cases h
  exact ⟨bs, hs, rfl⟩

end Sys2Proof.Machine
end

