-- ==== Sys2Proof/Laws/Decisions.lean ====
section
/-! SUPPORT. Decisions as relations: what one changes, that it depends on the coder's part of the state only, runs of
them, and a function that takes a run, for witnesses. -/

namespace Sys2Proof.Machine

/-- `s` with the coder's part of `t`: `state`, `cursor`, `probs`. -/
def withCoder (s t : State) : State := { s with state := t.state, cursor := t.cursor, probs := t.probs }

/-- The parts of the state a decision reads are equal. -/
structure SameCoder (s t : State) : Prop where
  state : s.state = t.state
  cursor : s.cursor = t.cursor
  srcEnd : s.srcEnd = t.srcEnd
  inMem : s.inMem = t.inMem
  inBacking : s.inBacking = t.inBacking
  probs : s.probs = t.probs

theorem SameCoder.refl (s : State) : SameCoder s s := ⟨rfl, rfl, rfl, rfl, rfl, rfl⟩
theorem SameCoder.symm {s t : State} (h : SameCoder s t) : SameCoder t s :=
  ⟨h.1.symm, h.2.symm, h.3.symm, h.4.symm, h.5.symm, h.6.symm⟩
theorem SameCoder.trans {s t u : State} (h : SameCoder s t) (g : SameCoder t u) : SameCoder s u :=
  ⟨h.1.trans g.1, h.2.trans g.2, h.3.trans g.3, h.4.trans g.4, h.5.trans g.5,
    h.6.trans g.6⟩

/-- A decision changes the coder's part only. -/
theorem Decides.frame {c : Nat} {s t : State} {b : Bool} (h : Decides c s b t) : t = withCoder s t := by
  obtain ⟨bs, p, _, _, _, rfl⟩ := h
  rfl

theorem SameCoder.readIn {s t : State} (e : SameCoder s t) (a : Nat) : s.readIn a = t.readIn a :=
  readIn_congr e.inMem e.inBacking

theorem InputHolds.congr {s t : State} {bs : List Byte} (h : InputHolds s bs) (e : SameCoder s t) : InputHolds t bs := by
  intro k hk
  rw [← e.cursor, ← e.readIn]
  exact h k hk

theorem Feeds.congr {s t : State} {bs : List Byte} (h : Feeds s bs) (e : SameCoder s t) : Feeds t bs := by
  obtain ⟨h1, h2, h3, h4⟩ := h
  exact ⟨h1.congr e, by rwa [← e.cursor, ← e.srcEnd],
    by rwa [← e.state], by rwa [← e.state]⟩

theorem Starves.congr {s t : State} {bs : List Byte} (h : Starves s bs) (e : SameCoder s t) : Starves t bs := by
  obtain ⟨h1, h2, h3⟩ := h
  exact ⟨h1.congr e, by rwa [← e.cursor, ← e.srcEnd],
    by rwa [← e.state]⟩

/-- A decision depends on the coder's part only. -/
theorem Decides.congr {c : Nat} {s s' t : State} {b : Bool} (h : Decides c s b t) (e : SameCoder s s') :
    Decides c s' b (withCoder s' t) := by
  obtain ⟨bs, p, hf, hp, hb, rfl⟩ := h
  refine ⟨bs, p, hf.congr e, by rw [← e.probs]; exact hp, by rw [← e.state]; exact hb, ?_⟩
  simp only [withCoder, decided, e.state, e.cursor, e.probs]

/-- The stream carries one decision at a context, and taking it leaves one state. -/
theorem Decides.unique {c : Nat} {s t t' : State} {b b' : Bool} (h : Decides c s b t) (h' : Decides c s b' t') :
    b = b' ∧ t = t' := by
  have e := (decodeBit_decides h).symm.trans (decodeBit_decides h')
  injection e with e1 e2
  exact ⟨e1, e2⟩

theorem SameCoder.after {s t u : State} (h : SameCoder u t) (e : s.srcEnd = t.srcEnd) (m : s.inMem = t.inMem)
    (b : s.inBacking = t.inBacking) : SameCoder (withCoder s u) t := ⟨h.state, h.cursor, e, m, b, h.probs⟩

theorem Decides.srcEnd {c : Nat} {s t : State} {b : Bool} (h : Decides c s b t) : t.srcEnd = s.srcEnd := by
  rw [h.frame]; rfl
theorem Decides.inMem {c : Nat} {s t : State} {b : Bool} (h : Decides c s b t) : t.inMem = s.inMem := by
  rw [h.frame]; rfl
theorem Decides.inBacking {c : Nat} {s t : State} {b : Bool} (h : Decides c s b t) : t.inBacking = s.inBacking := by
  rw [h.frame]; rfl

theorem withCoder_sameCoder {c : Nat} {s s' t : State} {b : Bool} (h : Decides c s b t) (e : SameCoder s s') :
    SameCoder t (withCoder s' t) :=
  ⟨rfl, rfl, by rw [h.srcEnd]; exact e.srcEnd, by rw [h.inMem]; exact e.inMem,
    by rw [h.inBacking]; exact e.inBacking, rfl⟩

/-! ## Runs of decisions -/

theorem decidesAll_nil {s t : State} : DecidesAll [] s t ↔ t = s := by
  constructor
  · intro h; cases h; rfl
  · rintro rfl; exact .nil _

theorem decidesAll_cons {c : Nat} {b : Bool} {ds : List Decision} {s t : State} :
    DecidesAll ((c, b) :: ds) s t ↔ ∃ u, Decides c s b u ∧ DecidesAll ds u t := by
  constructor
  · intro h; cases h with | cons h1 h2 => exact ⟨_, h1, h2⟩
  · rintro ⟨u, h1, h2⟩; exact .cons h1 h2

theorem decidesAll_append {ds es : List Decision} {s t : State} :
    DecidesAll (ds ++ es) s t ↔ ∃ u, DecidesAll ds s u ∧ DecidesAll es u t := by
  induction ds generalizing s with
  | nil => simp [decidesAll_nil]
  | cons d ds ih =>
    obtain ⟨c, b⟩ := d
    simp only [List.cons_append, decidesAll_cons, ih]
    constructor
    · rintro ⟨u, h1, v, h2, h3⟩; exact ⟨v, ⟨u, h1, h2⟩, h3⟩
    · rintro ⟨v, ⟨u, h1, h2⟩, h3⟩; exact ⟨u, h1, v, h2, h3⟩

/-- A run of decisions changes the coder's part only. -/
theorem DecidesAll.frame {ds : List Decision} {s t : State} (h : DecidesAll ds s t) : t = withCoder s t := by
  induction h with
  | nil => rfl
  | cons h1 _ ih => rw [ih, h1.frame]; rfl

/-- A run of decisions, if the stream carries it: the state it leaves. -/
def takeDecisions : List Decision → State → Option State
  | [], s => some s
  | (c, b) :: ds, s =>
    match decodeBit c s with
    | .ok b' t => if b' = b then takeDecisions ds t else none
    | _ => none

theorem takeDecisions_sound {ds : List Decision} {s t : State} (h : takeDecisions ds s = some t) :
    DecidesAll ds s t := by
  induction ds generalizing s with
  | nil => simp only [takeDecisions, Option.some.injEq] at h; exact decidesAll_nil.mpr h.symm
  | cons d ds ih =>
    obtain ⟨c, b⟩ := d
    simp only [takeDecisions] at h
    split at h
    · rename_i b' u hd
      split at h
      · subst_vars; exact .cons (decodeBit_eq_ok.mp hd) (ih h)
      · cases h
    · cases h

end Sys2Proof.Machine
end

