-- ==== Sys2Proof/Laws/Output.lean ====
section
/-! SUPPORT. What the operations on the output and the host's command can do, said once each. -/

namespace Sys2Proof.Machine

theorem raiseFault_eq (k : FaultKind) (i : Word) (s : State) :
    raiseFault k i s = { s with cause := causeCode k, info := i, phase := phFault } := rfl

/-- A byte is stored where OUT is backed. -/
theorem storeOut_cases (v : Byte) (s : State) :
    (backedAt s.outBacking s.writePos.toNat = true ∧ storeOut v s = .ok () (appendOut v s)) ∨
    (backedAt s.outBacking s.writePos.toNat = false ∧ storeOut v s = .refused .outNotBacked) := by
  unfold storeOut
  cases h : backedAt s.outBacking s.writePos.toNat <;> simp

/-- What is read after a byte is stored: the byte there, the old value elsewhere. -/
theorem readOut_appendOut (v : Byte) (s : State) (a : Nat) (hb : backedAt s.outBacking s.writePos.toNat = true) :
    (appendOut v s).readOut a = if a = s.writePos.toNat then some v else s.readOut a := by
  by_cases h : a = s.writePos.toNat
  · subst h; simp [State.readOut, hb]
  · simp [State.readOut, read_write, h]

/-- A literal is appended where it fits, else OutputOverflow is taken; where OUT is not backed it is refused. -/
theorem emitByte_cases (v : Byte) (s : State) :
    (s.writePos.toNat < s.dstEnd.toNat ∧ backedAt s.outBacking s.writePos.toNat = true ∧
      emitByte v s = .ok () { appendOut v s with pwm := false, phase := phSop }) ∨
    (s.dstEnd.toNat ≤ s.writePos.toNat ∧ emitByte v s = .raised (raiseFault .outputOverflow s.writePos s)) ∨
    (s.writePos.toNat < s.dstEnd.toNat ∧ backedAt s.outBacking s.writePos.toNat = false ∧
      emitByte v s = .refused .outNotBacked) := by
  unfold emitByte
  by_cases h : s.dstEnd.toNat ≤ s.writePos.toNat
  · exact .inr (.inl ⟨h, by simp [h]⟩)
  · rcases storeOut_cases v s with ⟨hb, he⟩ | ⟨hb, he⟩
    · exact .inl ⟨by omega, hb, by simp [h, he]⟩
    · exact .inr (.inr ⟨by omega, hb, by simp [h, he]⟩)

/-- Everything the copy of one byte can do. -/
theorem copyByte_cases (s : State) :
    (s.writePos.toNat < s.dstEnd.toNat ∧ s.rem ≠ 0 ∧ s.offset.toNat ≤ s.writePos.toNat ∧
      backedAt s.outBacking s.writePos.toNat = true ∧
      ∃ v, s.readOut (copySource s) = some v ∧ copyByte s = .ok () (countCopied (appendOut v s))) ∨
    (s.dstEnd.toNat ≤ s.writePos.toNat ∧ copyByte s = .raised (raiseFault .outputOverflow s.writePos s)) ∨
    (s.writePos.toNat < s.dstEnd.toNat ∧ s.rem = 0 ∧ copyByte s = .fault .nothingToCopy) ∨
    (s.writePos.toNat < s.dstEnd.toNat ∧ s.writePos.toNat < s.offset.toNat ∧
      copyByte s = .fault .outAddressBelowZero) ∨
    (s.writePos.toNat < s.dstEnd.toNat ∧
      (backedAt s.outBacking (copySource s) = false ∨ backedAt s.outBacking s.writePos.toNat = false) ∧
      copyByte s = .refused .outNotBacked) := by
  unfold copyByte
  by_cases h1 : s.dstEnd.toNat ≤ s.writePos.toNat
  · exact .inr (.inl ⟨h1, by simp [h1]⟩)
  rw [if_neg h1]
  by_cases h2 : s.rem = 0
  · exact .inr (.inr (.inl ⟨by omega, h2, if_pos h2⟩))
  rw [if_neg h2]
  by_cases h3 : s.writePos.toNat < s.offset.toNat
  · exact .inr (.inr (.inr (.inl ⟨by omega, h3, if_pos h3⟩)))
  rw [if_neg h3]
  cases h4 : s.readOut (copySource s) with
  | none => exact .inr (.inr (.inr (.inr ⟨by omega, .inl (readOut_eq_none.mp h4), rfl⟩)))
  | some v =>
    rcases storeOut_cases v s with ⟨hb, he⟩ | ⟨hb, he⟩
    · exact .inl ⟨by omega, h2, by omega, hb, v, rfl, by simp [he]⟩
    · exact .inr (.inr (.inr (.inr ⟨by omega, .inr hb, by simp [he]⟩)))

/-- Counting a copied byte: the last one ends the match. -/
theorem countCopied_eq (s : State) : countCopied s = { s with
    rem := s.rem - 1
    pwm := if s.rem = 1 then true else s.pwm
    phase := if s.rem = 1 then phSop else phMCopy } := by
  unfold countCopied
  have h : s.rem - 1 = 0 ↔ s.rem = 1 := by constructor <;> intro h <;> bv_omega
  by_cases hr : s.rem = 1
  · simp [hr]
  · rw [if_neg (by rwa [h]), if_neg hr, if_neg hr]

/-- M_CHK's test, as 44_match_copy R174 words it. -/
theorem offsetInvalid_iff (s : State) :
    offsetInvalid s = true ↔ s.offset.toNat = 0 ∨ s.writePos.toNat < s.offset.toNat + s.dstBase.toNat := by
  simp [offsetInvalid]

/-- The check passes to M_COPY or takes InvalidOffset. -/
theorem checkOffset_cases (s : State) :
    (1 ≤ s.offset.toNat ∧ s.offset.toNat + s.dstBase.toNat ≤ s.writePos.toNat ∧
      checkOffset s = .ok () { s with phase := phMCopy }) ∨
    ((s.offset.toNat = 0 ∨ s.writePos.toNat < s.offset.toNat + s.dstBase.toNat) ∧
      checkOffset s = .raised (raiseFault .invalidOffset s.offset s)) := by
  unfold checkOffset
  by_cases h : offsetInvalid s = true
  · exact .inr ⟨(offsetInvalid_iff s).mp h, by simp [h]⟩
  · have h' := mt (offsetInvalid_iff s).mpr h
    exact .inl ⟨by omega, by omega, by simp [h]⟩

/-- The launch check, address by address. -/
theorem launchBacked_iff (s : State) : s.launchBacked = true ↔
    InputBacked s ∧ OutBacked s s.writePos.toNat s.dstEnd.toNat := by
  simp only [State.launchBacked, Bool.and_eq_true, rangeBacked_iff, InputBacked, OutBacked]

/-- START is ignored while busy, refused where a register is unwritten or a range not backed, else it initialises the
decode. -/
theorem startCommand_cases (s : State) :
    (s.busy = true ∧ startCommand s = .ok () s) ∨
    (s.busy = false ∧ s.launchReady = true ∧ s.launchBacked = true ∧ startCommand s = .ok () (startDecode s)) ∨
    (s.busy = false ∧ s.launchReady = true ∧ s.launchBacked = false ∧ startCommand s = .refused .launchNotBacked) ∨
    (s.busy = false ∧ s.launchReady = false ∧ startCommand s = .refused .startUnwritten) := by
  unfold startCommand
  cases hb : s.busy <;> cases hl : s.launchReady <;> cases hk : s.launchBacked <;> simp

/-- Delivering an offset: the sentinel ends the stream, another offset begins the length code. -/
theorem deliverOffset_eq (v : Word) (s : State) :
    deliverOffset v s = if v = 1 then { s with offset := 0, phase := phDone }
      else lstart true { s with offset := v - 1 } := by
  unfold deliverOffset
  have h : v - 1 = 0 ↔ v = 1 := by constructor <;> intro h <;> bv_omega
  by_cases hv : v = 1
  · simp [hv]
  · rw [if_neg (by rwa [h]), if_neg hv]

end Sys2Proof.Machine
end

