-- ==== Sys2Proof/Laws/Codes.lean ====
section
/-! SUPPORT. The length decoder's arithmetic, and its loop over a run of decisions. -/

namespace Sys2Proof.Machine

theorem accWithBit_toNat (s : State) (b : Bool) (h : s.acc.toNat < 2 ^ s.bitPos.toNat) :
    (accWithBit s b).toNat = s.acc.toNat + b.toNat * 2 ^ s.bitPos.toNat := by
  unfold accWithBit
  have hb := s.bitPos.isLt
  have h2 : 2 ^ s.bitPos.toNat < 2 ^ 32 := Nat.pow_lt_pow_right (by omega) (by omega)
  rw [BitVec.toNat_or, BitVec.toNat_shiftLeft]
  cases b
  · simp
  simp only [BitVec.toNat_ofNat, Nat.shiftLeft_eq, Bool.toNat_true]
  rw [show 1 % 2^32 = 1 from rfl, one_mul, Nat.mod_eq_of_lt h2, Nat.lor_comm]
  have := Nat.shiftLeft_add_eq_or_of_lt h 1
  rw [Nat.shiftLeft_eq, one_mul] at this
  omega

theorem lengthValue_toNat (s : State) (h : s.acc.toNat < 2 ^ s.bitPos.toNat) :
    (lengthValue s).toNat = s.acc.toNat + 2 ^ s.bitPos.toNat := by
  have := accWithBit_toNat s true h
  simpa [accWithBit, lengthValue] using this

theorem bitsValue_lt (vs : List Bool) : bitsValue vs < 2 ^ vs.length := by
  induction vs with
  | nil => simp [bitsValue]
  | cons b vs ih => simp only [bitsValue, List.length_cons, Nat.pow_succ]; have := b.toNat_lt; omega

/-- `t` with the length decoder's registers at bit position `k` of the block with base `B`, accumulator `a`. -/
def withLengthAt (B k a : Nat) (t : State) : State :=
  { t with acc := BitVec.ofNat 32 a, bitPos := BitVec.ofNat 5 k, lctx := BitVec.ofNat 9 (B + 2 * k) }

theorem sameCoder_withLengthAt (B k a : Nat) (s : State) : SameCoder s (withLengthAt B k a s) := ⟨rfl, rfl, rfl, rfl, rfl, rfl⟩

theorem withCoder_withLengthAt (B k a : Nat) {c : Nat} {b : Bool} {s t : State} (h : Decides c s b t) :
    withCoder (withLengthAt B k a s) t = withLengthAt B k a t := by rw [h.frame]; rfl

/-- The loop of DECLEN over the value bits `vs` from bit position `k` on (42_length_decoder R151). -/
theorem lengthLoop_values (B : Nat) (hB : B ≤ 321) (vs : List Bool) (k a : Nat) (s t : State) (ha : a < 2 ^ k)
    (hk : k + vs.length ≤ 31) (h : DecidesAll (valueDecisions B k vs) s t) :
    lengthLoop (31 - k) (withLengthAt B k a s) =
      lengthLoop (31 - (k + vs.length)) (withLengthAt B (k + vs.length) (a + 2 ^ k * bitsValue vs) t) := by
  induction vs generalizing k a s with
  | nil => rw [decidesAll_nil.mp h]; simp [bitsValue]
  | cons b vs ih =>
    simp only [valueDecisions, decidesAll_cons] at h
    obtain ⟨u, h1, v, h2, h3⟩ := h
    simp only [List.length_cons] at hk
    have h1' := h1.congr (sameCoder_withLengthAt B k a s); rw [withCoder_withLengthAt _ _ _ h1] at h1'
    have h2' := h2.congr (sameCoder_withLengthAt B k a u); rw [withCoder_withLengthAt _ _ _ h2] at h2'
    obtain ⟨n, hn⟩ : ∃ n, 31 - k = n + 1 := ⟨30 - k, by omega⟩
    have c1 : ∀ s, contContext (withLengthAt B k a s) = B + 2 * k := by intro s; simp [contContext, withLengthAt]; omega
    have c2 : ∀ s, valContext (withLengthAt B k a s) = B + 2 * k + 1 := by intro s; simp [valContext, withLengthAt]; omega
    have hp : 2 ^ k < 2 ^ 32 := Nat.pow_lt_pow_right (by omega) (by omega)
    have e : takeValueBit b (withLengthAt B k a v) = withLengthAt B (k+1) (a + 2 ^ k * b.toNat) v := by
      have hacc : accWithBit (withLengthAt B k a v) b = BitVec.ofNat 32 (a + 2 ^ k * b.toNat) := by
        apply BitVec.eq_of_toNat_eq
        rw [accWithBit_toNat]
        · simp only [withLengthAt, BitVec.toNat_ofNat]
          have hkm : k % 2 ^ 5 = k := Nat.mod_eq_of_lt (by omega)
          rw [hkm, Nat.mod_eq_of_lt (show a < 2 ^ 32 by omega), Nat.mod_eq_of_lt]
          · ring
          · have : 2 ^ k * b.toNat ≤ 2 ^ k := by cases b <;> simp
            have : 2 ^ (k+1) ≤ 2 ^ 32 := Nat.pow_le_pow_right (by omega) (by omega)
            rw [Nat.pow_succ] at this; omega
        · simp only [withLengthAt, BitVec.toNat_ofNat]
          have hkm : k % 2 ^ 5 = k := Nat.mod_eq_of_lt (by omega)
          rw [hkm]; exact lt_of_le_of_lt (Nat.mod_le _ _) ha
      unfold takeValueBit; rw [hacc]
      simp only [withLengthAt]
      congr 1
      · apply BitVec.eq_of_toNat_eq; simp [BitVec.toNat_add]
      · apply BitVec.eq_of_toNat_eq; simp [BitVec.toNat_add]; omega
    rw [hn]
    simp only [lengthLoop, c1, decodeBit_decides h1', bind_ok, if_true, c2, decodeBit_decides h2', e]
    have := ih (k+1) (a + 2 ^ k * b.toNat) v (by
      rw [Nat.pow_succ]; have : 2 ^ k * b.toNat ≤ 2 ^ k := by cases b <;> simp
      omega) (by omega) h3
    rw [show 31 - (k+1) = n by omega] at this
    rw [this, List.length_cons, show k + 1 + vs.length = k + (vs.length + 1) by omega, bitsValue]
    congr 2
    rw [Nat.pow_succ]; ring

end Sys2Proof.Machine
end

