-- ==== Sys2Proof/Laws/Copy.lean ====
section
/-! SUPPORT. What a run of byte copies can do: `copyTimes`, by induction over the bytes. -/

namespace Sys2Proof.Machine

/-- `n` copies from a valid offset, where they fit: each byte equals the one `offset` before it, nothing else in OUT
changes (44_match_copy R175, R176). -/
theorem copyTimes_fits (s : State) (n : Nat) (hn : s.rem.toNat = n) (h1 : 1 ≤ s.offset.toNat)
    (h2 : s.dstBase.toNat + s.offset.toNat ≤ s.writePos.toNat)
    (hw : OutBacked s (s.writePos.toNat - s.offset.toNat) (s.writePos.toNat + n))
    (hf : s.writePos.toNat + n ≤ s.dstEnd.toNat)
    (hn1 : 1 ≤ n) :
    ∃ t, copyTimes n s = .ok () t ∧
      t = { s with
        rem := 0, outMem := t.outMem, writePos := s.writePos + BitVec.ofNat 32 n, pwm := true, phase := phSop } ∧
        (∀ a, a < s.writePos.toNat ∨ s.writePos.toNat + n ≤ a → t.outMem.read a = s.outMem.read a) ∧
        (∀ k < n, t.readOut (s.writePos.toNat + k) = t.readOut (s.writePos.toNat + k - s.offset.toNat) ∧
          (t.outMem.read (s.writePos.toNat + k)).isSome) := by
  induction n generalizing s with
  | zero => omega
  | succ n ih =>
    have hd := s.dstEnd.isLt
    rcases copyByte_cases s with ⟨_, _, _, hbk, v, hv, he⟩ | ⟨h, _⟩ | ⟨_, h, _⟩ | ⟨_, h, _⟩ | ⟨_, h, _⟩
    · simp only [copyTimes, he, bind_ok]
      have hwp : (s.writePos + 1).toNat = s.writePos.toNat + 1 := by
        rw [BitVec.toNat_add]; simp; omega
      have hrem : (s.rem - 1).toNat = n := by
        rw [BitVec.toNat_sub]; simp; have := s.rem.isLt; omega
      have hcs : copySource s = s.writePos.toNat - s.offset.toNat := rfl
      by_cases hn0 : n = 0
      · subst hn0
        have hr1 : s.rem = 1 := BitVec.eq_of_toNat_eq (by simpa using hn)
        refine ⟨_, rfl, ?_, ?_, ?_⟩
        · rw [countCopied_eq]; simp [appendOut, hr1]
        · intro a ha; rw [countCopied_eq]; simp [appendOut, read_write]; intro; omega
        · intro k hk
          have : k = 0 := by omega
          subst this
          refine ⟨?_, by rw [countCopied_eq]; simp [appendOut]⟩
          have hro : ∀ a, (countCopied (appendOut v s)).readOut a = (appendOut v s).readOut a :=
            fun a => by rw [countCopied_eq]; rfl
          rw [hro, hro, readOut_appendOut v s _ hbk, readOut_appendOut v s _ hbk, Nat.add_zero, if_pos rfl,
            if_neg (by omega), ← hcs, hv]
      · have hr1 : ¬ s.rem = 1 := by intro h; rw [h] at hn; simp at hn; omega
        set u := countCopied (appendOut v s) with hu
        have hu' : u = { s with
            outMem := s.outMem.write s.writePos.toNat v, writePos := s.writePos + 1, rem := s.rem - 1
            phase := phMCopy } := by
          rw [hu, countCopied_eq]; simp [appendOut, show ¬ (s.rem = 1#32) from hr1]
        clear_value u
        subst hu'
        obtain ⟨t, ht, heq, hfr, hk⟩ := ih { s with
            outMem := s.outMem.write s.writePos.toNat v, writePos := s.writePos + 1, rem := s.rem - 1
            phase := phMCopy } hrem h1 (by simp only [hwp]; omega) (by
          intro a ha hb
          simp only [hwp] at ha hb
          exact hw a (by omega) (by omega)) (by simp only [hwp]; omega) (by omega)
        refine ⟨t, ht, ?_, ?_, ?_⟩
        · rw [heq]; simp
          rw [BitVec.add_assoc]; congr 1; apply BitVec.eq_of_toNat_eq; simp; omega
        · intro a ha
          rw [hfr a (by simp only [hwp]; omega)]
          simp only [read_write]; rw [if_neg (by omega)]
        · intro k hk'
          simp only [hwp] at hk hfr
          cases k with
          | zero =>
            have ht0 : t.outMem.read s.writePos.toNat = some v := by rw [hfr _ (by omega)]; simp
            have hbt : t.outBacking = s.outBacking := by rw [heq]
            have hts : t.readOut (s.writePos.toNat - s.offset.toNat) = s.readOut (s.writePos.toNat - s.offset.toNat) :=
              readOut_congr (by rw [hfr _ (by omega), read_write_other _ _ (by omega)]) hbt
            rw [Nat.add_zero, hts, ← hcs, hv, readOut_of_read (by rw [hbt]; exact hbk) ht0, ht0]
            simp
          | succ k =>
            have := hk k (by omega)
            rw [show s.writePos.toNat + (k+1) = s.writePos.toNat + 1 + k by omega]
            exact this
    · omega
    · rw [h] at hn; simp at hn
    · omega
    · have h1 := hw (copySource s) (by simp only [copySource]; omega) (by simp only [copySource]; omega)
      have h2 := hw s.writePos.toNat (by omega) (by omega)
      simp [h1, h2] at h

/-- `n` copies from a valid offset, where they do not fit: cut at `dst_end` (60_exceptions R212). -/
theorem copyTimes_cut (s : State) (n : Nat) (hn : s.rem.toNat = n) (h1 : 1 ≤ s.offset.toNat)
    (h2 : s.dstBase.toNat + s.offset.toNat ≤ s.writePos.toNat)
    (hw : OutBacked s (s.writePos.toNat - s.offset.toNat) s.dstEnd.toNat) (hf : s.dstEnd.toNat < s.writePos.toNat + n)
    (hn1 : 1 ≤ n) (hp : s.phase = phMCopy) :
    ∃ t, copyTimes n s = .raised t ∧
      t = { s with
        rem := t.rem, outMem := t.outMem, writePos := t.writePos, cause := 2, info := t.writePos, phase := phFault } ∧
        t.writePos.toNat = max s.writePos.toNat s.dstEnd.toNat ∧
        t.rem.toNat = n - (s.dstEnd.toNat - s.writePos.toNat) ∧
        (∀ a, a < s.writePos.toNat ∨ t.writePos.toNat ≤ a → t.outMem.read a = s.outMem.read a) ∧
        (∀ k, s.writePos.toNat + k < t.writePos.toNat →
          t.readOut (s.writePos.toNat + k) = t.readOut (s.writePos.toNat + k - s.offset.toNat)) := by
  induction n generalizing s with
  | zero => omega
  | succ n ih =>
    have hd := s.dstEnd.isLt
    have hcs : copySource s = s.writePos.toNat - s.offset.toNat := rfl
    rcases copyByte_cases s with ⟨_, _, _, hbk, v, hv, he⟩ | ⟨h, he⟩ | ⟨_, h, _⟩ | ⟨_, h, _⟩ | ⟨_, h, _⟩
    · simp only [copyTimes, he, bind_ok]
      have hwp : (s.writePos + 1).toNat = s.writePos.toNat + 1 := by
        rw [BitVec.toNat_add]; simp; omega
      have hrem : (s.rem - 1).toNat = n := by
        rw [BitVec.toNat_sub]; simp; have := s.rem.isLt; omega
      have hr1 : ¬ s.rem = 1 := by intro h; rw [h] at hn; simp at hn; omega
      set u := countCopied (appendOut v s) with hu
      have hu' : u = { s with
            outMem := s.outMem.write s.writePos.toNat v, writePos := s.writePos + 1, rem := s.rem - 1
            phase := phMCopy } := by
        rw [hu, countCopied_eq]; simp [appendOut, show ¬ (s.rem = 1#32) from hr1]
      clear_value u
      subst hu'
      obtain ⟨t, ht, heq, hwe, hre, hfr, hk⟩ := ih { s with
            outMem := s.outMem.write s.writePos.toNat v, writePos := s.writePos + 1, rem := s.rem - 1
            phase := phMCopy } hrem h1 (by simp only [hwp]; omega) (by
        intro a ha hb
        simp only [hwp] at ha hb
        exact hw a (by omega) (by omega)) (by simp only [hwp]; omega) (by omega) rfl
      simp only [hwp] at hwe hre hfr hk
      refine ⟨t, ht, heq, by omega, by omega, ?_, ?_⟩
      · intro a ha
        rw [hfr a (by omega)]
        simp only [read_write]; rw [if_neg (by omega)]
      · intro k hk'
        cases k with
        | zero =>
          simp only [Nat.add_zero] at hk'
          have ht0 : t.outMem.read s.writePos.toNat = some v := by rw [hfr _ (by omega)]; simp
          have hbt : t.outBacking = s.outBacking := by rw [heq]
          have hts : t.readOut (s.writePos.toNat - s.offset.toNat) = s.readOut (s.writePos.toNat - s.offset.toNat) :=
            readOut_congr (by rw [hfr _ (by omega), read_write_other _ _ (by omega)]) hbt
          rw [Nat.add_zero, hts, ← hcs, hv, readOut_of_read (by rw [hbt]; exact hbk) ht0]
        | succ k =>
          have := hk k (by omega)
          rw [show s.writePos.toNat + (k+1) = s.writePos.toNat + 1 + k by omega]
          exact this
    · simp only [copyTimes, he, bind_raised]
      refine ⟨_, rfl, rfl, ?_, ?_, ?_, ?_⟩
      · simp; omega
      · simp; omega
      · intro a _; rfl
      · intro k hk; simp at hk
    · rw [h] at hn; simp at hn
    · omega
    · have h1 := hw (copySource s) (by omega) (by omega)
      have h2 := hw s.writePos.toNat (by omega) (by omega)
      simp [h1, h2] at h

end Sys2Proof.Machine
end

