-- ==== Sys2Proof/Laws/Engine.lean ====
section
/-! SUPPORT. What one step of the engine can do, said once: every later proof about steps takes these cases instead of
unfolding the meanings. -/

namespace Sys2Proof.Machine

theorem phase_cases (p : BitVec 4) : p = 0 ∨ p = 1 ∨ p = 2 ∨ p = 3 ∨ p = 4 ∨ p = 5 ∨ p = 6 ∨ p = 7 ∨ p = 8 ∨ p = 9 ∨
    p = 10 ∨ 11 ≤ p.toNat := by
  revert p; decide

theorem decodePhase_reserved : ∀ p : BitVec 4, 11 ≤ p.toNat → decodePhase p = .error .noSuchPhase := by decide

/-- `EngineCase s t`: one engine step can take `s` to `t`, with what holds when it does (45_top_fsm R193). -/
inductive EngineCase (s : State) : State → Prop where
  | starved (bs : List Byte) : Starves s bs → s.phase ∈ [phSop, phLitBit, phMHasoff, phLCont, phLVal] →
      EngineCase s (truncated s bs)
  | sopLiteral (t : State) : s.phase = phSop → Decides 0 s false t → EngineCase s { t with byte := 1, phase := phLitBit }
  | sopOffset (t : State) : s.phase = phSop → Decides 0 s true t → s.pwm = true → EngineCase s (lstart false t)
  | sopHasoff (t : State) : s.phase = phSop → Decides 0 s true t → s.pwm = false →
      EngineCase s { t with phase := phMHasoff }
  | treeBit (b : Bool) (t : State) : s.phase = phLitBit → Decides s.byte.toNat s b t → s.byte.toNat ≤ 255 →
      EngineCase s { t with
        byte := BitVec.ofNat 9 (2 * s.byte.toNat + b.toNat)
        phase := if 256 ≤ 2 * s.byte.toNat + b.toNat then phLitEmit else phLitBit }
  | emitted : s.phase = phLitEmit → s.writePos.toNat < s.dstEnd.toNat →
      backedAt s.outBacking s.writePos.toNat = true →
      EngineCase s { appendOut (literalByte s) s with pwm := false, phase := phSop }
  | overflowed : s.phase = phLitEmit ∨ s.phase = phMCopy → s.dstEnd.toNat ≤ s.writePos.toNat →
      EngineCase s (raiseFault .outputOverflow s.writePos s)
  | hasoff (b : Bool) (t : State) : s.phase = phMHasoff → Decides 256 s b t → EngineCase s (lstart (!b) t)
  | continued (t : State) : s.phase = phLCont → Decides s.lctx.toNat s true t → s.bitPos ≠ 31 →
      EngineCase s { t with phase := phLVal }
  | tooLong (t : State) : s.phase = phLCont → Decides s.lctx.toNat s true t → s.bitPos = 31 →
      EngineCase s (raiseFault .lengthOverflow (s.lctx.setWidth 32) t)
  | length (t : State) : s.phase = phLCont → Decides s.lctx.toNat s false t → s.lsel = true →
      EngineCase s (deliverLength (lengthValue s) t)
  | sentinel (t : State) : s.phase = phLCont → Decides s.lctx.toNat s false t → s.lsel = false → lengthValue s = 1 →
      EngineCase s { t with offset := 0, phase := phDone }
  | offset (t : State) : s.phase = phLCont → Decides s.lctx.toNat s false t → s.lsel = false → lengthValue s ≠ 1 →
      EngineCase s (lstart true { t with offset := lengthValue s - 1 })
  | valueBit (b : Bool) (t : State) : s.phase = phLVal → Decides (s.lctx.toNat + 1) s b t → s.bitPos ≠ 31 →
      EngineCase s { takeValueBit b t with phase := phLCont }
  | checked : s.phase = phMChk → 1 ≤ s.offset.toNat → s.offset.toNat + s.dstBase.toNat ≤ s.writePos.toNat →
      EngineCase s { s with phase := phMCopy }
  | badOffset : s.phase = phMChk → (s.offset.toNat = 0 ∨ s.writePos.toNat < s.offset.toNat + s.dstBase.toNat) →
      EngineCase s (raiseFault .invalidOffset s.offset s)
  | copied (v : Byte) : s.phase = phMCopy → s.writePos.toNat < s.dstEnd.toNat → s.rem ≠ 0 →
      s.offset.toNat ≤ s.writePos.toNat → backedAt s.outBacking s.writePos.toNat = true →
      s.readOut (copySource s) = some v →
      EngineCase s (countCopied (appendOut v s))
  | still : s.phase = phIdle ∨ s.phase = phDone ∨ s.phase = phFault → EngineCase s s

/-- If the engine answers a next state, it is one of the cases. -/
theorem engineStep_cases {s t : State} (h : engineStep s = .next t) : EngineCase s t := by
  unfold engineStep fetchPhase at h
  rcases phase_cases s.phase with hp | hp | hp | hp | hp | hp | hp | hp | hp | hp | hp | hp
  case inr.inr.inr.inr.inr.inr.inr.inr.inr.inr.inr =>
    have := decodePhase_reserved _ hp
    rw [this] at h; cases h
  all_goals rw [hp] at h
  · injection h with h; subst h; exact .still (.inl hp)
  · change execSop s = _ at h
    unfold execSop at h
    rcases decodeBit_cases Config.ctxIsMatch s with ⟨b, u, hd, he⟩ | ⟨bs, hs, he⟩ | ⟨_, he⟩ | ⟨_, he⟩ <;> rw [he] at h
    · have e1 : u.pwm = s.pwm := by rw [hd.frame]; rfl
      cases b
      · injection h with h; subst h; exact .sopLiteral _ hp hd
      · simp only [bind_ok, if_true] at h
        split at h <;> injection h with h <;> subst h
        · exact .sopOffset _ hp hd (by rwa [← e1])
        · exact .sopHasoff _ hp hd (by rw [← e1]; exact Bool.eq_false_iff.mpr ‹_›)
    · injection h with h; subst h; exact .starved _ hs (by rw [hp]; decide)
    · cases h
    · cases h
  · change execLitBit s = _ at h
    unfold execLitBit at h
    rcases decodeBit_cases (treeContext s) s with ⟨b, u, hd, he⟩ | ⟨bs, hs, he⟩ | ⟨_, he⟩ | ⟨_, he⟩ <;> rw [he] at h
    · have e1 : u.byte = s.byte := by rw [hd.frame]; rfl
      simp only [bind_ok, e1] at h
      split at h
      · cases h
      · have hn : (BitVec.ofNat 9 (2 * s.byte.toNat + b.toNat)).toNat = 2 * s.byte.toNat + b.toNat := by
          have := b.toNat_lt; simp; omega
        simp only [byteWithBit, e1, hn] at h
        injection h with h; subst h
        exact .treeBit _ _ hp hd (by omega)
    · injection h with h; subst h; exact .starved _ hs (by rw [hp]; decide)
    · cases h
    · cases h
  · change (emitByte _ s).toOutcome = _ at h
    rcases emitByte_cases (literalByte s) s with ⟨hl, hb, he⟩ | ⟨hl, he⟩ | ⟨_, _, he⟩ <;> rw [he] at h
    · injection h with h; subst h; exact .emitted hp hl hb
    · injection h with h; subst h; exact .overflowed (.inl hp) hl
    · cases h
  · change execMHasoff s = _ at h
    unfold execMHasoff at h
    rcases decodeBit_cases Config.ctxHasOff s with ⟨b, u, hd, he⟩ | ⟨bs, hs, he⟩ | ⟨_, he⟩ | ⟨_, he⟩ <;> rw [he] at h
    · injection h with h; subst h; exact .hasoff _ _ hp hd
    · injection h with h; subst h; exact .starved _ hs (by rw [hp]; decide)
    · cases h
    · cases h
  · change execLCont s = _ at h
    unfold execLCont at h
    rcases decodeBit_cases (contContext s) s with ⟨b, u, hd, he⟩ | ⟨bs, hs, he⟩ | ⟨_, he⟩ | ⟨_, he⟩ <;> rw [he] at h
    · have e1 : u.bitPos = s.bitPos := by rw [hd.frame]; rfl
      have e2 : u.lctx = s.lctx := by rw [hd.frame]; rfl
      have e3 : u.acc = s.acc := by rw [hd.frame]; rfl
      have e4 : u.lsel = s.lsel := by rw [hd.frame]; rfl
      have e5 : lengthValue u = lengthValue s := by simp only [lengthValue, e1, e3]
      simp only [bind_ok, e5] at h
      cases b
      · simp only [Bool.false_eq_true, if_false] at h
        cases hl : s.lsel <;> simp only [e4, hl, Bool.false_eq_true, if_false, if_true] at h
        · rw [deliverOffset_eq] at h
          split at h <;> injection h with h <;> subst h
          · exact .sentinel _ hp hd hl ‹_›
          · exact .offset _ hp hd hl ‹_›
        · injection h with h; subst h; exact .length _ hp hd hl
      · simp only [if_true] at h
        split at h <;> injection h with h <;> subst h
        · rw [e2]; exact .tooLong _ hp hd (by rwa [← e1])
        · exact .continued _ hp hd (by rwa [← e1])
    · injection h with h; subst h; exact .starved _ hs (by rw [hp]; decide)
    · cases h
    · cases h
  · change execLVal s = _ at h
    unfold execLVal at h
    rcases decodeBit_cases (valContext s) s with ⟨b, u, hd, he⟩ | ⟨bs, hs, he⟩ | ⟨_, he⟩ | ⟨_, he⟩ <;> rw [he] at h
    · have e1 : u.bitPos = s.bitPos := by rw [hd.frame]; rfl
      simp only [bind_ok, e1] at h
      split at h
      · cases h
      · injection h with h; subst h; exact .valueBit _ _ hp hd ‹_›
    · injection h with h; subst h; exact .starved _ hs (by rw [hp]; decide)
    · cases h
    · cases h
  · change (checkOffset s).toOutcome = _ at h
    rcases checkOffset_cases s with ⟨h1, h2, he⟩ | ⟨h1, he⟩ <;> rw [he] at h <;> injection h with h <;> subst h
    · exact .checked hp h1 h2
    · exact .badOffset hp h1
  · change (copyByte s).toOutcome = _ at h
    rcases copyByte_cases s with ⟨h1, h2, h3, hb, v, hv, he⟩ | ⟨h1, he⟩ | ⟨h1, _, he⟩ | ⟨h1, _, he⟩ | ⟨h1, _, he⟩ <;> rw [he] at h
    · injection h with h; subst h; exact .copied v hp h1 h2 h3 hb hv
    · injection h with h; subst h; exact .overflowed (.inr hp) h1
    all_goals cases h
  · injection h with h; subst h; exact .still (.inr (.inl hp))
  · injection h with h; subst h; exact .still (.inr (.inr hp))

end Sys2Proof.Machine
end

