-- ==== Sys2Proof/Tests/Slice0.lean ====
section
/-! SUPPORT. Tests: expected values are those of spec/95_test_vectors.md (its names V…, S…, P…, F…, H… stand in the
comments) or worked out by hand from the rules named. -/

namespace Sys2Proof.Tests

open Sys2Proof.Machine

set_option Elab.async false

/-! ## Helpers -/

/-- Is the outcome a next state with the property? -/
def nextIs (o : Host.Outcome State Fault Refusal) (p : State → Bool) : Bool :=
  match o with
  | .next t => p t
  | _ => false

/-- Is the outcome this fault? -/
def faultIs (o : Host.Outcome State Fault Refusal) (f : Fault) : Bool :=
  match o with
  | .fault g => g == f
  | _ => false

/-- Is the outcome this refusal? -/
def refusalIs (o : Host.Outcome State Fault Refusal) (r : Refusal) : Bool :=
  match o with
  | .refused q => q == r
  | _ => false

/-- A decode under way: every probability 128, output from 0x100 to 0x200, input empty unless given. -/
def during (phase : BitVec 4) (state : Word) : State :=
  { State.reset with
    phase := phase, state := state, probs := Vector.replicate Config.nCtx 128
    writePos := 0x100, dstBase := 0x100, dstEnd := 0x200 }

/-- `s` with the input bytes, at 0. -/
def withInput (bs : List Byte) (s : State) : State :=
  { s with cursor := 0, srcEnd := BitVec.ofNat 32 bs.length, inMem := Memory.ofBytes 0 bs }

/-- A decode with "abc" written (section 2.5 of the vectors, at 0x100). -/
def abc (phase : BitVec 4) (offset rem dstEnd : Word) : State :=
  { during phase 5000 with
    writePos := 0x103, dstEnd := dstEnd, offset := offset, rem := rem
    outMem := [(0x100, 0x61), (0x101, 0x62), (0x102, 0x63)] }

/-- Low byte 127: bit 1 under 128, leaving 37375 and 136 (V2.4). -/
abbrev one : Word := 74623
/-- Low byte 128: bit 0 under 128, leaving 37248 and 120 (V2.5). -/
abbrev zero : Word := 74624

/-- A decode whose decisions are forced: probability 255 where `ones`, else 0 (values no decode reaches, V2.14 to V2.17,
so that no byte is needed): bit 1 while the low byte is below 255, and bit 0. -/
def rigged (ones : Nat → Bool) (state : Word) : State :=
  { during phSop state with probs := ⟨⟨(List.range Config.nCtx).map fun i => if ones i then 255 else 0⟩, by simp⟩ }

/-- The stream carries the decisions and the state they leave has the property. -/
def carries (ds : List Decision) (s : State) (p : State → Bool) : Bool :=
  match takeDecisions ds s with
  | some t => p t
  | none => false

theorem carries_sound {ds : List Decision} {s : State} {p : State → Bool} (h : carries ds s p = true) :
    ∃ t, DecidesAll ds s t ∧ p t = true := by
  unfold carries at h
  split at h
  · exact ⟨_, takeDecisions_sound ‹_›, h⟩
  · cases h

/-! ## WellFormed refuses what the spec cannot write down -/

theorem test_wf_matchR_zero_length : (Instr.matchR 0).wf = false := by decide
theorem test_wf_matchN_zero_length : (Instr.matchN 1 0).wf = false := by decide
theorem test_wf_matchC_zero_length : (Instr.matchC 1 0).wf = false := by decide
theorem test_wf_matchN_zero_offset : (Instr.matchN 0 1).wf = false := by decide
theorem test_wf_matchC_zero_offset : (Instr.matchC 0 1).wf = false := by decide
theorem test_wf_matchN_offset_too_large : (Instr.matchN 0xFFFFFFFF 1).wf = false := by decide
theorem test_wf_matchC_offset_too_large : (Instr.matchC 0xFFFFFFFF 1).wf = false := by decide
theorem test_wf_matchN_largest : (Instr.matchN 0xFFFFFFFE 0xFFFFFFFF).wf = true := by decide
theorem test_wf_probRd_context : (Instr.probRd 385).wf = false ∧ (Instr.probRd 384).wf = true := by decide
theorem test_wf_probUpd_context : (Instr.probUpd 385 true).wf = false ∧ (Instr.probUpd 384 true).wf = true := by decide
theorem test_wf_decbit_context : (Instr.decbit 384).wf = false ∧ (Instr.decbit 383).wf = true := by decide

/-! ## Decoding of words written out from the encodings -/

/-- 30_encoding R102, code by code. -/
theorem test_decode_phases :
    [0x0, 0x1, 0x2, 0x3, 0x4, 0x5, 0x6, 0x7, 0x8, 0x9, 0xA].map (fun c => (decode (.phase c)).toOption) =
      [some .idle, some .sop, some .litBit, some .litEmit, some .mHasoff, some .lCont, some .lVal, some .mChk,
        some .mCopy, some .done, some .faulted] := by decide

theorem test_decode_reserved_phases :
    [0xB, 0xC, 0xD, 0xE, 0xF].all (fun c => (decode (.phase c)).toOption == none) = true := by decide

/-- V4.3: LIT 0x41. -/
theorem test_decode_lit : decode (.stream false [(0, false), (1, false), (2, true), (5, false), (10, false), (20, false),
    (40, false), (80, false), (160, true)]) = .ok (.lit 0x41) := by decide

/-- V4.9: LIT 0xAA, after a match. -/
theorem test_decode_lit_after_match : decode (.stream true [(0, false), (1, true), (3, false), (6, true), (13, false),
    (26, true), (53, false), (106, true), (213, false)]) = .ok (.lit 0xAA) := by decide

/-- The match of P2: offset 1, length 5 (V3.2, V3.5). -/
theorem test_decode_matchN : decode (.stream false [(0, true), (256, true), (257, true), (258, false), (259, false),
    (321, true), (322, true), (323, true), (324, false), (325, false)]) = .ok (.matchN 1 5) := by decide

/-- REP len=2 (V5.13, V3.2). -/
theorem test_decode_matchR : decode (.stream false [(0, true), (256, false), (321, true), (322, false), (323, false)])
    = .ok (.matchR 2) := by decide

/-- MATCH.C with offset 2 (V3.3) and length 1. -/
theorem test_decode_matchC : decode (.stream true [(0, true), (257, true), (258, true), (259, false), (321, false)])
    = .ok (.matchC 2 1) := by decide

/-- V5.13: the two sentinels. -/
theorem test_decode_ends : decode (.stream false [(0, true), (256, true), (257, false)]) = .ok .endN ∧
    decode (.stream true [(0, true), (257, false)]) = .ok .endC := by decide

/-- V3.20: the value 2^32 - 1 of an offset code is offset 2^32 - 2. -/
theorem test_decode_largest_offset : parseOffset .endN .matchN (List.replicate 62 true ++ [false, false])
    = .ok (.matchN 0xFFFFFFFE 1, []) := by decide

/-- V3.19: a 32nd continue decision of 1. -/
theorem test_decode_length_overflow : parseLength 31 (List.replicate 63 true) = .error .lengthOverflow := by decide

/-- A decision at a context the grammar does not put there, a cut symbol, and one decision too many. -/
theorem test_decode_rejects :
    decode (.stream true [(0, true), (256, false)]) = .error .wrongContext ∧
    decode (.stream false [(0, true), (256, true)]) = .error .truncated ∧
    decode (.stream true [(0, true), (257, false), (0, true)]) = .error .trailing := by decide

/-- 30_encoding R101: the rows of the selectors, 0 to 15. -/
theorem test_selector_rows : (List.range 16).map (fun n => selectRow (BitVec.ofNat 4 n)) =
    [some .lit, some .lit, some .lit, some .lit, some .matchR, some .matchR, some .endN, some .matchN,
      some .lit, some .lit, some .lit, some .lit, some .endC, some .endC, some .matchC, some .matchC] := by decide

/-- Log 9: table words 0 to 10 are phase codes, 11 to 15 symbol selectors. -/
theorem test_table_words : [0, 4, 7, 10, 11, 12, 13, 14, 15].map (decodeTableWord 8) =
    [some .idle, some .mHasoff, some .mChk, some .faulted, some (.lit 0xC0), some .endC, some .endC,
      some (.matchC 1 1), some (.matchC 2 1)] := by decide

/-- The placed stream carries the symbol of the table word (log 9). -/
def fetches (w : Nat) : Bool :=
  match fetchSymbol { State.reset.withFetchWord 8 w with script := [] } with
  | .ok i _ => decodeTableWord 8 w == some i
  | _ => false

theorem test_placed_symbols : [11, 12, 13, 14, 15].all fetches = true := by decide +kernel

/-! ## Steps of the engine -/

/-- S3: a match after a match begins the offset code. -/
theorem test_sop_match_after_match : nextIs (exec .sop { during phSop one with pwm := true, acc := 9 }) (fun t =>
    t.phase == phLCont && t.state == 37375 && t.acc == 0 && t.bitPos == 0 && t.lctx == 257 && !t.lsel && t.pwm
      && t.probs[0] == 136) = true := by decide +kernel

/-- S5: the first step of a decode reads two bytes. -/
theorem test_sop_first : nextIs (exec .sop (withInput [0x82, 0x00] (during phSop 0))) (fun t =>
    t.phase == phMHasoff && t.state == 16640 && t.cursor == 2 && t.probs[0] == 136) = true := by decide +kernel

/-- S7: the last tree decision. -/
theorem test_litBit_last : nextIs (exec .litBit { during phLitBit one with byte := 160 }) (fun t =>
    t.phase == phLitEmit && t.byte == 321 && t.state == 37375 && t.probs[160] == 136) = true := by decide +kernel

/-- S6: the first one stays in LIT_BIT. -/
theorem test_litBit_first : nextIs (exec .litBit { during phLitBit one with byte := 1 }) (fun t =>
    t.phase == phLitBit && t.byte == 3 && t.probs[1] == 136) = true := by decide +kernel

/-- S9: a literal is appended. -/
theorem test_litEmit_appends : nextIs (exec .litEmit { during phLitEmit 5000 with byte := 321, pwm := true }) (fun t =>
    t.phase == phSop && t.writePos == 0x101 && !t.pwm && t.outMem == [(0x100, 0x41)]) = true := by decide +kernel

/-- S10: no room. -/
theorem test_litEmit_full : nextIs (exec .litEmit { during phLitEmit 5000 with byte := 321, pwm := true, writePos := 0x200 })
    (fun t => t.phase == phFault && t.cause == 2 && t.info == 512 && t.pwm && t.outMem == []) = true := by decide +kernel

/-- S11: a new offset. -/
theorem test_mHasoff_new : nextIs (exec .mHasoff { during phMHasoff one with offset := 7, lsel := true }) (fun t =>
    t.phase == phLCont && t.lctx == 257 && !t.lsel && t.offset == 7 && t.probs[256] == 136) = true := by decide +kernel

/-- S12: reuse. -/
theorem test_mHasoff_reuse : nextIs (exec .mHasoff { during phMHasoff zero with offset := 7, acc := 3 }) (fun t =>
    t.phase == phLCont && t.lctx == 321 && t.lsel && t.acc == 0 && t.offset == 7 && t.state == 37248) = true := by
  decide +kernel

/-- S14: an offset code stops with value 3. -/
theorem test_lCont_offset :
    nextIs (exec .lCont { during phLCont zero with acc := 1, bitPos := 1, lctx := 259 }) (fun t =>
      t.phase == phLCont && t.offset == 2 && t.acc == 0 && t.bitPos == 0 && t.lctx == 321 && t.lsel
        && t.probs[259] == 120) = true := by decide +kernel

/-- S17: a continue decision of 1 at position 31. -/
theorem test_lCont_overflow : nextIs (exec .lCont { during phLCont one with bitPos := 31, lctx := 319 }) (fun t =>
    t.phase == phFault && t.cause == 4 && t.info == 319 && t.state == 37375 && t.probs[319] == 136
      && t.probs[320] == 128) = true := by decide +kernel

/-- S21: a value bit at position 30. -/
theorem test_lVal_last : nextIs (exec .lVal { during phLVal one with bitPos := 30, lctx := 317 }) (fun t =>
    t.phase == phLCont && t.acc == 1073741824 && t.bitPos == 31 && t.lctx == 319 && t.probs[318] == 136) = true := by
  decide +kernel

/-- S28: out of input. -/
theorem test_lVal_truncated :
    nextIs (exec .lVal { during phLVal 3754 with cursor := 6, srcEnd := 6, acc := 1, bitPos := 1, lctx := 323 }) (fun t =>
      t.phase == phFault && t.cause == 1 && t.info == 6 && t.acc == 1 && t.bitPos == 1 && t.lctx == 323) = true := by
  decide +kernel

/-- S22, V5.12: an offset equal to the bytes written passes. -/
theorem test_mChk_equal : nextIs (exec .mChk (abc phMChk 3 2 0x200)) (fun t => t.phase == phMCopy && t.cause == 0) = true := by
  decide +kernel

/-- S23, V5.12: one more does not, although it is no larger than `write_pos`. -/
theorem test_mChk_too_large : nextIs (exec .mChk (abc phMChk 4 2 0x200)) (fun t =>
    t.phase == phFault && t.cause == 3 && t.info == 4) = true := by decide +kernel

/-- S26: the last byte of a copy. -/
theorem test_mCopy_last : nextIs (exec .mCopy (abc phMCopy 3 1 0x200)) (fun t =>
    t.phase == phSop && t.writePos == 0x104 && t.rem == 0 && t.pwm && t.outMem.read 0x103 == some 0x61) = true := by
  decide +kernel

/-- S27: no room; nothing is read. -/
theorem test_mCopy_full : nextIs (exec .mCopy (abc phMCopy 1 2 0x103)) (fun t =>
    t.phase == phFault && t.cause == 2 && t.info == 0x103 && t.rem == 2 && t.outMem.length == 3) = true := by
  decide +kernel

/-- S29: IDLE, DONE and FAULT take no step. -/
theorem test_idle : exec .idle State.reset = .next State.reset := rfl
theorem test_done : exec .done (during phDone 4096) = .next (during phDone 4096) := rfl
theorem test_faulted : exec .faulted (during phFault 4096) = .next (during phFault 4096) := rfl

/-! ## Procedures -/

theorem test_probRd : nextIs (exec (.probRd 384) (during phSop 0)) (fun t => t.result == .prob 128) = true := by
  decide +kernel

/-- V1.5: half up. -/
theorem test_probUpd : nextIs (exec (.probUpd 384 false) { during phSop 0 with probs := Vector.replicate Config.nCtx 120 })
    (fun t => t.probs[384] == 112 && t.probs[383] == 120) = true := by decide +kernel

/-- V1.5 on bit 1: 136 gives 144, 137 gives 144. -/
theorem test_probUpd_half_up : [136, 137].map (probUpdate true) = [144, 144] := by decide

/-- V2.22: three bytes. -/
theorem test_renorm : nextIs (exec .renorm (withInput [0x0f, 0xff, 0x80] (during phSop 0))) (fun t =>
    t.state == 1048448 && t.cursor == 3) = true := by decide +kernel

/-- V2.33: the byte at `src_end` is not read; the one before it stays consumed. -/
theorem test_renorm_truncated :
    nextIs (exec .renorm { withInput [0x10, 0x00] (during phSop 0) with srcEnd := 1 }) (fun t =>
      t.phase == phFault && t.cause == 1 && t.info == 1 && t.state == 16 && t.cursor == 1) = true := by decide +kernel

/-- V2.4, V2.5: the low byte just below `p`, and `p` itself. -/
theorem test_decideBit : nextIs (exec (.decideBit 128) (during phSop one)) (fun t => t.result == .split true 127) = true ∧
    nextIs (exec (.decideBit 128) (during phSop zero)) (fun t => t.result == .split false 128) = true := by decide +kernel

/-- V2.28, V2.29: the largest products. -/
theorem test_stupd : nextIs (exec (.stupd true 255) (during phSop 0xFFFFFF00)) (fun t => t.state == 4278189825) = true ∧
    nextIs (exec (.stupd false 0) (during phSop 0xFFFFFF00)) (fun t => t.state == 0xFFFFFF00) = true := by decide +kernel

/-- V2.13. -/
theorem test_decbit : nextIs (exec (.decbit 383) { during phSop 4351 with probs := Vector.replicate Config.nCtx 249 })
    (fun t => t.result == .bit false && t.state == 118 && t.probs[383] == 233 && t.probs[384] == 249) = true := by
  decide +kernel

/-- V3.1: the value 1. -/
theorem test_declen_one : nextIs (exec (.declen .len) { during phSop zero with acc := 5, bitPos := 3 }) (fun t =>
    t.result == .length 1 && t.acc == 0 && t.bitPos == 0 && t.lctx == 321 && t.probs[321] == 120) = true := by
  decide +kernel

/-- V3.21: the bits 1 1 1 0 0 are the value 5. -/
theorem test_declen_five : nextIs (exec (.declen .len) (rigged (fun i => i ∈ [321, 322, 323]) 0x100000)) (fun t =>
    t.result == .length 5 && t.acc == 1 && t.bitPos == 2 && t.lctx == 325) = true := by decide +kernel

/-- V4.3: 0x41. -/
theorem test_declit : nextIs (exec .declit (rigged (fun i => i ∈ [2, 160]) 0x100000)) (fun t =>
    t.result == .literal 0x41 && t.byte == 321) = true := by decide +kernel

/-- F1: the eleventh decision of P1, the first of its second literal, finds no byte. -/
theorem test_declit_truncated : nextIs (exec .declit (during phSop 3754)) (fun t =>
    t.phase == phFault && t.cause == 1 && t.byte == 1 && t.state == 3754) = true := by decide +kernel

theorem test_emit : nextIs (exec .emit { during phLitEmit 5000 with byte := 0x141 }) (fun t =>
    t.outMem == [(0x100, 0x41)] && t.writePos == 0x101) = true := by decide +kernel

/-- S25: not the last byte. -/
theorem test_copyb : nextIs (exec .copyb (abc phMCopy 1 2 0x200)) (fun t =>
    t.phase == phMCopy && t.writePos == 0x104 && t.rem == 1 && !t.pwm && t.outMem.read 0x103 == some 0x63) = true := by
  decide +kernel

/-- H5: START after a fault clears the record and keeps the cursors. -/
def stopped : State :=
  { during phFault 3754 with
    cursor := 3, writePos := 1, cause := 1, info := 3, offset := 9, pwm := true
    srcSet := true, srcEndSet := true, dstSet := true, dstEndSet := true }

theorem test_start : nextIs (exec .start stopped) (fun t =>
    t.phase == phSop && t.cause == 0 && t.info == 0 && t.cursor == 3 && t.writePos == 1 && t.dstBase == 1 && t.state == 0
      && t.offset == 0 && !t.pwm && t.probs[384] == 128) = true := by decide +kernel

/-- A launch over two regions that meet is backed; over a gap, in IN or in OUT, it is refused (20_memory R71). -/
theorem test_start_backing :
    nextIs (exec .start { stopped with srcEnd := 8, inBacking := [⟨4, 8⟩, ⟨0, 4⟩] }) (fun t => t.phase == phSop) = true ∧
    refusalIs (exec .start { stopped with srcEnd := 8, inBacking := [⟨0, 4⟩, ⟨5, 8⟩] }) .launchNotBacked = true ∧
    refusalIs (exec .start { stopped with outBacking := [⟨0, 0x1FF⟩] }) .launchNotBacked = true := by decide +kernel

/-- H1: START before the registers are written. -/
theorem test_start_unwritten : refusalIs (exec .start State.reset) .startUnwritten = true := by decide +kernel

/-! ## Symbols -/

theorem test_lit : nextIs (exec (.lit 0x41) (during phSop 5000)) (fun t =>
    t.outMem == [(0x100, 0x41)] && t.writePos == 0x101 && t.phase == phSop) = true := by decide +kernel

/-- V5.1: the overlapping copy. -/
theorem test_matchN : nextIs (exec (.matchN 1 5) (abc phSop 0 0 0x200)) (fun t =>
    t.writePos == 0x108 && t.pwm && t.offset == 1 && t.rem == 0 && t.phase == phSop &&
      t.outMem == [(0x100, 0x61), (0x101, 0x62), (0x102, 0x63), (0x103, 0x63), (0x104, 0x63), (0x105, 0x63),
        (0x106, 0x63), (0x107, 0x63)]) = true := by decide +kernel

/-- V5.2, after a match. -/
theorem test_matchC : nextIs (exec (.matchC 2 5) { abc phSop 0 0 0x200 with pwm := true }) (fun t =>
    t.writePos == 0x108 && (t.outMem.drop 3).map Prod.snd == [0x62, 0x63, 0x62, 0x63, 0x62]) = true := by decide +kernel

/-- V5.8: copied as far as it fits. -/
theorem test_matchC_cut : nextIs (exec (.matchC 1 5) (abc phSop 0 0 0x105)) (fun t =>
    t.phase == phFault && t.cause == 2 && t.info == 0x105 && t.rem == 3 && t.writePos == 0x105 && !t.pwm) = true := by
  decide +kernel

/-- V5.6: reuse before any match. -/
theorem test_matchR_none : nextIs (exec (.matchR 1) (abc phSop 0 0 0x200)) (fun t =>
    t.phase == phFault && t.cause == 3 && t.info == 0 && t.rem == 1 && t.writePos == 0x103) = true := by decide +kernel

/-- V5.4 with the offset kept. -/
theorem test_matchR : nextIs (exec (.matchR 2) (abc phSop 3 0 0x200)) (fun t =>
    t.offset == 3 && t.writePos == 0x105 && (t.outMem.drop 3).map Prod.snd == [0x61, 0x62]) = true := by decide +kernel

theorem test_endN : nextIs (exec .endN (abc phSop 3 0 0x200)) (fun t =>
    t.phase == phDone && t.offset == 0 && t.writePos == 0x103) = true := by decide +kernel
theorem test_endC : nextIs (exec .endC { abc phSop 3 0 0x200 with pwm := true }) (fun t =>
    t.phase == phDone && t.offset == 0 && t.pwm) = true := by decide +kernel

/-! ## The host -/

/-- The STATUS values of 95_test_vectors section 3. -/
theorem test_status : [0x0, 0x1, 0x2, 0x3, 0x4, 0x5, 0x6, 0x7, 0x8, 0x9, 0xA].map (fun p => (during p 0).statusWord) =
    [0x00, 0x11, 0x21, 0x31, 0x41, 0x51, 0x61, 0x71, 0x81, 0x92, 0xA4] := by decide +kernel

/-- H4: a CTRL write of 0xFFFFFFFF is START, one of 0xFFFFFFFE does nothing. -/
theorem test_ctrl : nextIs (step { stopped with script := [.regWrite 0 0xFFFFFFFF] }) (fun t => t.phase == phSop) = true ∧
    nextIs (step { stopped with script := [.regWrite 0 0xFFFFFFFE] }) (fun t =>
      t.phase == phFault && t.cause == 1 && t.offset == 9) = true := by decide +kernel

/-- 45_top_fsm R200: after DONE the host reads OUT where nothing was written too; a byte written is read as written. -/
theorem test_host_reads : nextIs (step { stopped with script := [.outRead 0x150] }) (fun t => t.outMem == []) = true ∧
    nextIs (step { abc phDone 0 0 0x200 with script := [.outRead 0x102] }) (fun t => t.busData == 0x63) = true := by
  decide +kernel

/-! ## Witnesses: states and operands that meet the hypotheses of the statements, clause by clause -/

/-- Program P0 just started: its two bytes, and nothing written. -/
def p0 : State := withInput [0x82, 0x00] (during phSop 0)

/-- `s` with the host's coming actions. -/
def withScript (acts : List HostAct) (s : State) : State := { s with script := acts }

/-- The forced decision at a context: bit 1 where the slot holds 255, else 0. -/
theorem decides_of {c : Nat} {b : Bool} {s : State} (h : carries [(c, b)] s (fun _ => true) = true) :
    ∃ t, Decides c s b t := by
  obtain ⟨t, ht, _⟩ := carries_sound h
  obtain ⟨u, hu, _⟩ := decidesAll_cons.mp ht
  exact ⟨u, hu⟩

/-- The reset platform backs every address. -/
theorem whole_backed {a : Nat} (h : a < 2 ^ 32) : backedAt wholeSpace a = true :=
  backedAt_iff.mpr ⟨_, List.mem_singleton_self _, Nat.zero_le _, h⟩

theorem inputBacked_of {s : State} (h : s.inBacking = wholeSpace) : InputBacked s := by
  intro a _ h2
  rw [h]
  exact whole_backed (Nat.lt_trans h2 s.srcEnd.isLt)

theorem outBacked_of {s : State} {lo hi : Nat} (h : s.outBacking = wholeSpace) (hh : hi ≤ 2 ^ 32) : OutBacked s lo hi := by
  intro a _ h2
  rw [h]
  exact whole_backed (Nat.lt_of_lt_of_le h2 hh)

/-- Starved at once: the state is below 4096 and no input is left. -/
theorem starves_now {s : State} (h : (s.state.toNat < 4096 && s.srcEnd.toNat ≤ s.cursor.toNat) = true) :
    Starves s [] := by
  simp only [Bool.and_eq_true, decide_eq_true_eq] at h
  exact starves_nil_iff.mpr h

/-- The decisions `ds`, after which the input is empty and too small. -/
theorem carries_then_starves {ds : List Decision} {s : State}
    (h : carries ds s (fun t => t.state.toNat < 4096 && t.srcEnd.toNat ≤ t.cursor.toNat) = true) :
    ∃ t, DecidesAll ds s t ∧ Starves t [] := by
  obtain ⟨t, ht, hp⟩ := carries_sound h
  exact ⟨t, ht, starves_now hp⟩

/-! ### Reset and the host -/

theorem witness_ResetGivesIdleAndKeepsOutput : (withScript [.reset] (during phMCopy 5000)).script = .reset :: [] := rfl

theorem witness_StartInitialisesTheDecode :
    (stopped.busy = false ∧ stopped.launchReady = true ∧ InputBacked stopped ∧
      OutBacked stopped stopped.writePos.toNat stopped.dstEnd.toNat) ∧
    (during phSop 0).busy = true ∧ (during phMCopy 0).busy = true :=
  ⟨⟨by decide +kernel, by decide +kernel, inputBacked_of rfl, outBacked_of rfl (Nat.le_of_lt (BitVec.isLt _))⟩,
    by decide +kernel, by decide +kernel⟩

theorem witness_StartRefusesExactlyTheUnbackedLaunches :
    (stopped.busy = false ∧ stopped.launchReady = true) ∧
    (backedAt ({ stopped with srcEnd := 8, inBacking := [⟨0, 4⟩, ⟨5, 8⟩] } : State).inBacking 4 = false) ∧
    (backedAt ({ stopped with outBacking := [⟨0, 0x1FF⟩] } : State).outBacking 0x1FF = false) := by decide +kernel

theorem witness_StartIsRefusedUntilTheRegistersAreWritten : stopped.busy = false ∧
    ({ stopped with srcSet := false } : State).srcSet = false ∧
    ({ stopped with dstEndSet := false } : State).dstEndSet = false := by decide +kernel

theorem witness_CtrlWriteIsStart : (withScript [.regWrite 0 1] stopped).busy = false ∧ (1 : Word).getLsbD 0 = true ∧
    (withScript [.regWrite 0 0xFFFFFFFF] (during phMCopy 0)).busy = true ∧ (0xFFFFFFFF : Word).getLsbD 0 = true ∧
    (0xFFFFFFFE : Word).getLsbD 0 = false ∧ (withScript [.regRead 0] stopped).script = .regRead 0 :: [] := by
  decide +kernel

theorem witness_StatusIsAFunctionOfPhase : (during phIdle 0).phase.toNat ≤ 10 ∧ (during phFault 0).phase.toNat ≤ 10 ∧
    (withScript [.regRead 4] stopped).script = .regRead 4 :: [] := by decide +kernel

theorem witness_HostWindowsOnTheFourRegisters :
    ((withScript [.regWrite 0x14 7] (during phMCopy 0)).busy = true ∧ 0x14 ∈ [0x08, 0x0C, 0x10, 0x14]) ∧
    (withScript [.regWrite 0x08 7] stopped).busy = false ∧
    (withScript [.regRead 0x14] stopped).script = .regRead 0x14 :: [] := by decide +kernel

theorem witness_ReadOnlyRegistersIgnoreWrites : 0x04 ∈ [0x04, 0x18, 0x1C, 0x20] ∧ 0x20 ∈ [0x04, 0x18, 0x1C, 0x20] ∧ 0x20 < 0x21 ∧
    (withScript [.regWrite 0x21 7] stopped).script = .regWrite 0x21 7 :: [] ∧
    (withScript [.regRead 0x24] stopped).script = .regRead 0x24 :: [] := by decide +kernel

theorem witness_HostKeepsOffTheBuffersWhileBusy :
    (withScript [.inWrite 0 1] (during phSop 0)).busy = true ∧
    ((withScript [.outWrite 0x100 1] (during phSop 0)).busy = true ∧ (during phSop 0).dstBase.toNat ≤ 0x100 ∧
      0x1FF < (during phSop 0).dstEnd.toNat ∧ backedAt (during phSop 0).outBacking 0x1FF = true) ∧
    (withScript [.inWrite 0 1, .inRead 0] stopped).busy = false ∧ backedAt stopped.inBacking 0 = true ∧
    (withScript [.outWrite 0xFFFFFFFF 1, .outRead 0xFFFFFFFF] stopped).busy = false ∧
    backedAt stopped.outBacking 0xFFFFFFFF = true := by decide +kernel

/-- Bytes written and unwritten, backed and not, with the engine busy and not. -/
theorem witness_HostReadsTheMemories :
    ((withScript [.inRead 0] p0).script = .inRead 0 :: [] ∧ backedAt p0.inBacking 0 = true ∧
      p0.inMem.read 0 = some 0x82 ∧ p0.busy = true) ∧
    (backedAt stopped.inBacking 0xFFFFFFFF = true ∧ stopped.inMem.read 0xFFFFFFFF = none) ∧
    (backedAt ({ stopped with inBacking := [⟨0, 4⟩] } : State).inBacking 4 = false) ∧
    ((withScript [.outRead 0x102] (abc phDone 0 0 0x200)).busy = false ∧
      (abc phDone 0 0 0x200).outMem.read 0x102 = some 0x63 ∧ (abc phDone 0 0 0x200).outMem.read 0x103 = none ∧
      backedAt (abc phDone 0 0 0x200).outBacking 0x103 = true) ∧
    (backedAt ({ stopped with outBacking := [] } : State).outBacking 0 = false) := by decide +kernel

/-! ### Steps -/

theorem witness_StepRunsThePhaseOperation : State.reset.script = [] ∧ decode (.phase (during phIdle 0).phase) = .ok .idle ∧
    decode (.phase (during phFault 0).phase) = .ok .faulted ∧ 11 ≤ (during 11 0).phase.toNat ∧
    11 ≤ (during 15 0).phase.toNat ∧ (withScript [.engine] p0).script = .engine :: [] ∧
    (withScript [.symbol] p0).script = .symbol :: [] ∧ (during phLCont 0).phase ≠ phSop :=
  ⟨rfl, rfl, rfl, by decide, by decide, rfl, rfl, by decide⟩

/-- P0's first symbol is the end of the stream. -/
theorem witness_StepRunsThePhaseOperation_symbol : ∃ t, fetchSymbol p0 = .ok .endN t ∧ p0.phase = phSop := by
  have h : (match fetchSymbol p0 with | .ok i _ => i == .endN | _ => false) = true := by decide +kernel
  split at h
  · rename_i i t he; exact ⟨t, by rw [he, eq_of_beq h], rfl⟩
  · cases h

theorem witness_StepRunsThePlacedWord : (0 ≤ 10 ∧ 10 ≤ 10) ∧ (11 ≤ 11 ∧ 11 ≤ 15) ∧ 11 ≤ 15 ∧ 15 ≤ 15 := by decide

theorem witness_IdleDoneAndFaultTakeNoStep : State.reset.script = [] ∧ State.reset.busy = false ∧
    (during phDone 0).busy = false ∧ (during phFault 0).busy = false ∧ (during phFault 0).phase.toNat ≤ 10 := by
  decide +kernel

/-! ### The context model and the entropy decoder -/

theorem witness_ProbReadReturnsTheSlot : (384 : BitVec 9).toNat < 385 ∧ 385 ≤ (385 : BitVec 9).toNat ∧
    385 ≤ (511 : BitVec 9).toNat := by decide

theorem witness_ProbUpdateAdaptsTheSlot : (0 : BitVec 9).toNat < 385 ∧ (384 : BitVec 9).toNat < 385 := by decide

theorem feeds_none : Feeds (during phSop 4096) [] := feeds_nil_iff.mpr (by decide +kernel)

theorem feeds_one : Feeds (withInput [0xff] (during phSop 4095)) [0xff] :=
  feeds_cons_iff.mpr ⟨by decide +kernel, by decide +kernel, by decide +kernel, feeds_nil_iff.mpr (by decide +kernel)⟩

/-- V2.31: nothing but zero bytes. -/
theorem starves_two : Starves (withInput [0, 0] (during phSop 0)) [0, 0] :=
  starves_cons_iff.mpr ⟨by decide +kernel, by decide +kernel, by decide +kernel,
    starves_cons_iff.mpr ⟨by decide +kernel, by decide +kernel, by decide +kernel, starves_now (by decide +kernel)⟩⟩

theorem witness_RenormConsumesUntil4096 : (∃ s, Feeds s []) ∧ (∃ s bs, bs ≠ [] ∧ Feeds s bs) ∧ (∃ s, Starves s []) ∧
    (∃ s bs, bs ≠ [] ∧ Starves s bs) ∧ InputBacked State.reset :=
  ⟨⟨_, feeds_none⟩, ⟨_, _, by decide, feeds_one⟩, ⟨during phSop 4095, starves_now (by decide +kernel)⟩,
    ⟨_, _, by decide, starves_two⟩, by intro a h1 h2; simp [State.reset] at h2⟩

theorem witness_StateUpdateFollowsTheFormula :
    (true = decide ((during phSop one).state.toNat % 256 < (128 : Byte).toNat)) ∧
    (false = decide ((during phSop zero).state.toNat % 256 < (128 : Byte).toNat)) := by decide +kernel

/-- A bit DECIDE does not give, where the formula stays within the naturals. -/
theorem witness_StateUpdateCompletesOnAnyBit :
    (127 : Byte).toNat ≤ (256 - (127 : Byte).toNat) * ((during phSop one).state.toNat / 256)
      + (during phSop one).state.toNat % 256 := by decide +kernel

/-- V2.11, V2.13, and V2.18 for the second half. -/
theorem witness_StateUpdateShrinksTheState :
    (∃ t, exec (.stupd true 7) (during phSop 4096) = .next t) ∧
    true = decide ((during phSop 4096).state.toNat % 256 < (7 : Byte).toNat) ∧
    (∃ t, exec (.stupd false 249) (during phSop 4351) = .next t) ∧
    false = decide ((during phSop 4351).state.toNat % 256 < (249 : Byte).toNat) ∧
    (∃ s bs, Feeds s bs ∧ s.state.toNat = 16) :=
  ⟨⟨_, rfl⟩, by decide +kernel, ⟨_, rfl⟩, by decide +kernel,
    withInput [0x00] (during phSop 16), [0x00],
    feeds_cons_iff.mpr ⟨by decide +kernel, by decide +kernel, by decide +kernel, feeds_nil_iff.mpr (by decide +kernel)⟩,
    by decide +kernel⟩

theorem witness_DecbitTakesTheDecision : (384 : BitVec 9).toNat < 385 ∧ (∃ s t, Decides 384 s true t) ∧
    (∃ s t, Decides 384 s false t) ∧ (∃ s bs, Feeds s bs) ∧ ∃ s, Starves s [] :=
  ⟨by decide, ⟨during phSop one, decides_of (by decide +kernel)⟩, ⟨during phSop zero, decides_of (by decide +kernel)⟩,
    ⟨_, _, feeds_none⟩, ⟨during phSop 4095, starves_now (by decide +kernel)⟩⟩

/-! ### The decoders of codes and literals -/

/-- Continue slots are the odd contexts. -/
def odd (below i : Nat) : Bool := i % 2 == 1 && i < below

theorem witness_DeclenReadsTheLengthCode :
    (∃ s t, DecidesAll (valueDecisions 257 0 [] ++ [(257, false)]) s t) ∧
    (∃ s t, DecidesAll (valueDecisions 321 0 (List.replicate 31 false) ++ [(383, false)]) s t) ∧
    (∃ s t, DecidesAll (valueDecisions 257 0 (List.replicate 31 false) ++ [(319, true)]) s t) ∧
    (∃ s t, DecidesAll (valueDecisions 257 0 []) s t ∧ Starves t []) ∧
    (∃ s t, DecidesAll (valueDecisions 257 0 (List.replicate 30 false ++ [true])) s t ∧ Starves t []) ∧
    (∃ s t, DecidesAll (valueDecisions 321 0 [] ++ [(321, true)]) s t ∧ Starves t []) ∧
    (∃ s t, DecidesAll (valueDecisions 321 0 (List.replicate 30 false) ++ [(381, true)]) s t ∧ Starves t []) := by
  refine ⟨⟨rigged (odd 257) 0x100000, ?_⟩, ⟨rigged (odd 383) 0x100000, ?_⟩, ⟨rigged (odd 385) 0x100000, ?_⟩,
    ⟨rigged (odd 385) 4095, ?_⟩, ⟨rigged (fun i => odd 385 i || i == 318) 4609, ?_⟩,
    ⟨rigged (odd 385) 4096, ?_⟩, ⟨rigged (odd 385) 4591, ?_⟩⟩
  iterate 3
    refine (carries_sound (p := fun _ => true) ?_).imp fun _ h => h.1
    decide +kernel
  iterate 4
    refine carries_then_starves ?_
    decide +kernel

theorem witness_LContContinuesOrDelivers :
    (∃ s t, Decides s.lctx.toNat s true t ∧ s.bitPos = 31) ∧ (∃ s t, Decides s.lctx.toNat s true t ∧ s.bitPos = 30) ∧
    (∃ s t, Decides s.lctx.toNat s false t ∧ s.lsel = true ∧ s.bitPos = 31) ∧
    (∃ s t, Decides s.lctx.toNat s false t ∧ s.lsel = false ∧ lengthValue s = 1) ∧
    (∃ s t, Decides s.lctx.toNat s false t ∧ s.lsel = false ∧ lengthValue s = 2) := by
  refine ⟨⟨{ during phLCont one with bitPos := 31, lctx := 319 }, ?_⟩,
    ⟨{ during phLCont one with bitPos := 30, lctx := 317 }, ?_⟩,
    ⟨{ during phLCont zero with bitPos := 31, lctx := 383, lsel := true }, ?_⟩,
    ⟨{ during phLCont zero with lctx := 257 }, ?_⟩, ⟨{ during phLCont zero with bitPos := 1, lctx := 259 }, ?_⟩⟩
  · exact (decides_of (by decide +kernel)).imp fun _ h => ⟨h, rfl⟩
  · exact (decides_of (by decide +kernel)).imp fun _ h => ⟨h, rfl⟩
  · exact (decides_of (by decide +kernel)).imp fun _ h => ⟨h, rfl, rfl⟩
  · exact (decides_of (by decide +kernel)).imp fun _ h => ⟨h, rfl, by decide +kernel⟩
  · exact (decides_of (by decide +kernel)).imp fun _ h => ⟨h, rfl, by decide +kernel⟩

theorem witness_LValTakesAValueBit :
    (∃ s t, Decides (s.lctx.toNat + 1) s true t ∧ s.bitPos.toNat = 30) ∧
    (∃ s t, Decides (s.lctx.toNat + 1) s false t ∧ s.bitPos.toNat = 0) ∧ ∃ s, Starves s [] := by
  refine ⟨⟨{ during phLVal one with bitPos := 30, lctx := 381 }, ?_⟩, ⟨{ during phLVal zero with lctx := 257 }, ?_⟩,
    ⟨during phLVal 4095, starves_now (by decide +kernel)⟩⟩
  · exact (decides_of (by decide +kernel)).imp fun _ h => ⟨h, rfl⟩
  · exact (decides_of (by decide +kernel)).imp fun _ h => ⟨h, rfl⟩

theorem witness_DeclitReadsTheLiteral :
    (∃ s t, DecidesAll (treeDecisions 0xFF) s t) ∧ (∃ s t, DecidesAll (treeDecisions 0x00) s t) ∧
    (∃ s t, DecidesAll ((treeDecisions 0xFF).take 0) s t ∧ Starves t []) ∧
    (∃ s t, DecidesAll ((treeDecisions 0xFF).take 7) s t ∧ Starves t []) := by
  refine ⟨⟨rigged (fun _ => true) 0x100000, ?_⟩, ⟨rigged (fun _ => false) 0x100000, ?_⟩,
    ⟨rigged (fun _ => true) 4095, ?_⟩, ⟨rigged (fun _ => true) 4192, ?_⟩⟩
  iterate 2
    refine (carries_sound (p := fun _ => true) ?_).imp fun _ h => h.1
    decide +kernel
  iterate 2
    refine carries_then_starves ?_
    decide +kernel

theorem witness_LitBitShiftsInADecision :
    (∃ s t, Decides s.byte.toNat s true t ∧ s.byte.toNat = 255) ∧
    (∃ s t, Decides s.byte.toNat s false t ∧ s.byte.toNat = 1) ∧ ∃ s, Starves s [] := by
  refine ⟨⟨{ during phLitBit one with byte := 255 }, ?_⟩, ⟨{ during phLitBit zero with byte := 1 }, ?_⟩,
    ⟨during phLitBit 4095, starves_now (by decide +kernel)⟩⟩
  · exact (decides_of (by decide +kernel)).imp fun _ h => ⟨h, rfl⟩
  · exact (decides_of (by decide +kernel)).imp fun _ h => ⟨h, rfl⟩

/-- LIT_EMIT, EMIT, LIT: room for one byte, and none. -/
theorem witness_LitEmitAppendsTheLiteral :
    ({ during phLitEmit 0 with writePos := 0x1FF } : State).writePos.toNat < (during phLitEmit 0).dstEnd.toNat ∧
    backedAt (during phLitEmit 0).outBacking 0x1FF = true ∧
    (during phLitEmit 0).dstEnd.toNat ≤ ({ during phLitEmit 0 with writePos := 0x200 } : State).writePos.toNat := by
  decide +kernel

theorem witness_LitAppendsItsField : (during phSop 0).writePos.toNat < (during phSop 0).dstEnd.toNat ∧
    backedAt (during phSop 0).outBacking (during phSop 0).writePos.toNat = true ∧
    State.reset.dstEnd.toNat ≤ State.reset.writePos.toNat := by decide +kernel

/-! ### The top of a symbol, and matches -/

theorem witness_SopDispatches : (∃ s t, Decides 0 s true t ∧ s.pwm = true) ∧ (∃ s t, Decides 0 s true t ∧ s.pwm = false) ∧
    (∃ s t, Decides 0 s false t) ∧ ∃ s, Starves s [] := by
  refine ⟨⟨{ during phSop one with pwm := true }, ?_⟩, ⟨during phSop one, ?_⟩,
    ⟨during phSop zero, decides_of (by decide +kernel)⟩, ⟨during phSop 4095, starves_now (by decide +kernel)⟩⟩
  · exact (decides_of (by decide +kernel)).imp fun _ h => ⟨h, rfl⟩
  · exact (decides_of (by decide +kernel)).imp fun _ h => ⟨h, rfl⟩

theorem witness_MHasoffChoosesTheCode : (∃ s t, Decides 256 s true t) ∧ (∃ s t, Decides 256 s false t) ∧
    ∃ s, Starves s [] :=
  ⟨⟨during phMHasoff one, decides_of (by decide +kernel)⟩, ⟨during phMHasoff zero, decides_of (by decide +kernel)⟩,
    ⟨during phMHasoff 4095, starves_now (by decide +kernel)⟩⟩

/-- Offsets 1, 3 (all that is written), 0 and 4. -/
theorem witness_MChkValidatesTheOffset : (abc phMChk 1 1 0x200).dstBase.toNat ≤ (abc phMChk 1 1 0x200).writePos.toNat ∧
    1 ≤ (abc phMChk 1 1 0x200).offset.toNat ∧
    (abc phMChk 3 1 0x200).offset.toNat = (abc phMChk 3 1 0x200).writePos.toNat - (abc phMChk 3 1 0x200).dstBase.toNat ∧
    (abc phMChk 0 1 0x200).offset.toNat = 0 ∧
    (abc phMChk 4 1 0x200).offset.toNat
      = (abc phMChk 4 1 0x200).writePos.toNat - (abc phMChk 4 1 0x200).dstBase.toNat + 1 := by decide +kernel

theorem witness_MCopyCopiesOneByte :
    ((abc phMCopy 1 1 0x104).writePos.toNat < (abc phMCopy 1 1 0x104).dstEnd.toNat ∧ (abc phMCopy 1 1 0x104).rem.toNat = 1 ∧
      (abc phMCopy 1 1 0x104).offset.toNat ≤ (abc phMCopy 1 1 0x104).writePos.toNat ∧
      backedAt (abc phMCopy 1 1 0x104).outBacking 0x103 = true ∧
      (abc phMCopy 1 1 0x104).readOut (0x103 - 1) = some 0x63) ∧
    (abc phMCopy 3 2 0x104).rem.toNat = 2 ∧ (abc phMCopy 3 2 0x104).readOut (0x103 - 3) = some 0x61 ∧
    (abc phMCopy 1 1 0x103).dstEnd.toNat ≤ (abc phMCopy 1 1 0x103).writePos.toNat := by decide +kernel

/-- Offset 3 (all that is written), and lengths 1 and 2 into a buffer with room for exactly two more. -/
theorem witness_MatchCopiesItsBytes : 1 ≤ (1 : Word).toNat ∧ 1 ≤ (3 : Word).toNat ∧
    (abc phSop 3 0 0x105).dstBase.toNat + (3 : Word).toNat = (abc phSop 3 0 0x105).writePos.toNat ∧
    OutBacked (abc phSop 3 0 0x105) 0x100 0x105 ∧
    (abc phSop 3 0 0x105).writePos.toNat + (2 : Word).toNat = (abc phSop 3 0 0x105).dstEnd.toNat ∧
    (abc phSop 3 0 0x105).offset = 3 :=
  ⟨by decide, by decide, by decide +kernel, outBacked_of rfl (by decide), by decide +kernel, rfl⟩

theorem witness_OffsetOneRepeatsTheLastByte : 1 ≤ (1 : Word).toNat ∧
    (abc phSop 0 0 0x104).dstBase.toNat < (abc phSop 0 0 0x104).writePos.toNat ∧
    (abc phSop 0 0 0x104).readOut ((abc phSop 0 0 0x104).writePos.toNat - 1) = some 0x63 ∧
    OutBacked (abc phSop 0 0 0x104) 0x103 0x104 ∧
    (abc phSop 0 0 0x104).writePos.toNat + (1 : Word).toNat ≤ (abc phSop 0 0 0x104).dstEnd.toNat :=
  ⟨by decide, by decide +kernel, by decide +kernel, outBacked_of rfl (by decide), by decide +kernel⟩

/-- No room at all, and room for all but one byte. -/
theorem witness_MatchThatDoesNotFitIsCutAtTheLimit :
    ((abc phSop 3 0 0x103).dstEnd.toNat < (abc phSop 3 0 0x103).writePos.toNat + (1 : Word).toNat ∧
      OutBacked (abc phSop 3 0 0x103) 0x100 0x103 ∧ (abc phSop 3 0 0x103).offset = 3) ∧
    (abc phSop 3 0 0x107).dstEnd.toNat + 1 = (abc phSop 3 0 0x107).writePos.toNat + (5 : Word).toNat :=
  ⟨⟨by decide +kernel, outBacked_of rfl (by decide), rfl⟩, by decide +kernel⟩

theorem witness_InvalidOffsetComesBeforeOverflow :
    (abc phSop 0 0 0x103).dstBase.toNat ≤ (abc phSop 0 0 0x103).writePos.toNat ∧ (0 : Word).toNat = 0 ∧
    (abc phSop 4 0 0x103).writePos.toNat - (abc phSop 4 0 0x103).dstBase.toNat + 1 = (4 : Word).toNat ∧
    (abc phSop 4 0 0x103).offset = 4 := by decide +kernel

/-! ### The whole engine -/

/-- A busy state, one step of the engine, and what both look like. -/
def stepsTo (s : State) (p : State → Bool) : Bool := s.busy && nextIs (engineStep s) p

theorem stepsTo_sound {s : State} {p : State → Bool} (h : stepsTo s p = true) :
    s.busy = true ∧ ∃ t, engineStep s = .next t ∧ p t = true := by
  unfold stepsTo nextIs at h
  rw [Bool.and_eq_true] at h
  refine ⟨h.1, ?_⟩
  split at h
  · exact ⟨_, ‹_›, h.2⟩
  · exact absurd h.2 (by decide)

theorem witness_EngineFollowsTheTransitionTable : ∃ s, s.busy = true ∧ ∃ t, engineStep s = .next t ∧ t.phase == phMHasoff :=
  ⟨_, stepsTo_sound (s := during phSop one) (by decide +kernel)⟩

/-- S13. -/
theorem witness_OnlyTheSentinelReachesDone : ∃ s, s.busy = true ∧ ∃ t, engineStep s = .next t ∧ t.phase == phDone :=
  ⟨_, stepsTo_sound (s := { during phLCont zero with lctx := 257, offset := 7, pwm := true }) (by decide +kernel)⟩

theorem witness_EngineWritesOnlyAtWritePos : ∃ s, s.busy = true ∧ ∃ t, engineStep s = .next t ∧ t.writePos == 0x104 :=
  ⟨_, stepsTo_sound (s := abc phMCopy 1 1 0x104) (by decide +kernel)⟩

/-- A decision at the last context the table has, one that runs out of input, and a phase without one. -/
theorem witness_ProbabilitiesChangeOnlyByADecision :
    (decisionContext { during phLVal one with bitPos := 30, lctx := 383 } = some 384 ∧
      ∃ t, engineStep { during phLVal one with bitPos := 30, lctx := 383 } = .next t ∧ t.probs[384] == 136) ∧
    (decisionContext (during phSop 0) = some 0 ∧ ∃ t, engineStep (during phSop 0) = .next t ∧ t.cause == 1) ∧
    (decisionContext (during phLitEmit 0) = none ∧ ∃ t, engineStep (during phLitEmit 0) = .next t ∧ t.probs[0] == 128) :=
  ⟨⟨by decide +kernel, (stepsTo_sound (by decide +kernel)).2⟩, ⟨by decide +kernel, (stepsTo_sound (by decide +kernel)).2⟩,
    by decide +kernel, (stepsTo_sound (by decide +kernel)).2⟩

theorem witness_CursorsAdvanceWithinTheirLimits : ∃ s, s.busy = true ∧ ∃ t, engineStep s = .next t ∧
    (t.cursor == t.srcEnd && s.cursor.toNat ≤ s.srcEnd.toNat && s.writePos.toNat ≤ s.dstEnd.toNat) :=
  ⟨_, stepsTo_sound (s := withInput [0x82, 0x00] (during phSop 0)) (by decide +kernel)⟩

/-- F11, S10, S24, S17: the four faults. -/
theorem witness_FaultsAreTheFourOfTheTable :
    (∃ s, s.busy = true ∧ ∃ t, engineStep s = .next t ∧ (t.phase == phFault && t.cause == 1)) ∧
    (∃ s, s.busy = true ∧ ∃ t, engineStep s = .next t ∧ (t.phase == phFault && t.cause == 2)) ∧
    (∃ s, s.busy = true ∧ ∃ t, engineStep s = .next t ∧ (t.phase == phFault && t.cause == 3)) ∧
    (∃ s, s.busy = true ∧ ∃ t, engineStep s = .next t ∧ (t.phase == phFault && t.cause == 4)) :=
  ⟨⟨_, stepsTo_sound (s := during phSop 0) (by decide +kernel)⟩,
    ⟨_, stepsTo_sound (s := { during phLitEmit 5000 with writePos := 0x200 }) (by decide +kernel)⟩,
    ⟨_, stepsTo_sound (s := abc phMChk 0 2 0x200) (by decide +kernel)⟩,
    ⟨_, stepsTo_sound (s := { during phLCont one with bitPos := 31, lctx := 319 }) (by decide +kernel)⟩⟩

/-- The model's stops: each entry the rules exclude, at its boundary. -/
theorem witness_ExcludedEntriesStopByName :
    (∃ s t, Decides s.byte.toNat s true t ∧ s.byte.toNat = 256) ∧
    (∃ s bs, Feeds s bs ∧ s.byte.toNat = 385) ∧
    (∃ s t, Decides (s.lctx.toNat + 1) s true t ∧ s.bitPos.toNat = 31) ∧
    ((abc phMCopy 1 0 0x104).rem.toNat = 0 ∧ (abc phMCopy 1 0 0x104).writePos.toNat < (abc phMCopy 1 0 0x104).dstEnd.toNat) ∧
    (abc phMCopy 0x104 1 0x104).writePos.toNat + 1 = (abc phMCopy 0x104 1 0x104).offset.toNat ∧
    (backedAt ({ abc phMCopy 3 1 0x104 with outBacking := [⟨0x101, 0x200⟩] } : State).outBacking (0x103 - 3) = false ∧
      backedAt ({ abc phMCopy 3 1 0x104 with outBacking := [⟨0x100, 0x103⟩] } : State).outBacking 0x103 = false) ∧
    385 ≤ (385 : BitVec 9).toNat ∧
    (({ during phSop 4095 with srcEnd := 1 } : State).state.toNat < 4096 ∧
      backedAt ({ during phSop 4095 with srcEnd := 1, inBacking := [⟨1, 2⟩] } : State).inBacking 0 = false) := by
  refine ⟨⟨{ during phLitBit one with byte := 256 }, ?_⟩, ⟨{ during phLitBit 4096 with byte := 385 }, [], ?_⟩,
    ⟨{ during phLVal one with bitPos := 31, lctx := 319 }, ?_⟩, by decide +kernel⟩
  · exact (decides_of (by decide +kernel)).imp fun _ h => ⟨h, rfl⟩
  · exact ⟨feeds_nil_iff.mpr (by decide +kernel), rfl⟩
  · exact (decides_of (by decide +kernel)).imp fun _ h => ⟨h, rfl⟩

/-- A machine about to be started on P0, with what an earlier decode left in `left`. -/
def ready (left : Byte) (phase : BitVec 4) : State :=
  { withInput [0x82, 0x00] (during phase 7) with
    probs := Vector.replicate Config.nCtx left, offset := left.setWidth 32, pwm := true, dstBase := 0
    srcSet := true, srcEndSet := true, dstSet := true, dstEndSet := true }

theorem p0_inv : Inv p0 where
  inCanonical := by decide +kernel
  outCanonical := by decide +kernel
  phaseLegal := by decide +kernel
  causeLegal := by decide +kernel
  faultRecorded := by decide +kernel
  noStaleInfo := by decide +kernel
  decoding := fun _ =>
    { stateBound := by decide +kernel
      stateFloor := .inr (by decide +kernel)
      probsRange := by
        intro i p h
        have hp : p = 128 := by
          simp only [p0, withInput, during, Vector.getElem?_replicate] at h
          split at h <;> simp_all
        subst hp
        decide
      lengthCode := by decide +kernel
      valPosition := by decide +kernel
      treePosition := by decide +kernel
      treeDone := by decide +kernel
      toCopy := by decide +kernel
      copyOffset := by decide +kernel
      outStart := by decide +kernel
      outFilled := by intro a h1 h2; exact absurd (Nat.lt_of_le_of_lt h1 h2) (by decide +kernel)
      inputBacked := inputBacked_of rfl
      outBacked := outBacked_of rfl (Nat.le_of_lt (BitVec.isLt _)) }

theorem ready_inv (left : Byte) : Inv (ready left phIdle) where
  inCanonical := rfl
  outCanonical := rfl
  phaseLegal := by show (0 : Nat) ≤ 10; decide
  causeLegal := by show (0 : Nat) ≤ 4; decide
  faultRecorded := by show (0 : BitVec 4) = 10 ↔ (0 : BitVec 3) ≠ 0; decide
  noStaleInfo := fun _ => rfl
  decoding := fun h => absurd (show false = true from h) (by decide)

theorem witness_StepKeepsTheInvariant : Inv p0 ∧ ∃ t, step p0 = .next t :=
  ⟨p0_inv, (stepsTo_sound (s := p0) (p := fun _ => true) (by decide +kernel)).2.imp fun _ h => h.1⟩

theorem witness_EngineNeverStopsOnBackedInput : Inv p0 := p0_inv

theorem witness_EveryDecodeEnds : Inv p0 ∧ p0.busy = true ∧ p0.script = [] := ⟨p0_inv, by decide +kernel, rfl⟩

theorem witness_SymbolStepIsARunOfPhaseSteps : p0.script = [] ∧ p0.phase = phSop := ⟨rfl, rfl⟩

theorem witness_UnpackIsARunOfPhaseSteps : p0.script = [] ∧ p0.phase = phSop := ⟨rfl, rfl⟩

/-- One symbol of each kind, with fields at the ends of their ranges. -/
def symbolWitness (i : Instr) (pwm : Bool) (ones : Nat → Bool) : Bool :=
  match symbolDecisions pwm i with
  | some ds => i.wf && carries ds { rigged ones 0x100000 with pwm := pwm } (fun _ => true)
  | none => false

theorem symbolWitness_sound {i : Instr} {pwm : Bool} {ones : Nat → Bool} (h : symbolWitness i pwm ones = true) :
    ∃ s ds t, s.phase = phSop ∧ i.wf = true ∧ symbolDecisions s.pwm i = some ds ∧ DecidesAll ds s t := by
  unfold symbolWitness at h
  split at h
  · rw [Bool.and_eq_true] at h
    obtain ⟨t, ht, _⟩ := carries_sound h.2
    exact ⟨{ rigged ones 0x100000 with pwm := pwm }, _, t, rfl, h.1, ‹_›, ht⟩
  · cases h

theorem witness_StreamDecisionsAreReadAsTheirSymbol :
    symbolWitness (.lit 0x00) false (fun _ => false) = true ∧ symbolWitness (.lit 0xFF) true (fun i => i != 0) = true ∧
    symbolWitness (.matchR 1) false (fun i => i == 0) = true ∧
    symbolWitness (.matchR 2) false (fun i => i ∈ [0, 321]) = true ∧
    symbolWitness (.matchN 1 1) false (fun i => i ∈ [0, 256, 257]) = true ∧
    symbolWitness (.matchC 0xFFFFFFFE 1) true (fun i => i == 0 || (i > 256 && i < 319)) = true ∧
    symbolWitness .endN false (fun i => i ∈ [0, 256]) = true ∧ symbolWitness .endC true (fun i => i == 0) = true := by
  decide +kernel

/-- Two machines that differ in what an earlier decode left, about to be started on the same input. -/
theorem witness_DecodeDependsOnlyOnItsInput :
    Inv (ready 7 phIdle) ∧ Inv (ready 249 phIdle) ∧ (ready 7 phIdle).busy = false ∧
    (ready 7 phIdle).cursor = (ready 249 phIdle).cursor ∧ (ready 7 phIdle).inMem = (ready 249 phIdle).inMem ∧
    (ready 7 phIdle).launchReady = true ∧ (∃ u, exec .start (ready 7 phIdle) = .next u) ∧
    ∃ u, exec .start (ready 249 phIdle) = .next u :=
  ⟨ready_inv 7, ready_inv 249, rfl, rfl, rfl, rfl, ⟨_, rfl⟩, ⟨_, rfl⟩⟩

/-! ### Encodings -/

theorem witness_DecodeInvertsEncode :
    ((Instr.matchN 0xFFFFFFFE 0xFFFFFFFF).wf = true ∧ (encode false (.matchN 0xFFFFFFFE 0xFFFFFFFF)).isSome = true) ∧
    ((Instr.lit 0xFF).wf = true ∧ (encode true (.lit 0xFF)).isSome = true) ∧
    (encode true .sop = some (.phase 1)) ∧ encode true .declit = none ∧ encode true .endN = none ∧
    encode false (.matchC 1 1) = none := by decide +kernel

theorem witness_EncodeInvertsDecode : decode (.stream true [(0, true), (257, false)]) = .ok .endC ∧
    decode (.phase 10) = .ok .faulted := by decide

theorem witness_SymbolsDelimitThemselves : (Instr.matchC 0xFFFFFFFE 1).wf = true ∧
    (symbolDecisions true (.matchC 0xFFFFFFFE 1)).isSome = true ∧ (Instr.lit 0).wf = true ∧
    (symbolDecisions false (.lit 0)).isSome = true := by decide +kernel

theorem witness_SelectorPicksTheRowOfTheSymbol : (Instr.matchR 1).wf = true ∧
    (symbolDecisions false (.matchR 1)).isSome = true ∧ (symbolDecisions true .endC).isSome = true := by decide +kernel

end Sys2Proof.Tests
end

section
/-! # The engine's step, phase by phase -/

namespace Sys2Proof.Machine

/-! ## Which operation a phase runs (45_top_fsm R193) -/

theorem engineStep_of_decode {s : State} {i : Instr} (h : decodePhase s.phase = .ok i) : engineStep s = exec i s := by
  simp only [engineStep, fetchPhase, h]

theorem engineStep_idle {s : State} (h : s.phase = phIdle) : engineStep s = .next s :=
  engineStep_of_decode (i := .idle) (by rw [h]; rfl)
theorem engineStep_sop {s : State} (h : s.phase = phSop) : engineStep s = execSop s :=
  engineStep_of_decode (i := .sop) (by rw [h]; rfl)
theorem engineStep_litBit {s : State} (h : s.phase = phLitBit) : engineStep s = execLitBit s :=
  engineStep_of_decode (i := .litBit) (by rw [h]; rfl)
theorem engineStep_litEmit {s : State} (h : s.phase = phLitEmit) : engineStep s = execLitEmit s :=
  engineStep_of_decode (i := .litEmit) (by rw [h]; rfl)
theorem engineStep_mHasoff {s : State} (h : s.phase = phMHasoff) : engineStep s = execMHasoff s :=
  engineStep_of_decode (i := .mHasoff) (by rw [h]; rfl)
theorem engineStep_lCont {s : State} (h : s.phase = phLCont) : engineStep s = execLCont s :=
  engineStep_of_decode (i := .lCont) (by rw [h]; rfl)
theorem engineStep_lVal {s : State} (h : s.phase = phLVal) : engineStep s = execLVal s :=
  engineStep_of_decode (i := .lVal) (by rw [h]; rfl)
theorem engineStep_mChk {s : State} (h : s.phase = phMChk) : engineStep s = execMChk s :=
  engineStep_of_decode (i := .mChk) (by rw [h]; rfl)
theorem engineStep_mCopy {s : State} (h : s.phase = phMCopy) : engineStep s = execMCopy s :=
  engineStep_of_decode (i := .mCopy) (by rw [h]; rfl)
theorem engineStep_done {s : State} (h : s.phase = phDone) : engineStep s = .next s :=
  engineStep_of_decode (i := .done) (by rw [h]; rfl)
theorem engineStep_faulted {s : State} (h : s.phase = phFault) : engineStep s = .next s :=
  engineStep_of_decode (i := .faulted) (by rw [h]; rfl)

/-! ## A decision leaves the registers of the symbol -/

theorem Decides.pwm {c : Nat} {s t : State} {b : Bool} (h : Decides c s b t) : t.pwm = s.pwm := by rw [h.frame]; rfl
theorem Decides.byte {c : Nat} {s t : State} {b : Bool} (h : Decides c s b t) : t.byte = s.byte := by rw [h.frame]; rfl
theorem Decides.bitPos {c : Nat} {s t : State} {b : Bool} (h : Decides c s b t) : t.bitPos = s.bitPos := by
  rw [h.frame]; rfl
theorem Decides.lctx {c : Nat} {s t : State} {b : Bool} (h : Decides c s b t) : t.lctx = s.lctx := by rw [h.frame]; rfl
theorem Decides.lsel {c : Nat} {s t : State} {b : Bool} (h : Decides c s b t) : t.lsel = s.lsel := by rw [h.frame]; rfl
theorem Decides.lengthValue {c : Nat} {s t : State} {b : Bool} (h : Decides c s b t) :
    lengthValue t = lengthValue s := by rw [h.frame]; rfl

/-- A partial byte of at most 255 takes one more bit without wrapping. -/
theorem byteWithBit_toNat {s : State} (b : Bool) (h : s.byte.toNat ≤ 255) :
    (byteWithBit s b).toNat = 2 * s.byte.toNat + b.toNat := by
  have := b.toNat_lt
  simp only [byteWithBit, BitVec.toNat_ofNat]
  omega

/-! ## The cases of a step are all of them, and each happens -/

/-- The decision of the step runs out of input. -/
theorem engineStep_starved {s : State} {bs : List Byte} (hs : Starves s bs)
    (hp : s.phase ∈ [phSop, phLitBit, phMHasoff, phLCont, phLVal]) : engineStep s = .next (truncated s bs) := by
  simp only [List.mem_cons, List.not_mem_nil, or_false] at hp
  rcases hp with hp | hp | hp | hp | hp
  · rw [engineStep_sop hp, execSop, decodeBit_starves hs]; rfl
  · rw [engineStep_litBit hp, execLitBit, decodeBit_starves hs]; rfl
  · rw [engineStep_mHasoff hp, execMHasoff, decodeBit_starves hs]; rfl
  · rw [engineStep_lCont hp, execLCont, decodeBit_starves hs]; rfl
  · rw [engineStep_lVal hp, execLVal, decodeBit_starves hs]; rfl

theorem execLitBit_decides {s t : State} {b : Bool} (hd : Decides s.byte.toNat s b t) (hb : s.byte.toNat ≤ 255) :
    execLitBit s = .next { t with
      byte := BitVec.ofNat 9 (2 * s.byte.toNat + b.toNat)
      phase := if 256 ≤ 2 * s.byte.toNat + b.toNat then phLitEmit else phLitBit } := by
  have hbt : t.byte.toNat ≤ 255 := by rw [hd.byte]; exact hb
  have hn := byteWithBit_toNat b hbt
  rw [execLitBit, show treeContext s = s.byte.toNat from rfl, decodeBit_decides hd, bind_ok,
    if_neg (by omega), toOutcome_ok, hn, byteWithBit, hd.byte]

/-- On a continue decision of 0 the value of the length code is delivered (42_length_decoder R154). -/
theorem execLCont_stop {s t : State} (hd : Decides s.lctx.toNat s false t) :
    execLCont s = .next (if s.lsel then deliverLength (lengthValue s) t else deliverOffset (lengthValue s) t) := by
  rw [execLCont, show contContext s = s.lctx.toNat from rfl, decodeBit_decides hd, bind_ok, if_neg Bool.false_ne_true,
    hd.lsel, hd.lengthValue]
  cases s.lsel <;> rfl

/-- Each case is what the engine does: with `engineStep_cases`, `EngineCase` is the step. -/
theorem EngineCase.engineStep_eq {s t : State} (h : EngineCase s t) : engineStep s = .next t := by
  cases h with
  | starved bs hs hp => exact engineStep_starved hs hp
  | sopLiteral u hp hd => rw [engineStep_sop hp, execSop, decodeBit_decides hd]; rfl
  | sopOffset u hp hd hw =>
    rw [engineStep_sop hp, execSop, decodeBit_decides hd, bind_ok, if_pos rfl, if_pos (hd.pwm.trans hw)]; rfl
  | sopHasoff u hp hd hw =>
    rw [engineStep_sop hp, execSop, decodeBit_decides hd, bind_ok, if_pos rfl, hd.pwm, hw]; rfl
  | treeBit b u hp hd hb => rw [engineStep_litBit hp, execLitBit_decides hd hb]
  | emitted hp hl hb =>
    rw [engineStep_litEmit hp, execLitEmit, emitByte, if_neg (by omega), storeOut, if_pos hb]; rfl
  | overflowed hp hl =>
    rcases hp with hp | hp
    · rw [engineStep_litEmit hp, execLitEmit, emitByte, if_pos hl]; rfl
    · rw [engineStep_mCopy hp, execMCopy, copyByte, if_pos hl]; rfl
  | hasoff b u hp hd => rw [engineStep_mHasoff hp, execMHasoff, decodeBit_decides hd]; rfl
  | continued u hp hd hb =>
    rw [engineStep_lCont hp, execLCont, show contContext s = s.lctx.toNat from rfl, decodeBit_decides hd, bind_ok,
      if_pos rfl, if_neg (by rwa [hd.bitPos])]; rfl
  | tooLong u hp hd hb =>
    rw [engineStep_lCont hp, execLCont, show contContext s = s.lctx.toNat from rfl, decodeBit_decides hd, bind_ok,
      if_pos rfl, if_pos (by rwa [hd.bitPos]), hd.lctx]; rfl
  | length u hp hd hl => rw [engineStep_lCont hp, execLCont_stop hd, if_pos hl]
  | sentinel u hp hd hl hv =>
    rw [engineStep_lCont hp, execLCont_stop hd, hl, deliverOffset_eq, if_pos hv]; rfl
  | offset u hp hd hl hv =>
    rw [engineStep_lCont hp, execLCont_stop hd, hl, deliverOffset_eq, if_neg hv]; rfl
  | valueBit b u hp hd hb =>
    rw [engineStep_lVal hp, execLVal, show valContext s = s.lctx.toNat + 1 from rfl, decodeBit_decides hd, bind_ok,
      if_neg (by rwa [hd.bitPos])]; rfl
  | checked hp h1 h2 =>
    rw [engineStep_mChk hp, execMChk, checkOffset, if_neg (by rw [offsetInvalid_iff]; omega)]; rfl
  | badOffset hp h1 => rw [engineStep_mChk hp, execMChk, checkOffset, if_pos ((offsetInvalid_iff s).mpr h1)]; rfl
  | copied v hp h1 h2 h3 hb hv =>
    rw [engineStep_mCopy hp, execMCopy, copyByte, if_neg (by omega), if_neg h2, if_neg (by omega), hv]
    simp only [storeOut, if_pos hb]; rfl
  | still hp =>
    rcases hp with hp | hp | hp
    · exact engineStep_idle hp
    · exact engineStep_done hp
    · exact engineStep_faulted hp

end Sys2Proof.Machine
end

section
/-! # Cursors and the probability table under an engine step -/

namespace Sys2Proof.Machine

/-! ## Cursors (10_state R22, R24, R47 g) -/

/-- Moving a cursor on by `n` does not wrap where it stays within a limit. -/
theorem cursor_add_toNat {c e : Word} {n : Nat} (h : n = 0 ∨ c.toNat + n ≤ e.toNat) :
    (c + BitVec.ofNat 32 n).toNat = c.toNat + n := by
  have := e.isLt
  have := c.isLt
  rw [BitVec.toNat_add, BitVec.toNat_ofNat]
  omega

theorem Feeds.cursor_toNat {s : State} {bs : List Byte} (h : Feeds s bs) :
    (s.cursor + BitVec.ofNat 32 bs.length).toNat = s.cursor.toNat + bs.length :=
  cursor_add_toNat (h.within.imp_left fun hn => by rw [hn]; rfl)

theorem Starves.cursor_toNat {s : State} {bs : List Byte} (h : Starves s bs) :
    (s.cursor + BitVec.ofNat 32 bs.length).toNat = s.cursor.toNat + bs.length := by
  have := h.allUsed
  exact cursor_add_toNat (e := s.srcEnd) (by omega)

/-- From `s` to `t` the cursors advance within limits that stay. -/
structure Advances (s t : State) : Prop where
  cursor : s.cursor.toNat ≤ t.cursor.toNat
  writePos : s.writePos.toNat ≤ t.writePos.toNat
  srcEnd : t.srcEnd = s.srcEnd
  dstEnd : t.dstEnd = s.dstEnd
  dstBase : t.dstBase = s.dstBase
  cursorWithin : s.cursor.toNat ≤ s.srcEnd.toNat → t.cursor.toNat ≤ t.srcEnd.toNat
  writePosWithin : s.writePos.toNat ≤ s.dstEnd.toNat → t.writePos.toNat ≤ t.dstEnd.toNat

theorem Advances.refl (s : State) : Advances s s := ⟨le_refl _, le_refl _, rfl, rfl, rfl, id, id⟩

theorem Decides.advances {c : Nat} {s t : State} {b : Bool} (h : Decides c s b t) : Advances s t := by
  obtain ⟨bs, p, hf, _, _, rfl⟩ := h
  have hcur := hf.cursor_toNat
  refine { Advances.refl s with cursor := ?_, cursorWithin := fun hle => ?_ }
  · simp only [decided_cursor, hcur]; omega
  · simp only [decided_cursor, decided_srcEnd, hcur]
    rcases hf.within with hn | hw
    · simpa [hn] using hle
    · exact hw

theorem Starves.advances {s : State} {bs : List Byte} (h : Starves s bs) : Advances s (truncated s bs) := by
  have hcur : (truncated s bs).cursor.toNat = s.cursor.toNat + bs.length := h.cursor_toNat
  have hused := h.allUsed
  refine { Advances.refl s with cursor := by omega, cursorWithin := fun hle => ?_ }
  rw [hcur, show (truncated s bs).srcEnd = s.srcEnd from rfl]
  omega

/-- One byte appended below `dst_end`. -/
theorem writePos_succ_toNat {s : State} (h : s.writePos.toNat < s.dstEnd.toNat) :
    (s.writePos + 1).toNat = s.writePos.toNat + 1 :=
  cursor_add_toNat (n := 1) (e := s.dstEnd) (.inr h)

theorem appendOut_advances {s : State} (v : Byte) (h : s.writePos.toNat < s.dstEnd.toNat) :
    Advances s (appendOut v s) := by
  have hw := writePos_succ_toNat h
  refine { Advances.refl s with writePos := ?_, writePosWithin := fun _ => ?_ }
  · rw [appendOut_writePos, hw]; omega
  · rw [appendOut_writePos, appendOut_dstEnd, hw]; omega

theorem EngineCase.advances {s t : State} (h : EngineCase s t) : Advances s t := by
  cases h with
  | starved bs hs _ => exact hs.advances
  | sopLiteral u _ hd | sopOffset u _ hd | sopHasoff u _ hd | treeBit b u _ hd | hasoff b u _ hd
  | continued u _ hd | tooLong u _ hd | length u _ hd | sentinel u _ hd | offset u _ hd | valueBit b u _ hd =>
    exact { hd.advances with }
  | emitted _ hl => exact { appendOut_advances (literalByte s) hl with }
  | copied v _ hl => rw [countCopied_eq]; exact { appendOut_advances v hl with }
  | overflowed | checked | badOffset | still => exact { Advances.refl s with }

/-- Settles O42: each case of the step moves a cursor by a decision or by one byte appended below `dst_end`. -/
theorem cursorsAdvanceWithinTheirLimits : Obligations.CursorsAdvanceWithinTheirLimits := by
  intro s t _ h
  obtain ⟨hc, hw, hse, hde, hdb, hcw, hww⟩ := (engineStep_cases h).advances
  exact ⟨hc, hw, hse, hde, hdb, hcw, hww⟩

/-! ## The probability table (10_state R37, 40_context_model R124) -/

/-- A decision updates the slot of its context, which the table has. -/
theorem Decides.probs {c : Nat} {s t : State} {b : Bool} (h : Decides c s b t) :
    ∃ hc : c < 385, t.probs = s.probs.set c (BitVec.ofNat 8 (nextProbability b s.probs[c].toNat)) hc := by
  obtain ⟨bs, p, _, hp, _, rfl⟩ := h
  obtain ⟨hc, hp⟩ := Vector.getElem?_eq_some_iff.mp hp
  exact ⟨hc, by
    rw [hp, decided_probs]; ext i hi; simp only [Vector.getElem_setIfInBounds, Vector.getElem_set]⟩

theorem decisionContext_sop {s : State} (h : s.phase = phSop) : decisionContext s = some 0 := by
  simp [decisionContext, h]
theorem decisionContext_litBit {s : State} (h : s.phase = phLitBit) : decisionContext s = some s.byte.toNat := by
  simp [decisionContext, h, treeContext]
theorem decisionContext_mHasoff {s : State} (h : s.phase = phMHasoff) : decisionContext s = some 256 := by
  simp [decisionContext, h]
theorem decisionContext_lCont {s : State} (h : s.phase = phLCont) : decisionContext s = some s.lctx.toNat := by
  simp [decisionContext, h, contContext]
theorem decisionContext_lVal {s : State} (h : s.phase = phLVal) : decisionContext s = some (s.lctx.toNat + 1) := by
  simp [decisionContext, h, valContext]
theorem decisionContext_none {s : State} (h : s.phase ∉ [phSop, phLitBit, phMHasoff, phLCont, phLVal]) :
    decisionContext s = none := by
  simp only [List.mem_cons, List.not_mem_nil, or_false, not_or] at h
  obtain ⟨h1, h2, h3, h4, h5⟩ := h
  rw [decisionContext, if_neg h1, if_neg h2, if_neg h3, if_neg h4, if_neg h5]

/-- What a step from `s` to `t` may do to the table. -/
def ProbsStep (s t : State) : Prop :=
  (∀ c, decisionContext s = some c →
    (t.probs = s.probs ∧ t.phase = phFault ∧ t.cause = 1) ∨
    ∃ (h : c < 385) (b : Bool), (∃ u, Decides c s b u) ∧
      t.probs = s.probs.set c (BitVec.ofNat 8 (nextProbability b s.probs[c].toNat)) h) ∧
  (decisionContext s = none → t.probs = s.probs)

theorem ProbsStep.of_decides {c : Nat} {s t u : State} {b : Bool} (hc : decisionContext s = some c)
    (hd : Decides c s b u) (ht : t.probs = u.probs) : ProbsStep s t := by
  refine ⟨fun c' hc' => .inr ?_, fun hn => by rw [hn] at hc; cases hc⟩
  obtain rfl : c = c' := Option.some.inj (hc.symm.trans hc')
  obtain ⟨hlt, hp⟩ := hd.probs
  exact ⟨hlt, b, ⟨u, hd⟩, ht.trans hp⟩

theorem ProbsStep.of_no_decision {s t : State} (h : s.phase ∉ [phSop, phLitBit, phMHasoff, phLCont, phLVal])
    (ht : t.probs = s.probs) : ProbsStep s t :=
  ⟨fun c hc => (by rw [decisionContext_none h] at hc; cases hc), fun _ => ht⟩

theorem EngineCase.probsStep {s t : State} (h : EngineCase s t) : ProbsStep s t := by
  cases h with
  | starved bs => exact ⟨fun _ _ => .inl ⟨rfl, rfl, rfl⟩, fun _ => rfl⟩
  | sopLiteral u hp hd | sopOffset u hp hd | sopHasoff u hp hd => exact .of_decides (decisionContext_sop hp) hd rfl
  | treeBit b u hp hd => exact .of_decides (decisionContext_litBit hp) hd rfl
  | hasoff b u hp hd => exact .of_decides (decisionContext_mHasoff hp) hd rfl
  | continued u hp hd | tooLong u hp hd | length u hp hd | sentinel u hp hd | offset u hp hd =>
    exact .of_decides (decisionContext_lCont hp) hd rfl
  | valueBit b u hp hd => exact .of_decides (decisionContext_lVal hp) hd rfl
  | emitted hp | checked hp | badOffset hp => exact .of_no_decision (by rw [hp]; decide) rfl
  | overflowed hp => exact .of_no_decision (by rcases hp with hp | hp <;> rw [hp] <;> decide) rfl
  | copied v hp => exact .of_no_decision (by rw [hp]; decide) (by rw [countCopied_eq]; rfl)
  | still hp => exact .of_no_decision (by rcases hp with hp | hp | hp <;> rw [hp] <;> decide) rfl

/-- Settles O41: in each case of the step the table is that of the phase's one decision, or unchanged. -/
theorem probabilitiesChangeOnlyByADecision : Obligations.ProbabilitiesChangeOnlyByADecision :=
  fun _ _ h => (engineStep_cases h).probsStep

end Sys2Proof.Machine
end

section
/-! # The host's register block -/

namespace Sys2Proof.Machine

/-! ## One host action (10_state R40 to R44) -/

theorem step_of_script {s : State} {act : HostAct} {rest : List HostAct} (h : s.script = act :: rest) :
    step s = boundary act { s with script := rest } := by
  simp only [step, nextMove, h]

/-- A read of a register returns its value and changes nothing else. -/
theorem step_regRead {s : State} {off : Nat} {rest : List HostAct} {r : HostReg} (hr : hostReg off = some r)
    (h : s.script = .regRead off :: rest) :
    step s = .next { s with script := rest, busData := hostRegValue r s } := by
  rw [step_of_script h]
  simp only [boundary, hostRead, hr, toOutcome_ok]
  cases r <;> rfl

/-- A write of any register but CTRL is the load of that register. -/
theorem step_regWrite {s : State} {off : Nat} {rest : List HostAct} {v : Word} {r : HostReg}
    (hr : hostReg off = some r) (hctrl : r ≠ .ctrl) (h : s.script = .regWrite off v :: rest) :
    step s = .next (hostLoad r v { s with script := rest }) := by
  rw [step_of_script h]
  cases r with
  | ctrl => exact absurd rfl hctrl
  | _ => simp only [boundary, hostWrite, hr, toOutcome_ok]

/-- A write of CTRL with bit 0 = 1 is START. -/
theorem step_ctrlWrite_set {s : State} {rest : List HostAct} {v : Word} (hv : v.getLsbD 0 = true)
    (h : s.script = .regWrite 0x00 v :: rest) : step s = exec .start { s with script := rest } := by
  rw [step_of_script h]
  show (hostWrite 0x00 v _).toOutcome = (startCommand _).toOutcome
  rw [hostWrite, show hostReg 0x00 = some .ctrl from rfl]
  simp only [hv, if_true]

/-- A write of CTRL with bit 0 = 0 does nothing. -/
theorem step_ctrlWrite_clear {s : State} {rest : List HostAct} {v : Word} (hv : v.getLsbD 0 = false)
    (h : s.script = .regWrite 0x00 v :: rest) : step s = .next { s with script := rest } := by
  rw [step_of_script h]
  show (hostWrite 0x00 v _).toOutcome = _
  rw [hostWrite, show hostReg 0x00 = some .ctrl from rfl]
  simp only [hv, Bool.false_eq_true, if_false, toOutcome_ok]

theorem hostReg_above {off : Nat} (h : 0x20 < off) : hostReg off = some .above := by
  unfold hostReg; rw [if_pos h]

/-! ## Loads (10_state R43, R44) -/

theorem hostLoad_busy {s : State} (r : HostReg) (v : Word) (h : s.busy = true) : hostLoad r v s = s := by
  unfold hostLoad; rw [if_pos h]

theorem hostLoad_src {s : State} (v : Word) (h : s.busy = false) :
    hostLoad .src v s = { s with cursor := v, srcSet := true } := by unfold hostLoad; rw [h]; rfl
theorem hostLoad_srcEnd {s : State} (v : Word) (h : s.busy = false) :
    hostLoad .srcEnd v s = { s with srcEnd := v, srcEndSet := true } := by unfold hostLoad; rw [h]; rfl
theorem hostLoad_dst {s : State} (v : Word) (h : s.busy = false) :
    hostLoad .dst v s = { s with writePos := v, dstSet := true } := by unfold hostLoad; rw [h]; rfl
theorem hostLoad_dstEnd {s : State} (v : Word) (h : s.busy = false) :
    hostLoad .dstEnd v s = { s with dstEnd := v, dstEndSet := true } := by unfold hostLoad; rw [h]; rfl

/-- A load of a register the host cannot write does nothing. -/
theorem hostLoad_readOnly {r : HostReg} (h : r ∈ [HostReg.ctrl, .status, .dstBase, .cause, .info, .above]) (v : Word)
    (s : State) : hostLoad r v s = s := by
  simp only [List.mem_cons, List.not_mem_nil, or_false] at h
  unfold hostLoad
  rcases h with rfl | rfl | rfl | rfl | rfl | rfl <;> exact ite_self s

/-! ## START -/

/-- Settles O4: one flag of the four being false is what `launchReady` looks at. -/
theorem startIsRefusedUntilTheRegistersAreWritten : Obligations.StartIsRefusedUntilTheRegistersAreWritten := by
  intro s hb hun
  have hl : s.launchReady = false := by
    rcases hun with h | h | h | h <;> simp [State.launchReady, h]
  show (startCommand s).toOutcome = _
  rw [startCommand, hb, hl]; rfl

/-- START while busy is ignored (10_state R41). -/
theorem exec_start_busy {s : State} (h : s.busy = true) : exec .start s = .next s := by
  show (startCommand s).toOutcome = _
  rw [startCommand, if_pos h]; rfl

/-- Settles O5, by the two writes of CTRL and the read that gives 0. -/
theorem ctrlWriteIsStart : Obligations.CtrlWriteIsStart := by
  intro s rest
  refine ⟨fun v h => ⟨fun hv _ => step_ctrlWrite_set hv h, fun hv hb => ?_, fun hv => step_ctrlWrite_clear hv h⟩,
    fun h => step_regRead (r := .ctrl) rfl h⟩
  rw [step_ctrlWrite_set hv h]
  exact exec_start_busy (s := { s with script := rest }) hb

/-! ## The registers -/

/-- STATUS over the eleven codes: the flags exclude each other, and none is 1 exactly in IDLE (10_state R42). -/
theorem status_flags {s : State} (h : s.phase.toNat ≤ 10) :
    (s.busy = true ↔ s.phase ∈ [phSop, phLitBit, phLitEmit, phMHasoff, phLCont, phLVal, phMChk, phMCopy]) ∧
    s.busy.toNat + s.doneFlag.toNat + s.faultFlag.toNat ≤ 1 ∧
    ((s.busy = false ∧ s.doneFlag = false ∧ s.faultFlag = false) ↔ s.phase = phIdle) := by
  unfold State.busy State.doneFlag State.faultFlag
  generalize s.phase = p at h
  revert p
  decide

theorem statusWord_toNat (s : State) : s.statusWord.toNat =
    16 * s.phase.toNat + (if s.busy then 1 else 0) + (if s.doneFlag then 2 else 0) + (if s.faultFlag then 4 else 0) := by
  have hp := s.phase.isLt
  rw [State.statusWord, BitVec.toNat_ofNat, Nat.mod_eq_of_lt (by
    have := s.busy.toNat_lt; have := s.doneFlag.toNat_lt; have := s.faultFlag.toNat_lt; omega)]
  have hflag : ∀ (b : Bool) (n : Nat), (if b then n else 0) = n * b.toNat := fun b n => by cases b <;> simp
  rw [hflag, hflag, hflag]
  omega

/-- Settles O6: the flags over the eleven codes, the word, and the read of offset 4. -/
theorem statusIsAFunctionOfPhase : Obligations.StatusIsAFunctionOfPhase := by
  intro s hp
  obtain ⟨hbusy, hone, hidle⟩ := status_flags hp
  exact ⟨hbusy, beq_iff_eq, beq_iff_eq, statusWord_toNat s, hone, hidle, rfl,
    fun rest h => step_regRead (r := .status) rfl h⟩

/-- Settles O7: each offset names its register, and a load sets it unless the engine is busy. -/
theorem hostWindowsOnTheFourRegisters : Obligations.HostWindowsOnTheFourRegisters := by
  intro s rest v
  let u : State := { s with script := rest }
  refine ⟨fun (hb : u.busy = true) off hoff h => ?_,
    fun (hb : u.busy = false) => ⟨fun h => ?_, fun h => ?_, fun h => ?_, fun h => ?_⟩,
    step_regRead (r := .src) rfl, step_regRead (r := .srcEnd) rfl, step_regRead (r := .dst) rfl,
    step_regRead (r := .dstEnd) rfl⟩
  · obtain ⟨r, hr, hctrl⟩ : ∃ r, hostReg off = some r ∧ r ≠ .ctrl := by
      simp only [List.mem_cons, List.not_mem_nil, or_false] at hoff
      rcases hoff with rfl | rfl | rfl | rfl
      exacts [⟨.src, rfl, by decide⟩, ⟨.srcEnd, rfl, by decide⟩, ⟨.dst, rfl, by decide⟩, ⟨.dstEnd, rfl, by decide⟩]
    rw [step_regWrite hr hctrl h, hostLoad_busy r v hb]
  · rw [step_regWrite (r := .src) rfl (by decide) h, hostLoad_src v hb]
  · rw [step_regWrite (r := .srcEnd) rfl (by decide) h, hostLoad_srcEnd v hb]
  · rw [step_regWrite (r := .dst) rfl (by decide) h, hostLoad_dst v hb]
  · rw [step_regWrite (r := .dstEnd) rfl (by decide) h, hostLoad_dstEnd v hb]

/-- The offsets the host cannot write, CTRL apart. -/
theorem hostReg_readOnly {off : Nat} (h : off ∈ [0x04, 0x18, 0x1C, 0x20] ∨ 0x20 < off) :
    ∃ r, hostReg off = some r ∧ r ≠ .ctrl ∧ r ∈ [HostReg.ctrl, .status, .dstBase, .cause, .info, .above] := by
  rcases h with h | h
  · simp only [List.mem_cons, List.not_mem_nil, or_false] at h
    rcases h with rfl | rfl | rfl | rfl
    exacts [⟨.status, rfl, by decide⟩, ⟨.dstBase, rfl, by decide⟩, ⟨.cause, rfl, by decide⟩, ⟨.info, rfl, by decide⟩]
  · exact ⟨.above, hostReg_above h, by decide⟩

/-- Settles O8: a load of a read-only register does nothing, and reads return the registers' values. -/
theorem readOnlyRegistersIgnoreWrites : Obligations.ReadOnlyRegistersIgnoreWrites := by
  intro s rest v off
  refine ⟨fun hoff h => ?_, step_regRead (r := .dstBase) rfl, step_regRead (r := .cause) rfl,
    step_regRead (r := .info) rfl, fun hoff => step_regRead (r := .above) (hostReg_above hoff)⟩
  obtain ⟨r, hr, hctrl, hro⟩ := hostReg_readOnly hoff
  rw [step_regWrite hr hctrl h, hostLoad_readOnly hro]

end Sys2Proof.Machine
end

section
/-! # The invariant of a decode under an engine step (10_state R47) -/

namespace Sys2Proof.Machine

/-! ## What a decision keeps of the registers outside the coder -/

theorem Decides.phase {c : Nat} {s t : State} {b : Bool} (h : Decides c s b t) : t.phase = s.phase := by
  rw [h.frame]; rfl
theorem Decides.cause {c : Nat} {s t : State} {b : Bool} (h : Decides c s b t) : t.cause = s.cause := by
  rw [h.frame]; rfl
theorem Decides.info {c : Nat} {s t : State} {b : Bool} (h : Decides c s b t) : t.info = s.info := by
  rw [h.frame]; rfl
theorem Decides.outMem {c : Nat} {s t : State} {b : Bool} (h : Decides c s b t) : t.outMem = s.outMem := by
  rw [h.frame]; rfl

/-! ## The numbers of a decision (10_state R47 a, b, c) -/

theorem Feeds.lt_of_state_lt {s : State} {bs : List Byte} (h : Feeds s bs) (hs : s.state.toNat < 2 ^ 20) :
    accumulate s.state.toNat bs < 2 ^ 20 := by
  by_cases hne : bs = []
  · subst hne; exact hs
  · exact h.lt_of_ne_nil hne

/-- From a renormalized value, a probability between 7 and 249 leaves at least `7 * 16`. -/
theorem nextCoderState_ge {b : Bool} {p x : Nat} (hx : 4096 ≤ x) (hp : 7 ≤ p ∧ p ≤ 249) (hb : b = decide (x % 256 < p)) :
    16 ≤ nextCoderState b p x := by
  obtain ⟨h7, h249⟩ := hp
  have hh : 16 ≤ x / 256 := by omega
  cases b with
  | true =>
    have : 7 * 16 ≤ p * (x / 256) := Nat.mul_le_mul h7 hh
    simp only [nextCoderState, if_true]; omega
  | false =>
    have hlow : p ≤ x % 256 := Nat.not_lt.mp (of_decide_eq_false hb.symm)
    have : 7 * 16 ≤ (256 - p) * (x / 256) := Nat.mul_le_mul (by omega) hh
    simp only [nextCoderState, Bool.false_eq_true, if_false]; omega

/-- A decision never makes the coder state larger. -/
theorem nextCoderState_le {b : Bool} {p x : Nat} (hp : p ≤ 256) : nextCoderState b p x ≤ x := by
  cases b with
  | true =>
    have : p * (x / 256) ≤ 256 * (x / 256) := Nat.mul_le_mul_right _ hp
    simp only [nextCoderState, if_true]; omega
  | false =>
    have : (256 - p) * (x / 256) ≤ 256 * (x / 256) := Nat.mul_le_mul_right _ (by omega)
    simp only [nextCoderState, Bool.false_eq_true, if_false]; omega

theorem nextProbability_range {b : Bool} {p : Nat} (hp : 7 ≤ p ∧ p ≤ 249) :
    7 ≤ nextProbability b p ∧ nextProbability b p ≤ 249 := by
  cases b <;> simp only [nextProbability, if_true, Bool.false_eq_true, if_false] <;> omega

/-! ## The part of the invariant that no phase is named in -/

/-- `DecodeInv` without the fields that speak of one phase; the coder state is that after a first decision. -/
structure Running (s : State) : Prop where
  stateBound : s.state.toNat < 2 ^ 20
  stateFloor : 16 ≤ s.state.toNat
  probsRange : ∀ (i : Nat) (p : Byte), s.probs[i]? = some p → 7 ≤ p.toNat ∧ p.toNat ≤ 249
  outStart : s.dstBase.toNat ≤ s.writePos.toNat
  outFilled : OutWritten s s.dstBase.toNat s.writePos.toNat
  inputBacked : InputBacked s
  outBacked : OutBacked s s.dstBase.toNat s.dstEnd.toNat

/-- Only SOP may hold the coder state START leaves. -/
theorem DecodeInv.running {s : State} (h : DecodeInv s) (hp : s.phase ≠ phSop) : Running s :=
  { h with stateFloor := h.stateFloor.resolve_right fun ⟨_, hsop⟩ => hp hsop }

/-- A decision gives every slot it leaves a value in range. -/
theorem decided_probsRange {c : Nat} {s : State} {p : Byte} {b : Bool} {bs : List Byte}
    (hr : ∀ (i : Nat) (p : Byte), s.probs[i]? = some p → 7 ≤ p.toNat ∧ p.toNat ≤ 249) (hp : s.probs[c]? = some p)
    (i : Nat) (q : Byte) (hq : (decided c p b bs s).probs[i]? = some q) : 7 ≤ q.toNat ∧ q.toNat ≤ 249 := by
  rw [decided_probs, Vector.getElem?_setIfInBounds] at hq
  split at hq
  · split at hq
    · have hn := nextProbability_range (b := b) (hr c p hp)
      obtain rfl := Option.some.inj hq
      rw [BitVec.toNat_ofNat, Nat.mod_eq_of_lt (by omega)]
      exact hn
    · cases hq
  · exact hr i q hq

/-- Whatever phase takes the decision, it leaves the coder, the table and the ranges as R47 asks. -/
theorem Decides.running {c : Nat} {s t : State} {b : Bool} (hd : Decides c s b t) (h : DecodeInv s) : Running t := by
  have hadv := hd.advances
  obtain ⟨bs, p, hf, hp, hb, rfl⟩ := hd
  have hrange := h.probsRange c p hp
  have hlt := hf.lt_of_state_lt h.stateBound
  have hle := nextCoderState_le (b := b) (p := p.toNat) (x := accumulate s.state.toNat bs) (by omega)
  have hstate : (decided c p b bs s).state.toNat = nextCoderState b p.toNat (accumulate s.state.toNat bs) := by
    rw [decided_state, BitVec.toNat_ofNat, Nat.mod_eq_of_lt (by omega)]
  exact
    { stateBound := by omega
      stateFloor := by rw [hstate]; exact nextCoderState_ge hf.enough hrange hb
      probsRange := decided_probsRange h.probsRange hp
      outStart := h.outStart
      outFilled := h.outFilled
      inputBacked := fun a ha hb => h.inputBacked a (hadv.cursor.trans ha) hb
      outBacked := h.outBacked }

/-- A byte appended below `dst_end` is written (20_memory R66). -/
theorem Running.appendOut {s : State} (h : Running s) (v : Byte) (hl : s.writePos.toNat < s.dstEnd.toNat) :
    Running (appendOut v s) := by
  have hw := writePos_succ_toNat hl
  refine { h with outStart := ?_, outFilled := fun a ha hb => ?_ }
  · have := h.outStart
    rw [appendOut_writePos, appendOut_dstBase, hw]; omega
  · rw [appendOut_writePos, hw] at hb
    rw [appendOut_outMem, read_write]
    split
    · rfl
    · exact h.outFilled a ha (by omega)

/-! ## Entering a phase -/

/-- Where a length code stands: `lctx` and `acc` as R47 d says. -/
def LengthPosition (s : State) : Prop :=
  s.lctx.toNat = (if s.lsel then 321 else 257) + 2 * s.bitPos.toNat ∧ s.acc.toNat < 2 ^ s.bitPos.toNat

/-- What is left to show of R47 on entering the phase `p`: the fields that speak of it. -/
theorem Running.enter {s : State} (h : Running s) (p : BitVec 4) (hp : s.phase = p)
    (hlength : p = phLCont ∨ p = phLVal → LengthPosition s := by simp)
    (hval : p = phLVal → s.bitPos.toNat ≤ 30 := by simp)
    (htree : p = phLitBit → 1 ≤ s.byte.toNat ∧ s.byte.toNat ≤ 255 := by simp)
    (hdone : p = phLitEmit → 256 ≤ s.byte.toNat := by simp)
    (hcopy : p = phMChk ∨ p = phMCopy → 1 ≤ s.rem.toNat := by simp)
    (hoffset : p = phMCopy → 1 ≤ s.offset.toNat ∧ s.offset.toNat + s.dstBase.toNat ≤ s.writePos.toNat := by simp) :
    DecodeInv s := by
  subst hp
  exact { h with
    stateFloor := .inl h.stateFloor, lengthCode := hlength, valPosition := hval, treePosition := htree
    treeDone := hdone, toCopy := hcopy, copyOffset := hoffset }

/-! ## The length decoder's registers -/

theorem lstart_lengthPosition (sel : Bool) (s : State) : LengthPosition (lstart sel s) := by
  cases sel <;> exact ⟨rfl, Nat.one_pos⟩

theorem Decides.lengthPosition {c : Nat} {s t : State} {b : Bool} (hd : Decides c s b t) (h : LengthPosition s) :
    LengthPosition t := by
  rw [hd.frame]; exact h

/-- A length code never delivers 0: its leading 1 is implied (42_length_decoder R152). -/
theorem LengthPosition.lengthValue_pos {s : State} (h : LengthPosition s) : 1 ≤ (lengthValue s).toNat := by
  have := Nat.two_pow_pos s.bitPos.toNat
  rw [lengthValue_toNat s h.2]
  omega

theorem bitPos_le_of_ne {s : State} (h : s.bitPos ≠ 31) : s.bitPos.toNat ≤ 30 := by
  have := s.bitPos.isLt
  have : s.bitPos.toNat ≠ 31 := fun e => h (BitVec.eq_of_toNat_eq e)
  omega

/-- One more value bit: the accumulator stays below the next position, and no register wraps. -/
theorem LengthPosition.takeValueBit {s : State} (h : LengthPosition s) (hb : s.bitPos.toNat ≤ 30) (b : Bool) :
    LengthPosition (takeValueBit b s) := by
  obtain ⟨hctx, hacc⟩ := h
  have hpos : (s.bitPos + 1).toNat = s.bitPos.toNat + 1 := by
    rw [BitVec.toNat_add]; exact Nat.mod_eq_of_lt (by show _ + 1 < _; omega)
  have hlctx : (s.lctx + 2).toNat = s.lctx.toNat + 2 := by
    rw [BitVec.toNat_add]; refine Nat.mod_eq_of_lt ?_
    show _ + 2 < _
    split at hctx <;> omega
  have hbit : b.toNat * 2 ^ s.bitPos.toNat ≤ 1 * 2 ^ s.bitPos.toNat := Nat.mul_le_mul_right _ (by have := b.toNat_lt; omega)
  constructor
  · rw [takeValueBit_lctx, takeValueBit_bitPos, takeValueBit_lsel, hlctx, hpos, hctx]; omega
  · rw [takeValueBit_acc, takeValueBit_bitPos, hpos, accWithBit_toNat s b hacc, Nat.pow_succ]; omega

/-! ## The machine's invariant -/

theorem busy_of_phase {s : State} (h : s.phase ∈ [phSop, phLitBit, phLitEmit, phMHasoff, phLCont, phLVal, phMChk, phMCopy]) :
    s.busy = true := by
  unfold State.busy
  generalize s.phase = p at h
  revert p; decide

/-- A busy engine holds no fault record. -/
theorem Inv.no_record_of_busy {s : State} (h : Inv s) (hb : s.busy = true) : s.cause = 0 ∧ s.info = 0 := by
  have hne : s.phase ≠ phFault := fun hp => by rw [State.busy, hp] at hb; exact absurd hb (by decide)
  have hc : s.cause = 0 := not_not.mp (mt h.faultRecorded.mpr hne)
  exact ⟨hc, h.noStaleInfo hc⟩

/-- Taking a fault leaves its record (60_exceptions R216). -/
theorem inv_raiseFault {s : State} (k : FaultKind) (i : Word) (hin : s.inMem.wf) (hout : s.outMem.wf) :
    Inv (raiseFault k i s) where
  inCanonical := hin
  outCanonical := hout
  phaseLegal := by rw [raiseFault_phase]; decide
  causeLegal := by rw [raiseFault_cause]; cases k <;> decide
  faultRecorded := by rw [raiseFault_phase, raiseFault_cause]; cases k <;> decide
  noStaleInfo := by rw [raiseFault_cause]; cases k <;> exact fun h => absurd h (by decide)
  decoding := fun h => absurd (show false = true from h) Bool.false_ne_true

/-- A busy engine that moves on to a phase other than FAULT. -/
theorem Inv.moveOn {s t : State} (h : Inv s) (hb : s.busy = true) (hcause : t.cause = s.cause) (hinfo : t.info = s.info)
    (hin : t.inMem = s.inMem) (hout : t.outMem.wf) (hp : t.phase.toNat ≤ 9) (hdec : t.busy = true → DecodeInv t) :
    Inv t where
  inCanonical := hin ▸ h.inCanonical
  outCanonical := hout
  phaseLegal := by omega
  causeLegal := hcause ▸ h.causeLegal
  faultRecorded := by
    have hc := (h.no_record_of_busy hb).1
    exact ⟨fun hf => absurd (congrArg BitVec.toNat hf) (by show _ ≠ 10; omega), fun hn => absurd (hcause.trans hc) hn⟩
  noStaleInfo := fun _ => hinfo.trans (h.no_record_of_busy hb).2
  decoding := hdec

/-- A decision, and then a phase other than FAULT: what is left to show is R47 for the phase entered. -/
theorem Inv.moveOn_decided {c : Nat} {s u t : State} {b : Bool} (h : Inv s)
    (hp : s.phase ∈ [phSop, phLitBit, phLitEmit, phMHasoff, phLCont, phLVal, phMChk, phMCopy]) (hd : Decides c s b u)
    (hcause : t.cause = u.cause) (hinfo : t.info = u.info) (hin : t.inMem = u.inMem) (hout : t.outMem = u.outMem)
    (hle : t.phase.toNat ≤ 9) (hdec : DecodeInv s → Running u → t.busy = true → DecodeInv t) : Inv t := by
  have hb := busy_of_phase hp
  have hi := h.decoding hb
  exact h.moveOn hb (hcause.trans hd.cause) (hinfo.trans hd.info) (hin.trans hd.inMem)
    (by rw [hout, hd.outMem]; exact h.outCanonical) hle (hdec hi (hd.running hi))

theorem appendOut_wf {s : State} (v : Byte) (h : s.outMem.wf) : (appendOut v s).outMem.wf :=
  write_wf _ _ _ s.writePos.isLt h

/-- LIT_BIT's decision: the partial byte grows, and is complete from 256 on (10_state R47 e). -/
theorem treeBit_inv {s u : State} {b : Bool} (h : Inv s) (hp : s.phase = phLitBit) (hd : Decides s.byte.toNat s b u) :
    Inv { u with
      byte := BitVec.ofNat 9 (2 * s.byte.toNat + b.toNat)
      phase := if 256 ≤ 2 * s.byte.toNat + b.toNat then phLitEmit else phLitBit } := by
  refine h.moveOn_decided (by simp [hp]) hd rfl rfl rfl rfl ?_ fun hi hr _ => ?_
  · show (ite _ _ _ : BitVec 4).toNat ≤ 9
    split <;> decide
  obtain ⟨hlo, hhi⟩ := hi.treePosition hp
  have hn : (BitVec.ofNat 9 (2 * s.byte.toNat + b.toNat)).toNat = 2 * s.byte.toNat + b.toNat := byteWithBit_toNat b hhi
  by_cases h256 : 256 ≤ 2 * s.byte.toNat + b.toNat
  · rw [if_pos h256]; exact Running.enter { hr with } phLitEmit rfl (hdone := fun _ => by rw [hn]; exact h256)
  · rw [if_neg h256]; exact Running.enter { hr with } phLitBit rfl (htree := fun _ => by rw [hn]; omega)

/-- M_COPY's byte: the match goes on while bytes are left (10_state R47 f). -/
theorem copied_inv {s : State} (v : Byte) (h : Inv s) (hp : s.phase = phMCopy) (hl : s.writePos.toNat < s.dstEnd.toNat) :
    Inv (countCopied (appendOut v s)) := by
  have hb : s.busy = true := busy_of_phase (by simp [hp])
  have hi := h.decoding hb
  obtain ⟨ho, hle⟩ := hi.copyOffset hp
  have hrem := hi.toCopy (.inr hp)
  have hr := (hi.running (by rw [hp]; decide)).appendOut v hl
  have hw := writePos_succ_toNat hl
  rw [countCopied_eq]
  refine h.moveOn hb rfl rfl rfl (appendOut_wf v h.outCanonical) ?_ fun _ => ?_
  · show (ite _ _ _ : BitVec 4).toNat ≤ 9
    split <;> decide
  · by_cases h1 : (appendOut v s).rem = 1
    · exact Running.enter { hr with } phSop (if_pos h1)
    · have hne : s.rem.toNat ≠ 1 := fun e => h1 (BitVec.eq_of_toNat_eq e)
      refine Running.enter { hr with } phMCopy (if_neg h1) (hcopy := fun _ => ?_) (hoffset := fun _ => ⟨ho, ?_⟩)
      · show 1 ≤ (s.rem - 1).toNat
        bv_omega
      · show s.offset.toNat + s.dstBase.toNat ≤ (s.writePos + 1).toNat
        omega

/-- Every engine step keeps the invariant. -/
theorem EngineCase.keeps_inv {s t : State} (h : EngineCase s t) (hI : Inv s) : Inv t := by
  cases h with
  | starved bs => exact inv_raiseFault .truncatedInput _ hI.inCanonical hI.outCanonical
  | overflowed | badOffset => exact inv_raiseFault _ _ hI.inCanonical hI.outCanonical
  | tooLong u _ hd =>
    exact inv_raiseFault _ _ (by rw [hd.inMem]; exact hI.inCanonical) (by rw [hd.outMem]; exact hI.outCanonical)
  | sopLiteral u hp hd =>
    exact hI.moveOn_decided (by simp [hp]) hd rfl rfl rfl rfl (Nat.le_of_ble_eq_true rfl) fun _ hr _ =>
      Running.enter { hr with } phLitBit rfl
        (htree := fun _ => ⟨Nat.le_of_ble_eq_true rfl, Nat.le_of_ble_eq_true rfl⟩)
  | sopOffset u hp hd =>
    exact hI.moveOn_decided (by simp [hp]) hd rfl rfl rfl rfl (Nat.le_of_ble_eq_true rfl) fun _ hr _ =>
      Running.enter { hr with } phLCont rfl (hlength := fun _ => lstart_lengthPosition _ _)
  | sopHasoff u hp hd =>
    exact hI.moveOn_decided (by simp [hp]) hd rfl rfl rfl rfl (Nat.le_of_ble_eq_true rfl) fun _ hr _ =>
      Running.enter { hr with } phMHasoff rfl
  | treeBit b u hp hd => exact treeBit_inv hI hp hd
  | emitted hp hl =>
    have hb : s.busy = true := busy_of_phase (by simp [hp])
    have hr := ((hI.decoding hb).running (by rw [hp]; decide)).appendOut (literalByte s) hl
    exact hI.moveOn hb rfl rfl rfl (appendOut_wf _ hI.outCanonical) (Nat.le_of_ble_eq_true rfl) fun _ =>
      Running.enter { hr with } phSop rfl
  | hasoff b u hp hd =>
    exact hI.moveOn_decided (by simp [hp]) hd rfl rfl rfl rfl (Nat.le_of_ble_eq_true rfl) fun _ hr _ =>
      Running.enter { hr with } phLCont rfl (hlength := fun _ => lstart_lengthPosition _ _)
  | continued u hp hd h31 =>
    refine hI.moveOn_decided (by simp [hp]) hd rfl rfl rfl rfl (Nat.le_of_ble_eq_true rfl) fun hi hr _ => ?_
    have hl : LengthPosition u := hd.lengthPosition (hi.lengthCode (.inl hp))
    exact Running.enter { hr with } phLVal rfl (hlength := fun _ => hl)
      (hval := fun _ => by rw [hd.bitPos]; exact bitPos_le_of_ne h31)
  | length u hp hd =>
    refine hI.moveOn_decided (by simp [hp]) hd rfl rfl rfl rfl (Nat.le_of_ble_eq_true rfl) fun hi hr _ => ?_
    have hl : LengthPosition s := hi.lengthCode (.inl hp)
    exact Running.enter { hr with } phMChk rfl (hcopy := fun _ => hl.lengthValue_pos)
  | sentinel u hp hd =>
    exact hI.moveOn_decided (by simp [hp]) hd rfl rfl rfl rfl (Nat.le_of_ble_eq_true rfl) fun _ _ hbusy =>
      absurd hbusy Bool.false_ne_true
  | offset u hp hd =>
    exact hI.moveOn_decided (by simp [hp]) hd rfl rfl rfl rfl (Nat.le_of_ble_eq_true rfl) fun _ hr _ =>
      Running.enter { hr with } phLCont rfl (hlength := fun _ => lstart_lengthPosition _ _)
  | valueBit b u hp hd =>
    refine hI.moveOn_decided (by simp [hp]) hd rfl rfl rfl rfl (Nat.le_of_ble_eq_true rfl) fun hi hr _ => ?_
    have hl : LengthPosition u := hd.lengthPosition (hi.lengthCode (.inr hp))
    have hpos : u.bitPos.toNat ≤ 30 := by rw [hd.bitPos]; exact hi.valPosition hp
    exact Running.enter { hr with } phLCont rfl (hlength := fun _ => hl.takeValueBit hpos b)
  | checked hp h1 h2 =>
    have hb : s.busy = true := busy_of_phase (by simp [hp])
    have hi := hI.decoding hb
    have hr := hi.running (by rw [hp]; decide)
    exact hI.moveOn hb rfl rfl rfl hI.outCanonical (Nat.le_of_ble_eq_true rfl) fun _ =>
      Running.enter { hr with } phMCopy rfl (hcopy := fun _ => hi.toCopy (.inl hp)) (hoffset := fun _ => ⟨h1, h2⟩)
  | copied v hp hl => exact copied_inv v hI hp hl
  | still => exact hI

end Sys2Proof.Machine
end

section
/-! # A whole symbol is a run of engine steps (45_top_fsm R197, 92_eei_decisions D11)

The big step keeps `phase` at SOP while it takes the symbol's decisions, the engine names each phase; `atPhase` relates
the two states. -/

namespace Sys2Proof.Machine

/-! ## Runs of engine steps -/

/-- `Leads o o'`: going on with engine steps from the outcome `o` comes to `o'`. -/
inductive Leads : Host.Outcome State Fault Refusal → Host.Outcome State Fault Refusal → Prop where
  | here (o : Host.Outcome State Fault Refusal) : Leads o o
  | step {s : State} {o : Host.Outcome State Fault Refusal} : Leads (engineStep s) o → Leads (.next s) o

/-- Go on with the value and the state to an outcome. -/
def Res.andThen {α : Type} (x : Res α) (f : α → State → Host.Outcome State Fault Refusal) :
    Host.Outcome State Fault Refusal :=
  match x with
  | .ok a s => f a s
  | .raised s => .next s
  | .fault e => .fault e
  | .refused e => .refused e

theorem toOutcome_eq_andThen {α : Type} (x : Res α) : x.toOutcome = x.andThen fun _ t => .next t := by
  cases x <;> rfl

theorem bind_andThen {α β : Type} (x : Res α) (f : α → State → Res β)
    (g : β → State → Host.Outcome State Fault Refusal) :
    (x.bind f).andThen g = x.andThen fun a t => (f a t).andThen g := by
  cases x <;> rfl

theorem bind_toOutcome {α β : Type} (x : Res α) (f : α → State → Res β) :
    (x.bind f).toOutcome = x.andThen fun a t => (f a t).toOutcome := by
  cases x <;> rfl

/-- Two continuations of one operation: it is enough to look at its values. -/
theorem Leads.andThen {α : Type} {x : Res α} {e g : α → State → Host.Outcome State Fault Refusal}
    (h : ∀ a t, x = .ok a t → Leads (e a t) (g a t)) : Leads (x.andThen e) (x.andThen g) := by
  cases x with
  | ok a t => exact h a t rfl
  | raised t => exact .here _
  | fault f => exact .here _
  | refused r => exact .here _

/-! ## The phase does not matter to a decision -/

/-- `s` in the phase `p`. -/
def atPhase (p : BitVec 4) (s : State) : State := { s with phase := p }

/-- The same result, in the phase `p` unless a fault was taken. -/
def Res.atPhase {α : Type} (p : BitVec 4) : Res α → Res α
  | .ok a s => .ok a (Machine.atPhase p s)
  | .raised s => .raised s
  | .fault e => .fault e
  | .refused e => .refused e

theorem atPhase_andThen {α : Type} (p : BitVec 4) (x : Res α) (f : α → State → Host.Outcome State Fault Refusal) :
    (x.atPhase p).andThen f = x.andThen fun a t => f a (atPhase p t) := by
  cases x <;> rfl

theorem renormLoop_atPhase (p : BitVec 4) (n : Nat) (s : State) :
    renormLoop n (atPhase p s) = (renormLoop n s).atPhase p := by
  induction n generalizing s with
  | zero =>
    simp only [renormLoop, show (atPhase p s).state = s.state from rfl]
    split <;> rfl
  | succ n ih =>
    simp only [renormLoop, show (atPhase p s).state = s.state from rfl, show (atPhase p s).cursor = s.cursor from rfl,
      show ∀ a, (atPhase p s).readIn a = s.readIn a from fun _ => rfl]
    split
    · cases s.readIn s.cursor.toNat with
      | none => rfl
      | some b => exact ih (shiftIn b s)
    · rfl

theorem decodeBit_atPhase (p : BitVec 4) (c : Nat) (s : State) :
    decodeBit c (atPhase p s) = (decodeBit c s).atPhase p := by
  have hr : renormalize (atPhase p s) = (renormalize s).atPhase p := renormLoop_atPhase p _ s
  unfold decodeBit
  rw [hr]
  cases renormalize s with
  | ok a t =>
    simp only [Res.atPhase, bind_ok, probRead, show (atPhase p t).probs = t.probs from rfl]
    cases t.probs[c]? <;> rfl
  | raised t => rfl
  | fault e => rfl
  | refused e => rfl

/-! ## The literal -/

theorem engineStep_atLitBit {s : State} (hb : s.byte.toNat ≤ 255) :
    engineStep (atPhase phLitBit s) = (decodeBit (treeContext s) s).andThen fun b t =>
      .next { t with
        byte := byteWithBit t b
        phase := if 256 ≤ (byteWithBit t b).toNat then phLitEmit else phLitBit } := by
  rw [engineStep_litBit rfl, execLitBit, bind_toOutcome, show treeContext (atPhase phLitBit s) = treeContext s from rfl,
    decodeBit_atPhase, atPhase_andThen]
  cases h : decodeBit (treeContext s) s with
  | ok b t =>
    have hbt : t.byte.toNat ≤ 255 := by rw [(decodeBit_eq_ok.mp h).byte]; exact hb
    simp only [Res.andThen]
    rw [if_neg (by show ¬ 256 ≤ t.byte.toNat; omega)]
    rfl
  | raised t => rfl
  | fault e => rfl
  | refused e => rfl

/-- DECLIT's loop with `n` decisions to come: the partial byte holds the seed bit and `8 - n` more. -/
theorem literalLoop_leads (n : Nat) (s : State) (g : Byte → State → Host.Outcome State Fault Refusal) (hn : n ≤ 8)
    (hlo : 2 ^ (8 - n) ≤ s.byte.toNat) (hhi : s.byte.toNat < 2 ^ (9 - n))
    (hg : ∀ t, Leads (.next (atPhase phLitEmit t)) (g (literalByte t) t)) :
    Leads (.next (atPhase (if n = 0 then phLitEmit else phLitBit) s)) ((literalLoop n s).andThen g) := by
  induction n generalizing s with
  | zero => exact hg s
  | succ n ih =>
    have hle : 2 ^ (9 - (n + 1)) ≤ 2 ^ 8 := Nat.pow_le_pow_right (by omega) (by omega)
    rw [if_neg n.succ_ne_zero, literalLoop, if_pos (by omega), bind_andThen]
    refine .step ?_
    rw [engineStep_atLitBit (by omega)]
    refine .andThen fun b t ht => ?_
    have hbt : t.byte = s.byte := (decodeBit_eq_ok.mp ht).byte
    have hbyte := byteWithBit_toNat (s := t) b (by rw [hbt]; omega)
    rw [hbt] at hbyte
    have hbit := b.toNat_lt
    have hpow1 : 2 ^ (8 - n) = 2 * 2 ^ (8 - (n + 1)) := by rw [← Nat.pow_succ']; congr 1; omega
    have hpow2 : 2 ^ (9 - n) = 2 * 2 ^ (9 - (n + 1)) := by rw [← Nat.pow_succ']; congr 1; omega
    have hphase : (256 ≤ (byteWithBit t b).toNat) ↔ n = 0 := by
      rw [hbyte]
      constructor
      · intro h
        by_contra hne
        have : 2 ^ (9 - (n + 1)) ≤ 2 ^ 7 := Nat.pow_le_pow_right (by omega) (by omega)
        omega
      · rintro rfl
        simp only [Nat.reduceAdd, Nat.reduceSub, Nat.reducePow] at hlo
        omega
    have := ih { t with byte := byteWithBit t b } (by omega) (by show _ ≤ (byteWithBit t b).toNat; omega)
      (by show (byteWithBit t b).toNat < _; omega)
    simp only [hphase]
    exact this

/-- LIT_EMIT, whatever the phase was. -/
theorem emitByte_atPhase (p : BitVec 4) (v : Byte) (s : State) :
    (emitByte v (atPhase p s)).toOutcome = (emitByte v s).toOutcome := by
  unfold emitByte storeOut
  simp only [show (atPhase p s).dstEnd = s.dstEnd from rfl, show (atPhase p s).writePos = s.writePos from rfl,
    show (atPhase p s).outBacking = s.outBacking from rfl]
  split
  · rfl
  · split <;> rfl

/-- A literal: eight LIT_BIT steps and LIT_EMIT (43_literal_decoder R164). -/
theorem literal_leads (s : State) :
    Leads (.next (atPhase phLitBit { s with byte := 1 })) ((decodeLiteral s).andThen fun v t => exec (.lit v) t) := by
  refine literalLoop_leads 8 { s with byte := 1 } _ (le_refl _) (Nat.le_refl 1) (Nat.lt_succ_self 1) fun t => .step ?_
  rw [engineStep_litEmit rfl, execLitEmit, emitByte_atPhase]
  exact .here _

/-! ## The copy -/

/-- What the copy of one byte leaves of `rem`, `pwm` and `phase`. -/
theorem copyByte_ok {s t : State} {a : Unit} (h : copyByte s = .ok a t) :
    t.rem = s.rem - 1 ∧ (s.rem = 1 → t.pwm = true ∧ t.phase = phSop) ∧ (s.rem ≠ 1 → t.phase = phMCopy) := by
  rcases copyByte_cases s with ⟨_, _, _, _, v, _, he⟩ | ⟨_, he⟩ | ⟨_, _, he⟩ | ⟨_, _, he⟩ | ⟨_, _, he⟩ <;>
    rw [he] at h <;> cases h
  rw [countCopied_eq]
  exact ⟨rfl, fun h1 => ⟨if_pos h1, if_pos h1⟩, fun h1 => if_neg h1⟩

/-- `rem` copies are as many M_COPY steps, the last of which ends the match (44_match_copy R175). -/
theorem copyTimes_leads (n : Nat) (s : State) (hrem : s.rem.toNat = n + 1) (hp : s.phase = phMCopy) :
    Leads (.next s) ((copyTimes (n + 1) s).andThen fun _ t => .next { t with pwm := true, phase := phSop }) := by
  induction n generalizing s with
  | zero =>
    have h1 : s.rem = 1 := BitVec.eq_of_toNat_eq hrem
    refine .step ?_
    rw [engineStep_mCopy hp, execMCopy, toOutcome_eq_andThen, copyTimes, bind_andThen]
    refine .andThen fun _ t ht => ?_
    obtain ⟨hpwm, hphase⟩ := (copyByte_ok ht).2.1 h1
    rw [show (copyTimes 0 t).andThen _ = .next { t with pwm := true, phase := phSop } from rfl, ← hpwm, ← hphase]
    exact .here _
  | succ n ih =>
    have h1 : s.rem ≠ 1 := fun h => by rw [h] at hrem; exact absurd hrem (by simp)
    refine .step ?_
    rw [engineStep_mCopy hp, execMCopy, toOutcome_eq_andThen, copyTimes, bind_andThen]
    refine .andThen fun _ t ht => ?_
    obtain ⟨hr, _, hphase⟩ := copyByte_ok ht
    exact ih t (by rw [hr]; bv_omega) (hphase h1)

theorem checkOffset_atPhase (p : BitVec 4) (s : State) : checkOffset (atPhase p s) = checkOffset s := rfl

/-- The check and the copies of a match: M_CHK and M_COPY steps (44_match_copy R177, R178). -/
theorem matchEffect_leads {n : Word} (s : State) (hn : n ≠ 0) :
    Leads (.next (deliverLength n s)) (matchEffect n s).toOutcome := by
  refine .step ?_
  rw [engineStep_mChk rfl, execMChk, toOutcome_eq_andThen, matchEffect, bind_toOutcome,
    show deliverLength n s = atPhase phMChk { s with rem := n } from rfl, checkOffset_atPhase]
  refine .andThen fun _ t ht => ?_
  obtain ⟨k, hk⟩ : ∃ k, n.toNat = k + 1 :=
    Nat.exists_eq_succ_of_ne_zero fun h0 => hn (BitVec.eq_of_toNat_eq h0)
  have ht' : t = { s with rem := n, phase := phMCopy } := by
    rcases checkOffset_cases { s with rem := n } with ⟨_, _, he⟩ | ⟨_, he⟩ <;> rw [he] at ht <;> cases ht
    rfl
  subst ht'
  rw [bind_toOutcome, hk]
  exact copyTimes_leads k _ hk rfl

/-! ## Length codes -/

/-- What L_CONT does with the value of the code it ends (42_length_decoder R154). -/
def deliver (v : Word) (s : State) : State := if s.lsel then deliverLength v s else deliverOffset v s

theorem deliver_of_length {v : Word} {s : State} (h : s.lsel = true) : deliver v s = deliverLength v s := if_pos h
theorem deliver_of_offset {v : Word} {s : State} (h : s.lsel = false) : deliver v s = deliverOffset v s := by
  rw [deliver, h]; rfl

theorem deliver_atPhase (p : BitVec 4) (v : Word) (s : State) : deliver v (atPhase p s) = deliver v s := by
  unfold deliver deliverOffset
  simp only [show (atPhase p s).lsel = s.lsel from rfl]
  split
  · rfl
  · split <;> rfl

theorem engineStep_atLCont (s : State) :
    engineStep (atPhase phLCont s) = (decodeBit (contContext s) s).andThen fun c t =>
      if c then
        if t.bitPos = 31 then .next (raiseFault .lengthOverflow (t.lctx.setWidth 32) t) else .next (atPhase phLVal t)
      else .next (deliver (lengthValue t) t) := by
  rw [engineStep_lCont rfl, execLCont, bind_toOutcome, show contContext (atPhase phLCont s) = contContext s from rfl,
    decodeBit_atPhase, atPhase_andThen]
  congr 1
  funext c t
  cases c
  · rw [if_neg Bool.false_ne_true, if_neg Bool.false_ne_true, ← deliver_atPhase phLCont, deliver]
    split <;> rfl
  · rw [if_pos rfl, if_pos rfl, show (atPhase phLCont t).bitPos = t.bitPos from rfl]
    split <;> rfl

theorem engineStep_atLVal {s : State} (hb : s.bitPos ≠ 31) :
    engineStep (atPhase phLVal s) = (decodeBit (valContext s) s).andThen fun b t =>
      .next (atPhase phLCont (takeValueBit b t)) := by
  rw [engineStep_lVal rfl, execLVal, bind_toOutcome, show valContext (atPhase phLVal s) = valContext s from rfl,
    decodeBit_atPhase, atPhase_andThen]
  cases h : decodeBit (valContext s) s with
  | ok b t =>
    simp only [Res.andThen]
    rw [if_neg (by rw [show (atPhase phLVal t).bitPos = t.bitPos from rfl, (decodeBit_eq_ok.mp h).bitPos]; exact hb)]
    rfl
  | raised t => rfl
  | fault e => rfl
  | refused e => rfl

/-- The bit at `bit_pos` of a delivered value is 1. -/
theorem lengthValue_ne_zero (s : State) : lengthValue s ≠ 0 := by
  intro h
  have hb := s.bitPos.isLt
  have hbit : (lengthValue s).getLsbD s.bitPos.toNat = true := by
    simp only [lengthValue, BitVec.getLsbD_or, BitVec.getLsbD_shiftLeft]
    simp; omega
  rw [h] at hbit
  simp at hbit

theorem Decides.offset {c : Nat} {s t : State} {b : Bool} (h : Decides c s b t) : t.offset = s.offset := by
  rw [h.frame]; rfl

/-- DECLEN's loop from `bit_pos` on is L_CONT and L_VAL in turn (42_length_decoder R151). -/
theorem lengthLoop_leads (n : Nat) (s : State) (g : Word → State → Host.Outcome State Fault Refusal)
    (hpos : s.bitPos.toNat + n = 31)
    (hg : ∀ t, t.lsel = s.lsel → t.offset = s.offset → Leads (.next (deliver (lengthValue t) t)) (g (lengthValue t) t)) :
    Leads (.next (atPhase phLCont s)) ((lengthLoop n s).andThen g) := by
  induction n generalizing s with
  | zero =>
    refine .step ?_
    rw [engineStep_atLCont, lengthLoop, bind_andThen]
    refine .andThen fun c t ht => ?_
    have hd := decodeBit_eq_ok.mp ht
    cases c
    · exact hg t hd.lsel hd.offset
    · rw [if_pos rfl, if_pos (by rw [hd.bitPos]; exact BitVec.eq_of_toNat_eq hpos)]
      exact .here _
  | succ n ih =>
    have hne : s.bitPos ≠ 31 := fun h => by rw [h] at hpos; exact absurd hpos (by simp)
    refine .step ?_
    rw [engineStep_atLCont, lengthLoop, bind_andThen]
    refine .andThen fun c t ht => ?_
    have hd := decodeBit_eq_ok.mp ht
    have hnet : t.bitPos ≠ 31 := by rw [hd.bitPos]; exact hne
    cases c
    · exact hg t hd.lsel hd.offset
    · rw [if_pos rfl, if_neg hnet, if_pos rfl, bind_andThen]
      refine .step ?_
      rw [engineStep_atLVal hnet]
      refine .andThen fun b u hu => ?_
      have hd' := decodeBit_eq_ok.mp hu
      refine ih (takeValueBit b u) ?_ fun v h1 h2 =>
        hg v (h1.trans (hd'.lsel.trans hd.lsel)) (h2.trans (hd'.offset.trans hd.offset))
      rw [takeValueBit_bitPos, hd'.bitPos, hd.bitPos]
      bv_omega

/-- The match-length code and the match after it. -/
theorem fetchLength_leads (mk : Word → Instr) (s : State)
    (hmk : ∀ n t, t.offset = s.offset → exec (mk n) { t with rem := n } = (matchEffect n t).toOutcome) :
    Leads (.next (lstart true s)) ((fetchLength mk s).andThen exec) := by
  rw [fetchLength, bind_andThen]
  refine lengthLoop_leads 31 { s with lsel := true, acc := 0, bitPos := 0, lctx := lstartContext true } _ rfl
    fun t (hl : t.lsel = true) (ho : t.offset = s.offset) => ?_
  rw [deliver_of_length hl, Res.andThen, hmk _ _ ho]
  exact matchEffect_leads t (lengthValue_ne_zero t)

/-- The offset code, and the end of the stream or the rest of the match. -/
theorem fetchOffset_leads (fin : Instr) (mk : Word → Word → Instr) (s : State)
    (hfin : ∀ t, exec fin t = .next (endEffect t))
    (hmk : ∀ o n t, exec (mk o n) t = (matchEffect n { t with offset := o }).toOutcome) :
    Leads (.next (lstart false s)) ((fetchOffset fin mk s).andThen exec) := by
  rw [fetchOffset, bind_andThen]
  refine lengthLoop_leads 31 { s with lsel := false, acc := 0, bitPos := 0, lctx := lstartContext false } _ rfl
    fun t (hl : t.lsel = false) _ => ?_
  rw [deliver_of_offset hl, deliverOffset]
  split
  case isTrue h0 =>
    show Leads _ (exec fin _)
    rw [hfin, endEffect, h0]
    exact .here _
  case isFalse =>
    refine fetchLength_leads _ _ fun n u (ho : u.offset = lengthValue t - 1) => ?_
    rw [hmk, ← ho]
    rfl

/-! ## The symbol -/

theorem engineStep_atMHasoff (s : State) :
    engineStep (atPhase phMHasoff s) = (decodeBit Config.ctxHasOff s).andThen fun h t => .next (lstart (!h) t) := by
  rw [engineStep_mHasoff rfl, execMHasoff, bind_toOutcome, decodeBit_atPhase, atPhase_andThen]
  rfl

/-- A symbol step is one engine step, and then as many more as the symbol has. -/
theorem symbolStep_leads (s : State) : Leads (engineStep s) (symbolStep s) := by
  by_cases hp : s.phase = phSop
  case neg => rw [symbolStep, if_neg hp]; exact .here _
  have hsym : symbolStep s = (fetchSymbol s).andThen exec := by
    rw [symbolStep, if_pos hp]; cases fetchSymbol s <;> rfl
  rw [hsym, engineStep_sop hp, execSop, bind_toOutcome, fetchSymbol, bind_andThen]
  refine .andThen fun m t _ => ?_
  cases m
  · rw [if_neg Bool.false_ne_true, if_neg Bool.false_ne_true, bind_andThen]
    exact literal_leads t
  · rw [if_pos rfl, if_pos rfl]
    by_cases hw : t.pwm = true
    · rw [if_pos hw, if_pos hw]
      exact fetchOffset_leads .endC .matchC t (fun _ => rfl) fun _ _ _ => rfl
    · rw [if_neg hw, if_neg hw, bind_andThen]
      refine .step ?_
      show Leads (engineStep (atPhase phMHasoff t)) _
      rw [engineStep_atMHasoff]
      refine .andThen fun h u _ => ?_
      cases h
      · exact fetchLength_leads .matchR u fun _ _ _ => rfl
      · exact fetchOffset_leads .endN .matchN u (fun _ => rfl) fun _ _ _ => rfl

end Sys2Proof.Machine
end

section
/-! # Progress, and the invariant under every step of the machine -/

namespace Sys2Proof.Machine

/-! ## The engine never stops (10_state R47, R50, 20_memory R67, R71) -/

/-- On backed input a decision at a context of the table is taken, or the input runs out. -/
theorem DecodeInv.decision_progress {s : State} (h : DecodeInv s) {c : Nat} (hc : c < 385) :
    (∃ b t, Decides c s b t) ∨ ∃ bs, Starves s bs := by
  rcases decodeBit_cases c s with ⟨b, t, hd, _⟩ | ⟨bs, hs, _⟩ | ⟨hge, _⟩ | ⟨⟨a, ha, hlt, hnone⟩, _⟩
  · exact .inl ⟨b, t, hd⟩
  · exact .inr ⟨bs, hs⟩
  · exact absurd hc (Nat.not_lt.mpr hge)
  · have := h.inputBacked a ha hlt
    rw [readIn_eq_none, this] at hnone
    cases hnone

theorem DecodeInv.sop_progress {s : State} (h : DecodeInv s) (hp : s.phase = phSop) : ∃ t, EngineCase s t := by
  rcases h.decision_progress (c := 0) (by omega) with ⟨b, u, hd⟩ | ⟨bs, hs⟩
  · cases b
    · exact ⟨_, .sopLiteral u hp hd⟩
    · cases hw : s.pwm
      · exact ⟨_, .sopHasoff u hp hd hw⟩
      · exact ⟨_, .sopOffset u hp hd hw⟩
  · exact ⟨_, .starved bs hs (by simp [hp])⟩

theorem DecodeInv.litBit_progress {s : State} (h : DecodeInv s) (hp : s.phase = phLitBit) : ∃ t, EngineCase s t := by
  obtain ⟨_, hhi⟩ := h.treePosition hp
  rcases h.decision_progress (c := s.byte.toNat) (by omega) with ⟨b, u, hd⟩ | ⟨bs, hs⟩
  · exact ⟨_, .treeBit b u hp hd hhi⟩
  · exact ⟨_, .starved bs hs (by simp [hp])⟩

/-- The byte after the output is backed where it is below `dst_end`. -/
theorem DecodeInv.writePos_backed {s : State} (h : DecodeInv s) (hl : s.writePos.toNat < s.dstEnd.toNat) :
    backedAt s.outBacking s.writePos.toNat = true := h.outBacked _ h.outStart hl

theorem DecodeInv.litEmit_progress {s : State} (h : DecodeInv s) (hp : s.phase = phLitEmit) : ∃ t, EngineCase s t := by
  by_cases hl : s.writePos.toNat < s.dstEnd.toNat
  · exact ⟨_, .emitted hp hl (h.writePos_backed hl)⟩
  · exact ⟨_, .overflowed (.inl hp) (Nat.not_lt.mp hl)⟩

theorem DecodeInv.mHasoff_progress {s : State} (h : DecodeInv s) (hp : s.phase = phMHasoff) : ∃ t, EngineCase s t := by
  rcases h.decision_progress (c := 256) (by omega) with ⟨b, u, hd⟩ | ⟨bs, hs⟩
  · exact ⟨_, .hasoff b u hp hd⟩
  · exact ⟨_, .starved bs hs (by simp [hp])⟩

/-- Both blocks of the length decoder end within the table. -/
theorem LengthPosition.lctx_le {s : State} (h : LengthPosition s) : s.lctx.toNat ≤ 321 + 2 * s.bitPos.toNat := by
  rw [h.1]; split <;> omega

theorem DecodeInv.lCont_progress {s : State} (h : DecodeInv s) (hp : s.phase = phLCont) : ∃ t, EngineCase s t := by
  have hctx := LengthPosition.lctx_le (h.lengthCode (.inl hp))
  have hbit := s.bitPos.isLt
  rcases h.decision_progress (c := s.lctx.toNat) (by omega) with ⟨b, u, hd⟩ | ⟨bs, hs⟩
  · cases b
    · cases hl : s.lsel
      · by_cases hv : lengthValue s = 1
        · exact ⟨_, .sentinel u hp hd hl hv⟩
        · exact ⟨_, .offset u hp hd hl hv⟩
      · exact ⟨_, .length u hp hd hl⟩
    · by_cases h31 : s.bitPos = 31
      · exact ⟨_, .tooLong u hp hd h31⟩
      · exact ⟨_, .continued u hp hd h31⟩
  · exact ⟨_, .starved bs hs (by simp [hp])⟩

theorem DecodeInv.lVal_progress {s : State} (h : DecodeInv s) (hp : s.phase = phLVal) : ∃ t, EngineCase s t := by
  have hctx := LengthPosition.lctx_le (h.lengthCode (.inr hp))
  have hbit := h.valPosition hp
  rcases h.decision_progress (c := s.lctx.toNat + 1) (by omega) with ⟨b, u, hd⟩ | ⟨bs, hs⟩
  · exact ⟨_, .valueBit b u hp hd fun h31 => by rw [h31] at hbit; exact absurd hbit (by decide)⟩
  · exact ⟨_, .starved bs hs (by simp [hp])⟩

theorem mChk_progress {s : State} (hp : s.phase = phMChk) : ∃ t, EngineCase s t := by
  by_cases hbad : s.offset.toNat = 0 ∨ s.writePos.toNat < s.offset.toNat + s.dstBase.toNat
  · exact ⟨_, .badOffset hp hbad⟩
  · exact ⟨_, .checked hp (by omega) (by omega)⟩

/-- A valid offset reads a byte the decode has written, at an address below `dst_end` (20_memory R67). -/
theorem DecodeInv.mCopy_progress {s : State} (h : DecodeInv s) (hp : s.phase = phMCopy) : ∃ t, EngineCase s t := by
  by_cases hl : s.writePos.toNat < s.dstEnd.toNat
  · obtain ⟨h1, h2⟩ := h.copyOffset hp
    have hrem := h.toCopy (.inr hp)
    have hsrc : s.dstBase.toNat ≤ copySource s ∧ copySource s < s.writePos.toNat := by unfold copySource; omega
    obtain ⟨v, hv⟩ := Option.isSome_iff_exists.mp (h.outFilled _ hsrc.1 hsrc.2)
    exact ⟨_, .copied v hp hl (fun h0 => by rw [h0] at hrem; exact absurd hrem (by decide)) (by omega)
      (h.writePos_backed hl) (readOut_of_read (h.outBacked _ hsrc.1 (by omega)) hv)⟩
  · exact ⟨_, .overflowed (.inr hp) (Nat.not_lt.mp hl)⟩

theorem Inv.engine_progress {s : State} (h : Inv s) : ∃ t, EngineCase s t := by
  have hdec : s.phase ∈ [phSop, phLitBit, phLitEmit, phMHasoff, phLCont, phLVal, phMChk, phMCopy] → DecodeInv s :=
    fun hp => h.decoding (busy_of_phase hp)
  rcases phase_cases s.phase with hp | hp | hp | hp | hp | hp | hp | hp | hp | hp | hp | hp
  · exact ⟨s, .still (.inl hp)⟩
  · exact (hdec (by simp [hp])).sop_progress hp
  · exact (hdec (by simp [hp])).litBit_progress hp
  · exact (hdec (by simp [hp])).litEmit_progress hp
  · exact (hdec (by simp [hp])).mHasoff_progress hp
  · exact (hdec (by simp [hp])).lCont_progress hp
  · exact (hdec (by simp [hp])).lVal_progress hp
  · exact mChk_progress hp
  · exact (hdec (by simp [hp])).mCopy_progress hp
  · exact ⟨s, .still (.inr (.inl hp))⟩
  · exact ⟨s, .still (.inr (.inr hp))⟩
  · exact absurd h.phaseLegal (by omega)

/-- A run of engine steps from a state that meets the invariant does not stop, and keeps it. -/
theorem Leads.keeps_inv {o o' : Host.Outcome State Fault Refusal} (h : Leads o o') :
    (∃ s, o = .next s ∧ Inv s) → ∃ t, o' = .next t ∧ Inv t := by
  induction h with
  | here => exact id
  | step _ ih =>
    rintro ⟨s, hs, hI⟩
    cases hs
    obtain ⟨t, ht⟩ := hI.engine_progress
    exact ih ⟨t, ht.engineStep_eq, ht.keeps_inv hI⟩

theorem Inv.engineStep_next {s : State} (h : Inv s) : ∃ t, engineStep s = .next t ∧ Inv t := by
  obtain ⟨t, ht⟩ := h.engine_progress
  exact ⟨t, ht.engineStep_eq, ht.keeps_inv h⟩

theorem Inv.symbolStep_next {s : State} (h : Inv s) : ∃ t, symbolStep s = .next t ∧ Inv t :=
  (symbolStep_leads s).keeps_inv h.engineStep_next

/-- Settles O46: each phase's case happens on a state of R47, and a symbol is a run of engine steps. -/
theorem engineNeverStopsOnBackedInput : Obligations.EngineNeverStopsOnBackedInput := by
  intro s h
  obtain ⟨t, ht, _⟩ := h.engineStep_next
  obtain ⟨u, hu, _⟩ := h.symbolStep_next
  exact ⟨⟨t, ht⟩, ⟨u, hu⟩⟩

/-! ## The host's actions -/

/-- The model's own fields of the host are no part of the invariant. -/
theorem Inv.withHost {s : State} (h : Inv s) (acts : List HostAct) (v : Word) (n : Nat) :
    Inv { s with script := acts, busData := v, freeTick := n } :=
  { h with decoding := fun hb => { h.decoding hb with } }

/-- While the engine is not busy the registers of the decode are free. -/
theorem Inv.idle_change {s t : State} (h : Inv s) (hb : s.busy = false) (hphase : t.phase = s.phase)
    (hcause : t.cause = s.cause) (hinfo : t.info = s.info) (hin : t.inMem.wf) (hout : t.outMem.wf) : Inv t where
  inCanonical := hin
  outCanonical := hout
  phaseLegal := hphase ▸ h.phaseLegal
  causeLegal := hcause ▸ h.causeLegal
  faultRecorded := by rw [hphase, hcause]; exact h.faultRecorded
  noStaleInfo := by rw [hcause, hinfo]; exact h.noStaleInfo
  decoding := fun ht => by
    rw [State.busy, hphase] at ht
    exact absurd (ht.symm.trans hb) (by decide)

theorem hostLoad_inv {s : State} (r : HostReg) (v : Word) (h : Inv s) : Inv (hostLoad r v s) := by
  cases hb : s.busy
  case true => rw [hostLoad_busy r v hb]; exact h
  cases r with
  | src => rw [hostLoad_src v hb]; exact h.idle_change hb rfl rfl rfl h.inCanonical h.outCanonical
  | srcEnd => rw [hostLoad_srcEnd v hb]; exact h.idle_change hb rfl rfl rfl h.inCanonical h.outCanonical
  | dst => rw [hostLoad_dst v hb]; exact h.idle_change hb rfl rfl rfl h.inCanonical h.outCanonical
  | dstEnd => rw [hostLoad_dstEnd v hb]; exact h.idle_change hb rfl rfl rfl h.inCanonical h.outCanonical
  | _ => rw [hostLoad_readOnly (by decide)]; exact h

/-- START on backed ranges begins a decode that meets R47 (45_top_fsm R191). -/
theorem startDecode_inv {s : State} (h : Inv s) (hk : s.launchBacked = true) : Inv (startDecode s) where
  inCanonical := h.inCanonical
  outCanonical := h.outCanonical
  phaseLegal := Nat.le_of_ble_eq_true rfl
  causeLegal := Nat.zero_le _
  faultRecorded := by rw [startDecode_phase, startDecode_cause]; decide
  noStaleInfo := fun _ => rfl
  decoding := fun _ => by
    obtain ⟨hin, hout⟩ := (launchBacked_iff s).mp hk
    exact
      { stateBound := Nat.two_pow_pos 20
        stateFloor := .inr ⟨rfl, rfl⟩
        probsRange := fun i p hp => by
          rw [startDecode_probs, Vector.getElem?_replicate] at hp
          split at hp
          · obtain rfl := Option.some.inj hp; decide
          · cases hp
        lengthCode := by simp
        valPosition := by simp
        treePosition := by simp
        treeDone := by simp
        toCopy := by simp
        copyOffset := by simp
        outStart := le_refl _
        outFilled := fun a h1 h2 => absurd (Nat.lt_of_le_of_lt h1 h2) (Nat.lt_irrefl _)
        inputBacked := hin
        outBacked := hout }

theorem startCommand_inv {s t : State} (h : Inv s) (ht : (startCommand s).toOutcome = .next t) : Inv t := by
  rcases startCommand_cases s with ⟨_, he⟩ | ⟨_, _, hk, he⟩ | ⟨_, _, _, he⟩ | ⟨_, _, he⟩ <;> rw [he] at ht <;> cases ht
  · exact h
  · exact startDecode_inv h hk

theorem hostRead_inv {s t : State} {off : Nat} (h : Inv s) (ht : (hostRead off s).toOutcome = .next t) : Inv t := by
  unfold hostRead at ht
  split at ht <;> cases ht
  exact h.withHost _ _ _

theorem hostWrite_inv {s t : State} {off : Nat} {v : Word} (h : Inv s) (ht : (hostWrite off v s).toOutcome = .next t) :
    Inv t := by
  unfold hostWrite at ht
  split at ht
  · split at ht
    · exact startCommand_inv h ht
    · cases ht; exact h
  · cases ht; exact hostLoad_inv _ v h
  · cases ht

theorem hostReadIn_inv {s t : State} {a : Word} (h : Inv s) (ht : (hostReadIn a s).toOutcome = .next t) : Inv t := by
  unfold hostReadIn at ht
  split at ht <;> cases ht
  exact h.withHost _ _ _

theorem hostReadOut_inv {s t : State} {a : Word} (h : Inv s) (ht : (hostReadOut a s).toOutcome = .next t) : Inv t := by
  unfold hostReadOut at ht
  split at ht
  · split at ht <;> cases ht <;> exact h.withHost _ _ _
  · cases ht

theorem hostWriteIn_inv {s t : State} {a : Word} {v : Byte} (h : Inv s)
    (ht : (hostWriteIn a v s).toOutcome = .next t) : Inv t := by
  unfold hostWriteIn at ht
  split at ht
  · cases ht
  · split at ht <;> cases ht
    exact h.idle_change (Bool.eq_false_iff.mpr ‹_›) rfl rfl rfl (write_wf _ _ _ a.isLt h.inCanonical) h.outCanonical

/-- A byte of OUT the host writes stays written: the output the engine has written is not lost. -/
theorem hostWriteOut_inv {s t : State} {a : Word} {v : Byte} (h : Inv s)
    (ht : (hostWriteOut a v s).toOutcome = .next t) : Inv t := by
  unfold hostWriteOut at ht
  split at ht
  · cases ht
  · split at ht <;> cases ht
    refine { h with outCanonical := write_wf _ _ _ a.isLt h.outCanonical, decoding := fun hb => ?_ }
    refine { h.decoding hb with outFilled := fun b h1 h2 => ?_ }
    show ((s.outMem.write a.toNat v).read b).isSome
    rw [read_write]
    split
    · rfl
    · exact (h.decoding hb).outFilled b h1 h2

/-- The reset input leaves the machine idle, with its memories (70_reset_and_hazards R240). -/
theorem hardwareReset_inv {s : State} (h : Inv s) : Inv (hardwareReset s) where
  inCanonical := h.inCanonical
  outCanonical := h.outCanonical
  phaseLegal := Nat.zero_le _
  causeLegal := Nat.zero_le _
  faultRecorded := by show (0 : BitVec 4) = 10 ↔ (0 : BitVec 3) ≠ 0; decide
  noStaleInfo := fun _ => rfl
  decoding := fun hb => absurd (show false = true from hb) Bool.false_ne_true

/-- A run that does not stop has come to the state that meets the invariant. -/
theorem inv_of_next {o : Host.Outcome State Fault Refusal} {t : State} (h : ∃ u, o = .next u ∧ Inv u)
    (ht : o = .next t) : Inv t := by
  obtain ⟨u, hu, hI⟩ := h
  cases hu.symm.trans ht
  exact hI

theorem boundary_inv {s t : State} {act : HostAct} (h : Inv s) (ht : boundary act s = .next t) : Inv t := by
  cases act with
  | engine => exact inv_of_next h.engineStep_next ht
  | symbol => exact inv_of_next h.symbolStep_next ht
  | regRead off => exact hostRead_inv h ht
  | regWrite off v => exact hostWrite_inv h ht
  | inRead a => exact hostReadIn_inv h ht
  | inWrite a v => exact hostWriteIn_inv h ht
  | outRead a => exact hostReadOut_inv h ht
  | outWrite a v => exact hostWriteOut_inv h ht
  | reset => cases ht; exact hardwareReset_inv h

theorem step_of_script_nil {s : State} (h : s.script = []) : step s = engineStep s := by
  simp only [step, nextMove, h]

/-- Settles O45: one lemma per move of the engine and the host. -/
theorem stepKeepsTheInvariant : Obligations.StepKeepsTheInvariant := by
  intro s t h ht
  cases hs : s.script with
  | nil => exact inv_of_next h.engineStep_next (step_of_script_nil hs ▸ ht)
  | cons act rest =>
    rw [step_of_script hs] at ht
    exact boundary_inv (h.withHost rest s.busData s.freeTick) ht

end Sys2Proof.Machine
end

section
/-! # A decode depends only on its input (10_state R45, R48, R49)

`SameDecode` is kept by engine steps: whatever one machine does next, the other does too. What the platform backs may
differ, so the second machine's reads rest on its own invariant. -/

namespace Sys2Proof.Machine

/-! ## Equal input gives equal decisions -/

/-- A byte read from one machine is read from another with the same written bytes, where that one's IN is backed. -/
theorem readIn_of_same_bytes {s t : State} {a : Nat} {b : Byte} (hm : s.inMem = t.inMem) (hs : s.readIn a = some b)
    (hb : backedAt t.inBacking a = true) : t.readIn a = some b := by
  unfold State.readIn at hs ⊢
  rw [← hm, if_pos hb]
  split at hs
  · exact hs
  · cases hs

theorem InputHolds.transfer {s t : State} {bs : List Byte} (h : InputHolds s bs) (hm : s.inMem = t.inMem)
    (hc : s.cursor = t.cursor) (hw : bs = [] ∨ t.cursor.toNat + bs.length ≤ t.srcEnd.toNat) (hb : InputBacked t) :
    InputHolds t bs := by
  intro k hk
  have hread := h k hk
  rw [hc] at hread
  refine readIn_of_same_bytes hm hread (hb _ (Nat.le_add_right _ _) ?_)
  rcases hw with rfl | hw
  · exact absurd hk (Nat.not_lt_zero k)
  · omega

section
variable {s t : State}

theorem SameDecode.feeds (h : SameDecode s t) (hb : InputBacked t) {bs : List Byte} (hf : Feeds s bs) : Feeds t bs := by
  obtain ⟨hholds, hwithin, hsmall, henough⟩ := hf
  rw [h.cursor, h.srcEnd] at hwithin
  rw [h.state] at hsmall henough
  exact ⟨hholds.transfer h.input h.cursor hwithin hb, hwithin, hsmall, henough⟩

theorem SameDecode.starves (h : SameDecode s t) (hb : InputBacked t) {bs : List Byte} (hs : Starves s bs) :
    Starves t bs := by
  obtain ⟨hholds, hused, hsmall⟩ := hs
  rw [h.cursor, h.srcEnd] at hused
  rw [h.state] at hsmall
  refine ⟨hholds.transfer h.input h.cursor ?_ hb, hused, hsmall⟩
  cases bs with
  | nil => exact .inl rfl
  | cons b bs => right; rw [List.length_cons] at hused ⊢; omega

/-- The same decision is taken, and leaves the same decode. -/
theorem SameDecode.decides (h : SameDecode s t) (hb : InputBacked t) {c : Nat} {b : Bool} {u : State}
    (hd : Decides c s b u) : ∃ u', Decides c t b u' ∧ SameDecode u u' := by
  obtain ⟨bs, p, hf, hp, hbit, rfl⟩ := hd
  refine ⟨decided c p b bs t, ⟨bs, p, h.feeds hb hf, by rw [← h.probs]; exact hp, by rw [← h.state]; exact hbit, rfl⟩, ?_⟩
  exact { h with
    state := by rw [decided_state, decided_state, h.state]
    cursor := by rw [decided_cursor, decided_cursor, h.cursor]
    probs := by rw [decided_probs, decided_probs, h.probs] }

/-- The same bytes consumed. -/
theorem SameDecode.fed (h : SameDecode s t) (bs : List Byte) : SameDecode (fed s bs) (fed t bs) :=
  { h with
    state := by rw [fed_state, fed_state, h.state]
    cursor := by rw [fed_cursor, fed_cursor, h.cursor] }

/-! ## Updates keep two states in the same decode -/

/-- Entering the phase `p`: the registers it reads have to agree. -/
theorem SameDecode.atPhase (h : SameDecode s t) (p : BitVec 4)
    (hbyte : p = phLitBit ∨ p = phLitEmit → s.byte = t.byte := by simp)
    (hlength : p = phLCont ∨ p = phLVal →
      s.acc = t.acc ∧ s.bitPos = t.bitPos ∧ s.lctx = t.lctx ∧ s.lsel = t.lsel := by simp)
    (hrem : p = phMChk ∨ p = phMCopy → s.rem = t.rem := by simp) : SameDecode (atPhase p s) (atPhase p t) :=
  { h with phase := rfl, byte := hbyte, lengthCode := hlength, rem := hrem }

theorem SameDecode.raiseFault (h : SameDecode s t) (k : FaultKind) (i : Word) :
    SameDecode (raiseFault k i s) (raiseFault k i t) :=
  { h.atPhase phFault with cause := rfl, info := rfl }

theorem SameDecode.withByte (h : SameDecode s t) (x : BitVec 9) :
    SameDecode { s with byte := x } { t with byte := x } :=
  { h with byte := fun _ => rfl }

theorem SameDecode.withOffset (h : SameDecode s t) (o : Word) :
    SameDecode { s with offset := o } { t with offset := o } :=
  { h with offset := rfl }

theorem SameDecode.withRem (h : SameDecode s t) (n : Word) : SameDecode { s with rem := n } { t with rem := n } :=
  { h with rem := fun _ => rfl }

theorem SameDecode.withPwm (h : SameDecode s t) (w : Bool) : SameDecode { s with pwm := w } { t with pwm := w } :=
  { h with pwm := rfl }

theorem SameDecode.lstart (h : SameDecode s t) (sel : Bool) : SameDecode (lstart sel s) (lstart sel t) :=
  { h with
    phase := rfl, byte := by simp, lengthCode := fun _ => ⟨rfl, rfl, rfl, rfl⟩, rem := by simp }

/-- The same byte is appended to the same output. -/
theorem SameDecode.appendOut (h : SameDecode s t) (v : Byte) (hl : s.writePos.toNat < s.dstEnd.toNat) :
    SameDecode (appendOut v s) (appendOut v t) := by
  refine { h with writePos := by rw [appendOut_writePos, appendOut_writePos, h.writePos], output := fun a h1 h2 => ?_ }
  rw [appendOut_writePos, writePos_succ_toNat hl] at h2
  rw [appendOut_outMem, appendOut_outMem, read_write, read_write, ← h.writePos]
  split
  · rfl
  · exact h.output a h1 (by omega)

theorem SameDecode.literalByte_eq (h : SameDecode s t) (hp : s.phase = phLitEmit) : literalByte s = literalByte t :=
  congrArg (BitVec.setWidth 8) (h.byte (.inr hp))

theorem SameDecode.lengthValue_eq (h : SameDecode s t) (hp : s.phase = phLCont) : lengthValue s = lengthValue t := by
  obtain ⟨hacc, hpos, _, _⟩ := h.lengthCode (.inl hp)
  unfold lengthValue
  rw [hacc, hpos]

/-- The byte a copy reads is one the decode has written, so both machines read it (20_memory R67). -/
theorem SameDecode.readOut_copySource (h : SameDecode s t) (hp : s.phase = phMCopy) (hi : DecodeInv t) {v : Byte}
    (hl : s.writePos.toNat < s.dstEnd.toNat) (hv : s.readOut (copySource s) = some v) :
    t.readOut (copySource t) = some v := by
  obtain ⟨h1, h2⟩ := hi.copyOffset (h.phase ▸ hp)
  have hsrc : copySource s = copySource t := by unfold copySource; rw [h.writePos, h.offset]
  have hrange : t.dstBase.toNat ≤ copySource t ∧ copySource t < t.writePos.toNat := by
    unfold copySource; omega
  rw [h.writePos, h.dstEnd] at hl
  obtain ⟨w, hw⟩ := Option.isSome_iff_exists.mp (hi.outFilled _ hrange.1 hrange.2)
  have hout := h.output (copySource t) (by rw [h.dstBase]; exact hrange.1) (by rw [h.writePos]; exact hrange.2)
  have hsv : s.readOut (copySource t) = some w ∨ s.readOut (copySource t) = none := by
    unfold State.readOut
    split
    · exact .inl (by rw [hout, hw]; rfl)
    · exact .inr rfl
  rw [hsrc] at hv
  rcases hsv with e | e <;> rw [hv] at e <;> cases e
  exact readOut_of_read (hi.outBacked _ hrange.1 (by omega)) hw

theorem SameDecode.countCopied (h : SameDecode s t) (hrem : s.rem = t.rem) :
    SameDecode (countCopied s) (countCopied t) := by
  rw [countCopied_eq, countCopied_eq, ← hrem]
  by_cases h1 : s.rem = 1
  · simp only [if_pos h1]
    exact ((h.withRem (s.rem - 1)).withPwm true).atPhase phSop
  · simp only [if_neg h1]
    exact (h.withRem (s.rem - 1)).atPhase phMCopy (hrem := fun _ => rfl)

end

/-! ## One step -/

/-- Whatever the engine of one machine does, the engine of the other does, and they stay in the same decode. -/
theorem SameDecode.engine_step {s t s' : State} (h : SameDecode s t) (hI : Inv t) (hc : EngineCase s s') :
    ∃ t', EngineCase t t' ∧ SameDecode s' t' := by
  have hdec : s.phase ∈ [phSop, phLitBit, phLitEmit, phMHasoff, phLCont, phLVal, phMChk, phMCopy] → DecodeInv t :=
    fun hp => hI.decoding (busy_of_phase (h.phase ▸ hp))
  cases hc with
  | starved bs hs hp =>
    have hi := hdec (by revert hp; simp only [List.mem_cons]; tauto)
    refine ⟨_, .starved bs (h.starves hi.inputBacked hs) (h.phase ▸ hp), ?_⟩
    rw [truncated_eq_raise, truncated_eq_raise, ← h.cursor]
    exact (h.fed bs).raiseFault _ _
  | sopLiteral u hp hd =>
    obtain ⟨u', hd', hu⟩ := h.decides (hdec (by simp [hp])).inputBacked hd
    exact ⟨_, .sopLiteral u' (h.phase ▸ hp) hd',
      (hu.withByte 1).atPhase phLitBit (hbyte := fun _ => rfl)⟩
  | sopOffset u hp hd hw =>
    obtain ⟨u', hd', hu⟩ := h.decides (hdec (by simp [hp])).inputBacked hd
    exact ⟨_, .sopOffset u' (h.phase ▸ hp) hd' (h.pwm ▸ hw), hu.lstart false⟩
  | sopHasoff u hp hd hw =>
    obtain ⟨u', hd', hu⟩ := h.decides (hdec (by simp [hp])).inputBacked hd
    exact ⟨_, .sopHasoff u' (h.phase ▸ hp) hd' (h.pwm ▸ hw), hu.atPhase phMHasoff⟩
  | treeBit b u hp hd hb =>
    have hbyte := h.byte (.inl hp)
    obtain ⟨u', hd', hu⟩ := h.decides (hdec (by simp [hp])).inputBacked hd
    rw [hbyte] at hd' hb ⊢
    refine ⟨_, .treeBit b u' (h.phase ▸ hp) hd' hb, ?_⟩
    by_cases h256 : 256 ≤ 2 * t.byte.toNat + b.toNat
    · simp only [if_pos h256]
      exact (hu.withByte (BitVec.ofNat 9 (2 * t.byte.toNat + b.toNat))).atPhase phLitEmit (hbyte := fun _ => rfl)
    · simp only [if_neg h256]
      exact (hu.withByte (BitVec.ofNat 9 (2 * t.byte.toNat + b.toNat))).atPhase phLitBit (hbyte := fun _ => rfl)
  | emitted hp hl =>
    have hl' : t.writePos.toNat < t.dstEnd.toNat := by rw [← h.writePos, ← h.dstEnd]; exact hl
    refine ⟨_, .emitted (h.phase ▸ hp) hl' ((hdec (by simp [hp])).writePos_backed hl'), ?_⟩
    rw [h.literalByte_eq hp]
    exact ((h.appendOut _ hl).withPwm false).atPhase phSop
  | overflowed hp hl =>
    refine ⟨_, .overflowed (h.phase ▸ hp) (by rw [← h.writePos, ← h.dstEnd]; exact hl), ?_⟩
    rw [← h.writePos]
    exact h.raiseFault _ _
  | hasoff b u hp hd =>
    obtain ⟨u', hd', hu⟩ := h.decides (hdec (by simp [hp])).inputBacked hd
    exact ⟨_, .hasoff b u' (h.phase ▸ hp) hd', hu.lstart _⟩
  | continued u hp hd h31 =>
    obtain ⟨u', hd', hu⟩ := h.decides (hdec (by simp [hp])).inputBacked hd
    obtain ⟨_, hpos, hlctx, _⟩ := h.lengthCode (.inl hp)
    have hcode := hu.lengthCode (.inl (hd.phase.trans hp))
    exact ⟨_, .continued u' (h.phase ▸ hp) (hlctx ▸ hd') (hpos ▸ h31),
      hu.atPhase phLVal (hlength := fun _ => hcode)⟩
  | tooLong u hp hd h31 =>
    obtain ⟨u', hd', hu⟩ := h.decides (hdec (by simp [hp])).inputBacked hd
    obtain ⟨_, hpos, hlctx, _⟩ := h.lengthCode (.inl hp)
    rw [hlctx] at hd' ⊢
    exact ⟨_, .tooLong u' (h.phase ▸ hp) hd' (hpos ▸ h31), hu.raiseFault _ _⟩
  | length u hp hd hl =>
    obtain ⟨u', hd', hu⟩ := h.decides (hdec (by simp [hp])).inputBacked hd
    obtain ⟨_, _, hlctx, hsel⟩ := h.lengthCode (.inl hp)
    rw [h.lengthValue_eq hp]
    exact ⟨_, .length u' (h.phase ▸ hp) (hlctx ▸ hd') (hsel ▸ hl),
      (hu.withRem (lengthValue t)).atPhase phMChk (hrem := fun _ => rfl)⟩
  | sentinel u hp hd hl hv =>
    obtain ⟨u', hd', hu⟩ := h.decides (hdec (by simp [hp])).inputBacked hd
    obtain ⟨_, _, hlctx, hsel⟩ := h.lengthCode (.inl hp)
    exact ⟨_, .sentinel u' (h.phase ▸ hp) (hlctx ▸ hd') (hsel ▸ hl) (h.lengthValue_eq hp ▸ hv),
      (hu.withOffset 0).atPhase phDone⟩
  | offset u hp hd hl hv =>
    obtain ⟨u', hd', hu⟩ := h.decides (hdec (by simp [hp])).inputBacked hd
    obtain ⟨_, _, hlctx, hsel⟩ := h.lengthCode (.inl hp)
    rw [h.lengthValue_eq hp] at hv ⊢
    exact ⟨_, .offset u' (h.phase ▸ hp) (hlctx ▸ hd') (hsel ▸ hl) hv, (hu.withOffset (lengthValue t - 1)).lstart true⟩
  | valueBit b u hp hd h31 =>
    obtain ⟨u', hd', hu⟩ := h.decides (hdec (by simp [hp])).inputBacked hd
    obtain ⟨_, hpos, hlctx, _⟩ := h.lengthCode (.inr hp)
    obtain ⟨huacc, hupos, hulctx, husel⟩ := hu.lengthCode (.inr (hd.phase.trans hp))
    refine ⟨_, .valueBit b u' (h.phase ▸ hp) (hlctx ▸ hd') (hpos ▸ h31), ?_⟩
    refine { hu with phase := rfl, byte := by simp, lengthCode := fun _ => ⟨?_, ?_, ?_, husel⟩, rem := by simp }
    · rw [takeValueBit_acc, takeValueBit_acc, accWithBit, accWithBit, huacc, hupos]
    · rw [takeValueBit_bitPos, takeValueBit_bitPos, hupos]
    · rw [takeValueBit_lctx, takeValueBit_lctx, hulctx]
  | checked hp h1 h2 =>
    rw [h.offset] at h1
    rw [h.offset, h.dstBase, h.writePos] at h2
    have hrem := h.rem (.inl hp)
    exact ⟨_, .checked (h.phase ▸ hp) h1 h2, h.atPhase phMCopy (hrem := fun _ => hrem)⟩
  | badOffset hp hbad =>
    rw [h.offset, h.dstBase, h.writePos] at hbad
    rw [h.offset]
    exact ⟨_, .badOffset (h.phase ▸ hp) hbad, h.raiseFault _ _⟩
  | copied v hp hl hne hle _ hv =>
    have hi := hdec (by simp [hp])
    have hrem := h.rem (.inr hp)
    have hl' : t.writePos.toNat < t.dstEnd.toNat := by rw [← h.writePos, ← h.dstEnd]; exact hl
    exact ⟨_, .copied v (h.phase ▸ hp) hl' (hrem ▸ hne) (by rw [← h.offset, ← h.writePos]; exact hle)
      (hi.writePos_backed hl') (h.readOut_copySource hp hi hl hv), (h.appendOut v hl).countCopied hrem⟩
  | still hp => exact ⟨t, .still (h.phase ▸ hp), h⟩

/-! ## Runs -/

theorem Decides.script {c : Nat} {s t : State} {b : Bool} (h : Decides c s b t) : t.script = s.script := by
  rw [h.frame]; rfl

/-- The engine does not touch the host's script. -/
theorem EngineCase.script {s t : State} (h : EngineCase s t) : t.script = s.script := by
  cases h with
  | sopLiteral u _ hd | sopOffset u _ hd | sopHasoff u _ hd | treeBit b u _ hd | hasoff b u _ hd
  | continued u _ hd | tooLong u _ hd | length u _ hd | sentinel u _ hd | offset u _ hd | valueBit b u _ hd =>
    exact hd.script
  | copied v => rw [countCopied_eq]; rfl
  | starved | emitted | overflowed | checked | badOffset | still => rfl

theorem run_succ_of_step (M : Host.Core) {s t : M.State} (k : Nat) (h : M.step s = .next t) :
    M.run (k + 1) s = M.run k t := by
  rw [Host.Core.run, h]

/-- A run of `k + 1` steps that does not stop begins with a step that does not. -/
theorem run_succ_eq_next (M : Host.Core) {s t : M.State} {k : Nat} (h : M.run (k + 1) s = .next t) :
    ∃ u, M.step s = .next u ∧ M.run k u = .next t := by
  rw [Host.Core.run] at h
  cases hu : M.step s with
  | next u => rw [hu] at h; exact ⟨u, rfl, h⟩
  | fault e => rw [hu] at h; cases h
  | refused e => rw [hu] at h; cases h

/-- Two machines in the same decode stay in it, with the host away. -/
theorem SameDecode.run {k : Nat} {u u' t : State} (h : SameDecode u u') (hI : Inv u') (hs : u.script = [])
    (hs' : u'.script = []) (ht : Host.Core.run core k u = .next t) :
    ∃ t', Host.Core.run core k u' = .next t' ∧ SameDecode t t' := by
  induction k generalizing u u' with
  | zero => cases ht; exact ⟨u', rfl, h⟩
  | succ k ih =>
    obtain ⟨v, hv, hrun⟩ := run_succ_eq_next core ht
    have hcase := engineStep_cases ((step_of_script_nil hs).symm.trans hv)
    obtain ⟨v', hcase', hsame⟩ := h.engine_step hI hcase
    obtain ⟨t', ht', hsame'⟩ := ih hsame (hcase'.keeps_inv hI) (hcase.script.trans hs) (hcase'.script.trans hs') hrun
    have hstep' : step u' = .next v' := (step_of_script_nil hs').trans hcase'.engineStep_eq
    exact ⟨t', (run_succ_of_step core k hstep').trans ht', hsame'⟩

/-- START of an idle machine, where it is not refused. -/
theorem start_eq_next {s u : State} (hb : s.busy = false) (h : exec .start s = .next u) :
    u = startDecode s ∧ s.launchBacked = true := by
  have h' : (startCommand s).toOutcome = .next u := h
  rcases startCommand_cases s with ⟨hbusy, _⟩ | ⟨_, _, hk, he⟩ | ⟨_, _, _, he⟩ | ⟨_, _, he⟩
  · rw [hb] at hbusy; cases hbusy
  all_goals rw [he] at h'; cases h'
  exact ⟨rfl, hk⟩

/-- After START nothing is left of what came before but the four registers and IN. -/
theorem startDecode_same {s t : State} (hc : s.cursor = t.cursor) (hse : s.srcEnd = t.srcEnd)
    (hw : s.writePos = t.writePos) (hde : s.dstEnd = t.dstEnd) (hm : s.inMem = t.inMem) :
    SameDecode (startDecode s) (startDecode t) where
  state := rfl
  cursor := hc
  srcEnd := hse
  writePos := hw
  dstBase := hw
  dstEnd := hde
  offset := rfl
  pwm := rfl
  phase := rfl
  cause := rfl
  info := rfl
  probs := rfl
  input := hm
  output := fun _ h1 h2 => absurd (Nat.lt_of_le_of_lt h1 h2) (Nat.lt_irrefl _)
  byte := by simp
  lengthCode := by simp
  rem := by simp

/-- Settles O51: START puts both machines in the same decode, and steps keep them in it. -/
theorem decodeDependsOnlyOnItsInput : Obligations.DecodeDependsOnlyOnItsInput := by
  intro s s' u u' _ hI' hb hb' hs hs' hc hse hw hde hm _ _ hu hu' k t ht
  obtain ⟨rfl, _⟩ := start_eq_next hb hu
  obtain ⟨rfl, hk'⟩ := start_eq_next hb' hu'
  exact (startDecode_same hc hse hw hde hm).run (startDecode_inv hI' hk') hs hs' ht

end Sys2Proof.Machine
end

section
/-! # The memories: what an engine step writes, and the launch START refuses -/

namespace Sys2Proof.Machine

/-! ## The engine's accesses (20_memory R65, R66, R68) -/

theorem Decides.writePos {c : Nat} {s t : State} {b : Bool} (h : Decides c s b t) : t.writePos = s.writePos := by
  rw [h.frame]; rfl

/-- What a step from `s` to `t` may do to the memories: nothing, or one byte stored at `write_pos` below `dst_end`. -/
inductive MemoryStep (s t : State) : Prop where
  | kept : t.inMem = s.inMem → t.outMem = s.outMem → t.writePos = s.writePos → MemoryStep s t
  | appended (v : Byte) : s.phase = phLitEmit ∨ s.phase = phMCopy → s.writePos.toNat < s.dstEnd.toNat →
      t.inMem = s.inMem → t.outMem = s.outMem.write s.writePos.toNat v → t.writePos = s.writePos + 1 → MemoryStep s t

/-- Only the literal and the copied byte are stored; a decision touches no memory, and the other cases are updates of
registers. -/
theorem EngineCase.memoryStep {s t : State} (h : EngineCase s t) : MemoryStep s t := by
  cases h with
  | sopLiteral u _ hd | sopOffset u _ hd | sopHasoff u _ hd | treeBit b u _ hd | hasoff b u _ hd
  | continued u _ hd | tooLong u _ hd | length u _ hd | sentinel u _ hd | offset u _ hd | valueBit b u _ hd =>
    exact .kept hd.inMem hd.outMem hd.writePos
  | emitted hp hl => exact .appended (literalByte s) (.inl hp) hl rfl rfl rfl
  | copied v hp hl => rw [countCopied_eq]; exact .appended v (.inr hp) hl rfl rfl rfl
  | starved | overflowed | checked | badOffset | still => exact .kept rfl rfl rfl

/-- Settles O40: a stored byte shows at no address but `write_pos`, which moves on without wrapping. -/
theorem engineWritesOnlyAtWritePos : Obligations.EngineWritesOnlyAtWritePos := by
  intro s t h
  cases (engineStep_cases h).memoryStep with
  | kept hin hout hw => exact ⟨hin, fun _ _ => by rw [hout], .inl ⟨hout, hw⟩⟩
  | appended v hp hl hin hout hw =>
    exact ⟨hin, fun a ha => by rw [hout, read_write_other _ _ ha],
      .inr ⟨hp, hl, by rw [hw, writePos_succ_toNat hl]⟩⟩

/-! ## The launch (20_memory R71, 93_implementation_defined U14) -/

/-- START of an idle machine whose four registers are written looks at the two ranges only. -/
theorem exec_start_ready {s : State} (hb : s.busy = false) (hl : s.launchReady = true) :
    exec .start s = if s.launchBacked then .next (startDecode s) else .refused .launchNotBacked := by
  show (startCommand s).toOutcome = _
  rcases startCommand_cases s with ⟨hbusy, _⟩ | ⟨_, _, hk, he⟩ | ⟨_, _, hk, he⟩ | ⟨_, hun, _⟩
  · rw [hb] at hbusy; cases hbusy
  · rw [he, hk]; rfl
  · rw [he, hk]; rfl
  · rw [hl] at hun; cases hun

/-- The launch check fails at an address of one of the two ranges. -/
theorem launchBacked_eq_false_iff (s : State) : s.launchBacked = false ↔
    (∃ a, s.cursor.toNat ≤ a ∧ a < s.srcEnd.toNat ∧ backedAt s.inBacking a = false) ∨
    ∃ a, s.writePos.toNat ≤ a ∧ a < s.dstEnd.toNat ∧ backedAt s.outBacking a = false := by
  rw [← Bool.not_eq_true, launchBacked_iff, not_and_or]
  simp only [InputBacked, OutBacked, not_forall, exists_prop, Bool.not_eq_true]

/-- Settles O58: START is refused by this name exactly where the launch check fails. -/
theorem startRefusesExactlyTheUnbackedLaunches : Obligations.StartRefusesExactlyTheUnbackedLaunches := by
  intro s hb hl
  rw [exec_start_ready hb hl, ← launchBacked_eq_false_iff]
  cases s.launchBacked <;> simp

end Sys2Proof.Machine
end

section
/-! # The encodings at the decision layer (30_encoding R91 to R103)

The two recursive codes, the literal's tree and the length code, are read back whatever follows them; a symbol's
decisions then have one form per kind, over which the statements go case by case. -/

namespace Sys2Proof

/-! ## The literal's tree (30_encoding R95) -/

theorem treeDecisions_eq (v : Byte) : treeDecisions v = (List.range 8).reverse.map (treeDecision v) := rfl

/-- The low `n` bits of a literal, most significant first, are shifted into the partial byte. -/
theorem parseTree_bits (v : Byte) (n x : Nat) (rest : List Bool) :
    parseTree n x ((List.range n).reverse.map v.getLsbD ++ rest) =
      .ok (BitVec.ofNat 8 (x * 2 ^ n + v.toNat % 2 ^ n), rest) := by
  induction n generalizing x with
  | zero => simp [parseTree, Nat.mod_one]
  | succ n ih =>
    have hbits : (List.range (n + 1)).reverse.map v.getLsbD = v.getLsbD n :: (List.range n).reverse.map v.getLsbD := by
      rw [List.range_succ, List.reverse_append]; rfl
    have hvalue : (2 * x + (v.getLsbD n).toNat) * 2 ^ n + v.toNat % 2 ^ n =
        x * 2 ^ (n + 1) + v.toNat % 2 ^ (n + 1) := by
      rw [Nat.mod_pow_succ, ← Nat.toNat_testBit, BitVec.testBit_toNat]
      ring
    rw [hbits, List.cons_append, parseTree, ih, hvalue]

theorem parseTree_treeDecisions (v : Byte) (rest : List Bool) :
    parseTree 8 1 ((treeDecisions v).map Prod.snd ++ rest) = .ok (v, rest) := by
  have hseed : BitVec.ofNat 8 (1 * 2 ^ 8 + v.toNat % 2 ^ 8) = v := by
    apply BitVec.eq_of_toNat_eq
    rw [BitVec.toNat_ofNat]
    omega
  rw [treeDecisions_eq, List.map_map]
  exact (parseTree_bits v 8 1 rest).trans (by rw [hseed])

/-! ## The length code (30_encoding R97) -/

/-- The length code of every value that fits is read back, with no bit of what follows. -/
theorem parseLength_lengthDecisions (B n k v : Nat) (rest : List Bool) (h1 : 1 ≤ v) (h2 : v < 2 ^ (n + 1)) :
    parseLength n ((lengthDecisions B n k v).map Prod.snd ++ rest) = .ok (v, rest) := by
  induction n generalizing k v with
  | zero =>
    obtain rfl : v = 1 := by omega
    rfl
  | succ n ih =>
    rw [lengthDecisions]
    by_cases hv : v ≤ 1
    · obtain rfl : v = 1 := by omega
      rw [if_pos hv]; rfl
    · have hbit : 2 * (v / 2) + (v % 2 == 1).toNat = v := by
        rcases Nat.mod_two_eq_zero_or_one v with h | h <;> rw [h] <;> simp <;> omega
      have hhalf := ih (k + 1) (v / 2) (by omega) (by rw [Nat.pow_succ] at h2; omega)
      rw [if_neg hv, List.map_cons, List.map_cons, List.cons_append, List.cons_append, parseLength, hhalf]
      simp only [hbit]

/-- What a length code can deliver: at least the leading 1, and one bit per position. -/
theorem parseLength_range {n v : Nat} {bs rest : List Bool} (h : parseLength n bs = .ok (v, rest)) :
    1 ≤ v ∧ v < 2 ^ (n + 1) := by
  induction n, bs using parseLength.induct generalizing v rest with
  | case1 | case3 | case4 => simp only [parseLength, reduceCtorEq] at h
  | case2 n bs =>
    rw [parseLength] at h
    cases h
    exact ⟨le_refl 1, Nat.one_lt_two_pow n.succ_ne_zero⟩
  | case5 n b bs half bs' hhalf ih =>
    rw [parseLength, hhalf] at h
    cases h
    obtain ⟨hlo, hhi⟩ := ih hhalf
    have hbit := b.toNat_lt
    rw [Nat.pow_succ] at hhi ⊢
    omega
  | case6 n b bs e herr => rw [parseLength, herr] at h; cases h

/-! ## The match-length code and the offset code (30_encoding R94, R98, R99) -/

theorem wfLength_iff {n : Word} : wfLength n = true ↔ 1 ≤ n.toNat := decide_eq_true_iff

theorem wfOffset_iff {o : Word} : wfOffset o = true ↔ 1 ≤ o.toNat ∧ o.toNat ≤ 2 ^ 32 - 2 := by
  simp only [wfOffset, Bool.and_eq_true, decide_eq_true_eq]

theorem parseMatchLength_lengthCode (mk : Word → Instr) {n : Word} (rest : List Bool) (hn : wfLength n = true) :
    parseMatchLength mk ((lengthCode .len n.toNat).map Prod.snd ++ rest) = .ok (mk n, rest) := by
  rw [parseMatchLength, lengthCode, parseLength_lengthDecisions _ _ _ _ _ (wfLength_iff.mp hn) n.isLt]
  simp only [BitVec.ofNat_toNat, BitVec.setWidth_eq]

theorem parseOffset_lengthCodes (fin : Instr) (mk : Word → Word → Instr) {o n : Word} (rest : List Bool)
    (ho : wfOffset o = true) (hn : wfLength n = true) :
    parseOffset fin mk ((lengthCode .off (o.toNat + 1) ++ lengthCode .len n.toNat).map Prod.snd ++ rest) =
      .ok (mk o n, rest) := by
  obtain ⟨hlo, hhi⟩ := wfOffset_iff.mp ho
  have hread := parseLength_lengthDecisions (blockBase .off) Config.lcMaxPos 0 (o.toNat + 1)
    ((lengthCode .len n.toNat).map Prod.snd ++ rest) (by omega) (by show o.toNat + 1 < 2 ^ 32; omega)
  rw [List.map_append, List.append_assoc, parseOffset, lengthCode, hread]
  simp only [Nat.add_sub_cancel, BitVec.ofNat_toNat, BitVec.setWidth_eq]
  rw [if_neg (by omega), parseMatchLength_lengthCode _ _ hn]

/-- What a match-length code completes is well formed. -/
theorem parseMatchLength_eq_ok {mk : Word → Instr} {bs rest : List Bool} {i : Instr}
    (h : parseMatchLength mk bs = .ok (i, rest)) : ∃ n, wfLength n = true ∧ i = mk n := by
  rw [parseMatchLength] at h
  split at h
  case h_1 v bs' hv =>
    cases h
    obtain ⟨hlo, hhi⟩ := parseLength_range hv
    exact ⟨_, wfLength_iff.mpr (by rw [BitVec.toNat_ofNat, Nat.mod_eq_of_lt hhi]; exact hlo), rfl⟩
  case h_2 => cases h

/-- An offset code is the end of the stream, or begins a match that is well formed. -/
theorem parseOffset_eq_ok {fin : Instr} {mk : Word → Word → Instr} {bs rest : List Bool} {i : Instr}
    (h : parseOffset fin mk bs = .ok (i, rest)) :
    i = fin ∨ ∃ o n, wfOffset o = true ∧ wfLength n = true ∧ i = mk o n := by
  rw [parseOffset] at h
  split at h
  case h_1 v bs' hv =>
    obtain ⟨hlo, hhi⟩ : 1 ≤ v ∧ v < 2 ^ 32 := parseLength_range hv
    split at h
    case isTrue => cases h; exact .inl rfl
    case isFalse hne =>
      obtain ⟨n, hn, rfl⟩ := parseMatchLength_eq_ok h
      have ho : (BitVec.ofNat 32 (v - 1)).toNat = v - 1 := by rw [BitVec.toNat_ofNat]; omega
      exact .inr ⟨_, n, wfOffset_iff.mpr (by omega), hn, rfl⟩
  case h_2 => cases h

/-! ## The forms of a symbol's decisions (30_encoding R93, R94) -/

/-- The decisions of the well-formed symbols the mode `pwm` admits, kind by kind. -/
inductive SymbolForm : Bool → Instr → List Decision → Prop where
  | lit (pwm : Bool) (v : Byte) : SymbolForm pwm (.lit v) ((0, false) :: treeDecisions v)
  | matchR {n : Word} : wfLength n = true →
      SymbolForm false (.matchR n) ((0, true) :: (256, false) :: lengthCode .len n.toNat)
  | matchN {o n : Word} : wfOffset o = true → wfLength n = true → SymbolForm false (.matchN o n)
      ((0, true) :: (256, true) :: (lengthCode .off (o.toNat + 1) ++ lengthCode .len n.toNat))
  | matchC {o n : Word} : wfOffset o = true → wfLength n = true → SymbolForm true (.matchC o n)
      ((0, true) :: (lengthCode .off (o.toNat + 1) ++ lengthCode .len n.toNat))
  | endN : SymbolForm false .endN ((0, true) :: (256, true) :: lengthCode .off 1)
  | endC : SymbolForm true .endC ((0, true) :: lengthCode .off 1)

theorem symbolForm_of_decisions {pwm : Bool} {i : Instr} {ds : List Decision} (hwf : i.wf = true)
    (h : symbolDecisions pwm i = some ds) : SymbolForm pwm i ds := by
  cases i with
  | lit v => cases h; exact .lit pwm v
  | matchR n => cases pwm <;> cases h; exact .matchR hwf
  | matchN o n =>
    obtain ⟨ho, hn⟩ := Bool.and_eq_true_iff.mp hwf
    cases pwm <;> cases h
    exact .matchN ho hn
  | matchC o n =>
    obtain ⟨ho, hn⟩ := Bool.and_eq_true_iff.mp hwf
    cases pwm <;> cases h
    exact .matchC ho hn
  | endN => cases pwm <;> cases h; exact .endN
  | endC => cases pwm <;> cases h; exact .endC
  | _ => cases h

/-! ## Reading symbols back (30_encoding R101) -/

theorem SymbolForm.parseSymbol_append {pwm : Bool} {i : Instr} {ds : List Decision} (h : SymbolForm pwm i ds)
    (rest : List Bool) : parseSymbol pwm (ds.map Prod.snd ++ rest) = .ok (i, rest) := by
  cases h with
  | lit _ v => simp only [List.map_cons, List.cons_append, parseSymbol, parseTree_treeDecisions]
  | matchR hn => exact parseMatchLength_lengthCode .matchR rest hn
  | matchN ho hn => exact parseOffset_lengthCodes .endN .matchN rest ho hn
  | matchC ho hn => exact parseOffset_lengthCodes .endC .matchC rest ho hn
  | endN | endC => rfl

/-- Settles O55: one case per form of a symbol's decisions. -/
theorem symbolsDelimitThemselves : Obligations.SymbolsDelimitThemselves := fun _ _ _ rest hwf h =>
  (symbolForm_of_decisions hwf h).parseSymbol_append rest

/-- What is read as a symbol has its fields in their ranges. -/
theorem parseSymbol_wf {pwm : Bool} {bs rest : List Bool} {i : Instr} (h : parseSymbol pwm bs = .ok (i, rest)) :
    i.wf = true := by
  match bs, pwm with
  | [], _ => cases h
  | false :: bs, _ =>
    rw [parseSymbol] at h
    split at h <;> cases h
    rfl
  | true :: bs, true =>
    rcases parseOffset_eq_ok h with rfl | ⟨o, n, ho, hn, rfl⟩
    · rfl
    · exact Bool.and_eq_true_iff.mpr ⟨ho, hn⟩
  | [true], false => cases h
  | true :: true :: bs, false =>
    rcases parseOffset_eq_ok h with rfl | ⟨o, n, ho, hn, rfl⟩
    · rfl
    · exact Bool.and_eq_true_iff.mpr ⟨ho, hn⟩
  | true :: false :: bs, false =>
    obtain ⟨n, hn, rfl⟩ := parseMatchLength_eq_ok h
    exact hn

/-! ## Decode and encode -/

theorem decode_stream_eq_ok {pwm : Bool} {ds : List Decision} {i : Instr} :
    decode (.stream pwm ds) = .ok i ↔
      parseSymbol pwm (ds.map Prod.snd) = .ok (i, []) ∧ symbolDecisions pwm i = some ds := by
  rw [decode]
  constructor
  · intro h
    split at h
    · cases h
    · cases h
    · split at h <;> cases h
      exact ⟨‹_›, ‹_›⟩
  · rintro ⟨hparse, hds⟩
    simp only [hparse, hds, if_true]

/-- A well-formed symbol's decisions decode to it. -/
theorem decode_symbolDecisions {pwm : Bool} {i : Instr} {ds : List Decision} (hwf : i.wf = true)
    (h : symbolDecisions pwm i = some ds) : decode (.stream pwm ds) = .ok i := by
  have hparse := (symbolForm_of_decisions hwf h).parseSymbol_append []
  rw [List.append_nil] at hparse
  exact decode_stream_eq_ok.mpr ⟨hparse, h⟩

theorem decodePhase_phaseCode {i : Instr} {c : BitVec 4} (h : phaseCode i = some c) : decodePhase c = .ok i := by
  cases i <;> cases h <;> rfl

theorem phaseCode_of_decodePhase :
    ∀ c : BitVec 4, ∀ i ∈ (decodePhase c).toOption, i.wf = true ∧ phaseCode i = some c := by
  decide

/-- The steps of the engine are no symbols. -/
theorem symKind_of_phaseCode {i : Instr} {c : BitVec 4} (h : phaseCode i = some c) : i.symKind = none := by
  cases i <;> cases h <;> rfl

/-- The kinds of symbol the mode `pwm` admits (30_encoding R94). -/
def SymKind.admitted (pwm : Bool) : SymKind → Bool
  | .lit => true
  | .matchR | .endN | .matchN => !pwm
  | .endC | .matchC => pwm

/-- The operations with decisions are the symbols the mode admits. -/
theorem symbolDecisions_isSome (pwm : Bool) (i : Instr) :
    (symbolDecisions pwm i).isSome = i.symKind.any (·.admitted pwm) := by
  cases i <;> cases pwm <;> rfl

theorem not_admitted_iff (pwm : Bool) (k : Option SymKind) : k.any (·.admitted pwm) = false ↔
    k = none ∨ (k ∈ [some .matchN, some .matchR, some .endN] ∧ pwm = true) ∨
      (k ∈ [some .matchC, some .endC] ∧ pwm = false) := by
  cases k with
  | none => exact iff_of_true rfl (.inl rfl)
  | some k => cases k <;> cases pwm <;> decide

theorem symbolDecisions_eq_none_iff (pwm : Bool) (i : Instr) : symbolDecisions pwm i = none ↔
    i.symKind = none ∨
    (i.symKind ∈ [some .matchN, some .matchR, some .endN] ∧ pwm = true) ∨
    (i.symKind ∈ [some .matchC, some .endC] ∧ pwm = false) := by
  rw [← Option.isNone_iff_eq_none, ← Option.isSome_eq_false_iff, symbolDecisions_isSome, not_admitted_iff]

theorem encode_of_phaseCode {i : Instr} {c : BitVec 4} (pwm : Bool) (h : phaseCode i = some c) :
    encode pwm i = some (.phase c) := by
  rw [encode, h]

theorem encode_of_phaseCode_none {i : Instr} (pwm : Bool) (h : phaseCode i = none) :
    encode pwm i = (symbolDecisions pwm i).map (.stream pwm) := by
  rw [encode, h]

theorem phaseCode_of_symbolDecisions {pwm : Bool} {i : Instr} {ds : List Decision}
    (h : symbolDecisions pwm i = some ds) :
    phaseCode i = none := by
  cases hc : phaseCode i with
  | none => rfl
  | some c =>
    rw [(symbolDecisions_eq_none_iff pwm i).mpr (.inl (symKind_of_phaseCode hc))] at h
    cases h

/-- Settles O54: the decoder checks the decisions it read against those it would write, and reads fields in their
ranges only; of the phase codes each is looked at. -/
theorem encodeInvertsDecode : Obligations.EncodeInvertsDecode := by
  refine ⟨fun pwm ds i h => ?_, fun pwm c i h => ?_⟩
  · obtain ⟨hparse, hds⟩ := decode_stream_eq_ok.mp h
    refine ⟨parseSymbol_wf hparse, ?_⟩
    rw [encode_of_phaseCode_none pwm (phaseCode_of_symbolDecisions hds), hds]
    rfl
  · rw [decode] at h
    obtain ⟨hwf, hcode⟩ := phaseCode_of_decodePhase c i (by rw [h]; rfl)
    exact ⟨hwf, encode_of_phaseCode pwm hcode⟩

/-- Settles O53: phase codes by their table, symbols by reading their decisions back; an operation without a phase code
has an encoding exactly if it has decisions. -/
theorem decodeInvertsEncode : Obligations.DecodeInvertsEncode := by
  intro pwm i hwf
  cases hc : phaseCode i with
  | some c =>
    rw [encode_of_phaseCode pwm hc, symKind_of_phaseCode hc]
    refine ⟨fun e he => ?_, by simp⟩
    cases he
    exact decodePhase_phaseCode hc
  | none =>
    rw [encode_of_phaseCode_none pwm hc]
    refine ⟨fun e he => ?_, ?_⟩
    · obtain ⟨ds, hds, rfl⟩ := Option.map_eq_some_iff.mp he
      exact decode_symbolDecisions hwf hds
    · rw [Option.map_eq_none_iff, symbolDecisions_eq_none_iff]
      simp only [true_and]

/-! ## Selectors (30_encoding R101, R103) -/

/-- The row a selector picks, decision by decision, as the grammar of 30_encoding R94 reads them. -/
theorem selectRow_of_bits : ∀ pwm d0 d1 d2 : Bool,
    selectRow (BitVec.ofNat 4 (8 * pwm.toNat + 4 * d0.toNat + 2 * d1.toNat + d2.toNat)) =
      some (if d0 then
          if pwm then (if d1 then .matchC else .endC)
          else if d1 then (if d2 then .matchN else .endN) else .matchR
        else .lit) := by
  decide

/-- The first decision of the length code of a value above 1 goes on. -/
theorem lengthCode_continues (b : Block) {v : Nat} (h : 2 ≤ v) :
    ∃ ds, lengthCode b v = (blockBase b, true) :: ds :=
  ⟨_, if_neg (by omega)⟩

theorem SymbolForm.selectRow_append {pwm : Bool} {i : Instr} {ds : List Decision} (h : SymbolForm pwm i ds)
    (rest : List Bool) : selectRow (selector pwm (ds.map Prod.snd ++ rest)) = i.symKind := by
  rw [selector, selectRow_of_bits]
  cases h with
  | lit | matchR | endN | endC => rfl
  | matchN ho | matchC ho =>
    obtain ⟨_, hds⟩ := lengthCode_continues .off (Nat.succ_le_succ (wfOffset_iff.mp ho).1)
    rw [hds]; rfl

/-- Settles O56: the decisions the row looks at are fixed by the form of the symbol. -/
theorem selectorPicksTheRowOfTheSymbol : Obligations.SelectorPicksTheRowOfTheSymbol := fun _ _ _ rest hwf h =>
  (symbolForm_of_decisions hwf h).selectRow_append rest

/-- Settles O57, selector by selector. -/
theorem everySelectorHasExactlyOneRow : Obligations.EverySelectorHasExactlyOneRow := by
  unfold Obligations.EverySelectorHasExactlyOneRow
  decide

/-- Settles O52: the phase codes by their table, each decision trace as that of the symbol it stands for. -/
theorem writtenOutEncodingsDecode : Obligations.WrittenOutEncodingsDecode :=
  ⟨rfl, rfl, rfl, decode_symbolDecisions rfl rfl, decode_symbolDecisions rfl rfl, decode_symbolDecisions rfl rfl,
    decode_symbolDecisions rfl rfl, decode_symbolDecisions rfl rfl, decode_symbolDecisions rfl rfl⟩

end Sys2Proof
end

section
/-! # The decisions of a symbol are fetched as that symbol (30_encoding R91, 45_top_fsm R197)

A fetch writes the working registers of the codes between decisions, and a decision reads none of them: `withCodes`
carries a run of decisions over these writes. -/

namespace Sys2Proof.Machine

/-! ## The working registers do not matter to decisions -/

/-- `t` with the working registers of the codes as in `r`. -/
def withCodes (t r : State) : State :=
  { t with
    byte := r.byte, lsel := r.lsel, acc := r.acc, bitPos := r.bitPos, lctx := r.lctx, offset := r.offset, rem := r.rem }

theorem DecidesAll.congr {ds : List Decision} {s s' t : State} (h : DecidesAll ds s t) (e : SameCoder s s') :
    DecidesAll ds s' (withCoder s' t) := by
  induction h generalizing s' with
  | nil s =>
    have hsame : withCoder s' s = s' := by unfold withCoder; rw [e.state, e.cursor, e.probs]
    rw [hsame]
    exact .nil s'
  | cons hd _ ih => exact .cons (hd.congr e) (ih (withCoder_sameCoder hd e))

/-- A run of decisions is the same whatever the working registers hold, and leaves them. -/
theorem DecidesAll.withCodes {ds : List Decision} {s t : State} (h : DecidesAll ds s t) (r : State) :
    DecidesAll ds (withCodes s r) (withCodes t r) := by
  have hrun := h.congr (s' := Machine.withCodes s r) ⟨rfl, rfl, rfl, rfl, rfl, rfl⟩
  have hleft : withCoder (Machine.withCodes s r) t = Machine.withCodes t r := by rw [h.frame]; rfl
  rwa [hleft] at hrun

theorem Decides.rem {c : Nat} {s t : State} {b : Bool} (h : Decides c s b t) : t.rem = s.rem := by rw [h.frame]; rfl

/-! ## The length code (42_length_decoder R151) -/

/-- The length code of a value: the decisions of its value bits, and the continue decision of 0 that ends it. -/
theorem lengthDecisions_eq (B n k v : Nat) (h1 : 1 ≤ v) (h2 : v < 2 ^ (n + 1)) :
    ∃ vs, vs.length ≤ n ∧ v = bitsValue vs + 2 ^ vs.length ∧
      lengthDecisions B n k v = valueDecisions B k vs ++ [(B + 2 * (k + vs.length), false)] := by
  induction n generalizing k v with
  | zero => exact ⟨[], le_refl 0, by simp only [bitsValue, List.length_nil]; omega, rfl⟩
  | succ n ih =>
    rw [lengthDecisions]
    by_cases hv : v ≤ 1
    · exact ⟨[], Nat.zero_le _, by simp only [bitsValue, List.length_nil]; omega, if_pos hv⟩
    · obtain ⟨vs, hlen, hvalue, hds⟩ := ih (k + 1) (v / 2) (by omega) (by rw [Nat.pow_succ] at h2; omega)
      refine ⟨(v % 2 == 1) :: vs, Nat.succ_le_succ hlen, ?_, ?_⟩
      · have hbit : (v % 2 == 1).toNat = v % 2 := by
          rcases Nat.mod_two_eq_zero_or_one v with h | h <;> rw [h] <;> rfl
        rw [bitsValue, List.length_cons, Nat.pow_succ, hbit]
        omega
      · have hpos : k + 1 + vs.length = k + (vs.length + 1) := by omega
        rw [if_neg hv, hds, hpos]
        rfl

theorem lengthLoop_stop {s t : State} (n : Nat) (h : Decides (contContext s) s false t) :
    lengthLoop n s = .ok (lengthValue t) t := by
  cases n <;> simp only [lengthLoop, decodeBit_decides h, bind_ok, Bool.false_eq_true, if_false]

theorem contContext_withLengthAt {B k : Nat} (hB : B ≤ 321) (hk : k ≤ 31) (a : Nat) (t : State) :
    contContext (withLengthAt B k a t) = B + 2 * k := by
  simp only [contContext, withLengthAt, BitVec.toNat_ofNat]
  omega

theorem lengthValue_withLengthAt {k a : Nat} (hk : k ≤ 31) (ha : a < 2 ^ k) (B : Nat) (t : State) :
    (lengthValue (withLengthAt B k a t)).toNat = a + 2 ^ k := by
  have hpow : 2 ^ k < 2 ^ 32 := Nat.pow_lt_pow_right (by omega) (by omega)
  have hpos : (withLengthAt B k a t).bitPos.toNat = k := by simp only [withLengthAt, BitVec.toNat_ofNat]; omega
  have hacc : (withLengthAt B k a t).acc.toNat = a := by simp only [withLengthAt, BitVec.toNat_ofNat]; omega
  rw [lengthValue_toNat _ (by rw [hpos, hacc]; exact ha), hpos, hacc]

/-- DECLEN reads the value whose length code the stream carries. -/
theorem decodeLength_lengthCode {b : Block} {v : Word} {s t : State} (hv : 1 ≤ v.toNat)
    (h : DecidesAll (lengthCode b v.toNat) s t) :
    ∃ k a, decodeLength b s = .ok v (withLengthAt (blockBase b) k a t) := by
  have hB : blockBase b ≤ 321 := by cases b <;> decide
  obtain ⟨vs, hlen, hvalue, hds⟩ := lengthDecisions_eq (blockBase b) 31 0 v.toNat hv v.isLt
  rw [lengthCode, hds, Nat.zero_add, decidesAll_append] at h
  obtain ⟨u, hvs, hlast⟩ := h
  obtain ⟨_, hstop, hnil⟩ := decidesAll_cons.mp hlast
  cases decidesAll_nil.mp hnil
  have hstart : { s with acc := 0, bitPos := 0, lctx := lstartContext (blockSel b) } =
      withLengthAt (blockBase b) 0 0 s := by
    cases b <;> rfl
  have hloop := lengthLoop_values (blockBase b) hB vs 0 0 s u Nat.one_pos (by omega) hvs
  rw [Nat.zero_add, Nat.zero_add, Nat.pow_zero, Nat.one_mul] at hloop
  have hend := hstop.congr (sameCoder_withLengthAt (blockBase b) vs.length (bitsValue vs) u)
  rw [withCoder_withLengthAt _ _ _ hstop, ← contContext_withLengthAt hB hlen (bitsValue vs) u] at hend
  have hdelivered : lengthValue (withLengthAt (blockBase b) vs.length (bitsValue vs) t) = v :=
    BitVec.eq_of_toNat_eq ((lengthValue_withLengthAt hlen (bitsValue_lt vs) _ t).trans hvalue.symm)
  refine ⟨vs.length, bitsValue vs, ?_⟩
  rw [decodeLength, hstart]
  exact hloop.trans ((lengthLoop_stop _ hend).trans (by rw [hdelivered]))

/-! ## The literal's tree (43_literal_decoder R161) -/

/-- DECLIT's loop with `n` decisions to come: the partial byte is the seed bit and the upper bits of the literal. -/
theorem literalLoop_treeDecisions (v : Byte) (n : Nat) (hn : n ≤ 8) {s t : State}
    (hbyte : s.byte.toNat = 2 ^ (8 - n) + v.toNat / 2 ^ n)
    (h : DecidesAll ((List.range n).reverse.map (treeDecision v)) s t) :
    ∃ u, literalLoop n s = .ok v u ∧ u = withCodes t u ∧
      u.byte.setWidth 8 = v ∧ u.offset = s.offset ∧ u.rem = s.rem := by
  induction n generalizing s t with
  | zero =>
    have hv : s.byte.setWidth 8 = v := by
      apply BitVec.eq_of_toNat_eq
      rw [BitVec.toNat_setWidth, hbyte]
      omega
    cases decidesAll_nil.mp h
    exact ⟨s, by rw [literalLoop, literalByte, hv], rfl, hv, rfl, rfl⟩
  | succ n ih =>
    rw [List.range_succ, List.reverse_append] at h
    obtain ⟨w, hd, hrest⟩ := decidesAll_cons.mp h
    have hctx : treeContext s = 2 ^ (7 - n) + v.toNat / 2 ^ (n + 1) := by
      rw [treeContext, hbyte, Nat.sub_add_eq, Nat.sub_right_comm]
    rw [← hctx] at hd
    have hpow : 2 ^ (8 - n) = 2 * 2 ^ (8 - (n + 1)) := by rw [← Nat.pow_succ']; congr 1; omega
    have hlow : s.byte.toNat ≤ 255 := by
      have hupper : v.toNat / 2 ^ (n + 1) < 2 ^ (8 - (n + 1)) := by
        rw [Nat.div_lt_iff_lt_mul (Nat.two_pow_pos _), ← Nat.pow_add, Nat.sub_add_cancel hn]
        exact v.isLt
      have hseed : 2 ^ (8 - (n + 1)) ≤ 2 ^ 7 := Nat.pow_le_pow_right (by omega) (by omega)
      omega
    have hnext : (byteWithBit w (v.getLsbD n)).toNat = 2 ^ (8 - n) + v.toNat / 2 ^ n := by
      rw [byteWithBit_toNat _ (by rw [hd.byte]; exact hlow), hd.byte, hbyte, ← BitVec.testBit_toNat, Nat.toNat_testBit,
        Nat.pow_succ, ← Nat.div_div_eq_div_mul]
      omega
    obtain ⟨u, hloop, hframe, hv, hoffset, hrem⟩ :=
      ih (by omega) hnext (hrest.withCodes { w with byte := byteWithBit w (v.getLsbD n) })
    refine ⟨u, ?_, hframe, hv, hoffset.trans hd.offset, hrem.trans hd.rem⟩
    rw [literalLoop, if_pos (by omega), decodeBit_decides hd]
    exact hloop

theorem decodeLiteral_treeDecisions {v : Byte} {s t : State} (h : DecidesAll (treeDecisions v) s t) :
    ∃ u, decodeLiteral s = .ok v u ∧ u = withCodes t u ∧
      u.byte.setWidth 8 = v ∧ u.offset = s.offset ∧ u.rem = s.rem :=
  literalLoop_treeDecisions v 8 (le_refl 8) (s := { s with byte := 1 }) (t := withCodes t { s with byte := 1 })
    (by show 1 = 1 + v.toNat / 256; omega) (h.withCodes { s with byte := 1 })

/-! ## Match lengths and offsets (44_match_copy R177 to R181) -/

theorem fetchLength_lengthCode (mk : Word → Instr) {n : Word} {s t : State} (hn : wfLength n = true)
    (h : DecidesAll (lengthCode .len n.toNat) s t) :
    ∃ u, fetchLength mk s = .ok (mk n) u ∧ u = withCodes t u ∧ u.rem = n ∧ u.offset = s.offset := by
  obtain ⟨k, a, hread⟩ := decodeLength_lengthCode (wfLength_iff.mp hn) (h.withCodes { s with lsel := true })
  refine ⟨{ withLengthAt (blockBase .len) k a (withCodes t { s with lsel := true }) with rem := n }, ?_, rfl, rfl, rfl⟩
  exact congrArg (Res.bind · _) hread

theorem fetchOffset_of_read {s w : State} {v : Word} (fin : Instr) (mk : Word → Word → Instr)
    (h : decodeLength .off { s with lsel := false } = .ok v w) :
    fetchOffset fin mk s = if v - 1 = 0 then .ok fin { w with offset := v - 1 }
      else fetchLength (mk (v - 1)) { w with offset := v - 1 } := by
  rw [fetchOffset, h, bind_ok]

/-- The offset code leaves the offset as `deliver_offset` does, and the match-length code comes after it. -/
theorem fetchOffset_lengthCodes (fin : Instr) (mk : Word → Word → Instr) {o n : Word} {s t : State}
    (ho : wfOffset o = true) (hn : wfLength n = true)
    (h : DecidesAll (lengthCode .off (o.toNat + 1) ++ lengthCode .len n.toNat) s t) :
    ∃ u, fetchOffset fin mk s = .ok (mk o n) u ∧ u = withCodes t u ∧ u.offset = o ∧ u.rem = n := by
  obtain ⟨hlo, hhi⟩ := wfOffset_iff.mp ho
  obtain ⟨w, hoff, hlen⟩ := decidesAll_append.mp h
  have hsucc : (o + 1).toNat = o.toNat + 1 := by bv_omega
  rw [← hsucc] at hoff
  obtain ⟨k, a, hread⟩ := decodeLength_lengthCode (by omega) (hoff.withCodes { s with lsel := false })
  have ho1 : o + 1 - 1 = o := by bv_omega
  have hne : ¬ o = 0 := by rintro rfl; exact absurd hlo (by decide)
  obtain ⟨u, hfetch, hframe, hrem, hoffset⟩ := fetchLength_lengthCode (mk o) hn
    (hlen.withCodes { withLengthAt (blockBase .off) k a (withCodes w { s with lsel := false }) with offset := o })
  refine ⟨u, ?_, hframe, hoffset, hrem⟩
  rw [fetchOffset_of_read fin mk hread, ho1, if_neg hne]
  exact hfetch

/-- The offset code of value 1 is the end of the stream (30_encoding R99). -/
theorem fetchOffset_sentinel (fin : Instr) (mk : Word → Word → Instr) {s t : State}
    (h : DecidesAll (lengthCode .off 1) s t) :
    ∃ u, fetchOffset fin mk s = .ok fin u ∧ u = withCodes t u ∧ u.rem = s.rem := by
  obtain ⟨k, a, hread⟩ := decodeLength_lengthCode (v := 1) (le_refl 1) (h.withCodes { s with lsel := false })
  refine ⟨{ withLengthAt (blockBase .off) k a (withCodes t { s with lsel := false }) with offset := 0 }, ?_, rfl, rfl⟩
  rw [fetchOffset_of_read fin mk hread]
  rfl

/-! ## The symbol -/

/-- What the decisions of a symbol leave in the working registers, from `s` before them to `u` after them: its fields,
and as they were those it does not carry (30_encoding R98). -/
def Delivered (s u : State) : Instr → Prop
  | .lit v => u.byte.setWidth 8 = v ∧ u.offset = s.offset ∧ u.rem = s.rem
  | .matchR n => u.rem = n ∧ u.offset = s.offset
  | .matchN o n | .matchC o n => u.offset = o ∧ u.rem = n
  | .endN | .endC => u.rem = s.rem
  | _ => False

section
variable {s w w' : State}

theorem fetchSymbol_of_literal (hd : Decides 0 s false w) :
    fetchSymbol s = (decodeLiteral w).bind fun v u => .ok (.lit v) u := by
  rw [fetchSymbol, decodeBit_decides hd, bind_ok, if_neg Bool.false_ne_true]

/-- A match after a match carries an offset without saying so (45_top_fsm R194). -/
theorem fetchSymbol_of_match (hp : s.pwm = true) (hd : Decides 0 s true w) :
    fetchSymbol s = fetchOffset .endC .matchC w := by
  rw [fetchSymbol, decodeBit_decides hd, bind_ok, if_pos rfl, if_pos (hd.pwm.trans hp)]

/-- After a literal a match says whether it carries an offset (44_match_copy R170). -/
theorem fetchSymbol_of_hasoff {b : Bool} (hp : s.pwm = false) (hd : Decides 0 s true w) (hd' : Decides 256 w b w') :
    fetchSymbol s = if b then fetchOffset .endN .matchN w' else fetchLength .matchR w' := by
  rw [fetchSymbol, decodeBit_decides hd, bind_ok, if_pos rfl, hd.pwm, hp, if_neg Bool.false_ne_true,
    decodeBit_decides hd', bind_ok]

end

/-- Where the stream carries a symbol's decisions, the fetch takes exactly them and answers the symbol. -/
theorem fetchSymbol_of_form {i : Instr} {ds : List Decision} {s t : State} (hform : SymbolForm s.pwm i ds)
    (h : DecidesAll ds s t) : ∃ u, fetchSymbol s = .ok i u ∧ u = withCodes t u ∧ Delivered s u i := by
  generalize hp : s.pwm = pwm at hform
  cases hform with
  | lit _ v =>
    obtain ⟨w, hd, hrest⟩ := decidesAll_cons.mp h
    obtain ⟨u, hread, hframe, hv, hoffset, hrem⟩ := decodeLiteral_treeDecisions hrest
    exact ⟨u, by rw [fetchSymbol_of_literal hd, hread, bind_ok], hframe, hv, hoffset.trans hd.offset,
      hrem.trans hd.rem⟩
  | matchR hn =>
    obtain ⟨w, hd, hrest⟩ := decidesAll_cons.mp h
    obtain ⟨w', hd', hrest⟩ := decidesAll_cons.mp hrest
    obtain ⟨u, hfetch, hframe, hrem, hoffset⟩ := fetchLength_lengthCode .matchR hn hrest
    exact ⟨u, (fetchSymbol_of_hasoff hp hd hd').trans hfetch, hframe, hrem, hoffset.trans (hd'.offset.trans hd.offset)⟩
  | matchN ho hn =>
    obtain ⟨w, hd, hrest⟩ := decidesAll_cons.mp h
    obtain ⟨w', hd', hrest⟩ := decidesAll_cons.mp hrest
    obtain ⟨u, hfetch, hframe, hfields⟩ := fetchOffset_lengthCodes .endN .matchN ho hn hrest
    exact ⟨u, (fetchSymbol_of_hasoff hp hd hd').trans hfetch, hframe, hfields⟩
  | matchC ho hn =>
    obtain ⟨w, hd, hrest⟩ := decidesAll_cons.mp h
    obtain ⟨u, hfetch, hframe, hfields⟩ := fetchOffset_lengthCodes .endC .matchC ho hn hrest
    exact ⟨u, (fetchSymbol_of_match hp hd).trans hfetch, hframe, hfields⟩
  | endN =>
    obtain ⟨w, hd, hrest⟩ := decidesAll_cons.mp h
    obtain ⟨w', hd', hrest⟩ := decidesAll_cons.mp hrest
    obtain ⟨u, hfetch, hframe, hrem⟩ := fetchOffset_sentinel .endN .matchN hrest
    exact ⟨u, (fetchSymbol_of_hasoff hp hd hd').trans hfetch, hframe, hrem.trans (hd'.rem.trans hd.rem)⟩
  | endC =>
    obtain ⟨w, hd, hrest⟩ := decidesAll_cons.mp h
    obtain ⟨u, hfetch, hframe, hrem⟩ := fetchOffset_sentinel .endC .matchC hrest
    exact ⟨u, (fetchSymbol_of_match hp hd).trans hfetch, hframe, hrem.trans hd.rem⟩

theorem symbolStep_of_fetch {s u : State} {i : Instr} (hp : s.phase = phSop) (h : fetchSymbol s = .ok i u) :
    symbolStep s = exec i u := by
  rw [symbolStep, if_pos hp, h]

/-- Settles O50: form by form, the decisions are those the fetch asks for. -/
theorem streamDecisionsAreReadAsTheirSymbol : Obligations.StreamDecisionsAreReadAsTheirSymbol := by
  intro s t i ds hp hwf hds hrun
  obtain ⟨u, hfetch, hframe, hfields⟩ := fetchSymbol_of_form (symbolForm_of_decisions hwf hds) hrun
  refine ⟨u, hfetch, symbolStep_of_fetch hp hfetch, hframe, ?_, ?_, ?_, ?_⟩
  · rintro v rfl; exact hfields
  · rintro n rfl; exact hfields
  · rintro o n (rfl | rfl) <;> exact hfields
  · rintro (rfl | rfl) <;> exact hfields

end Sys2Proof.Machine
end

section
/-! # Table words (log 9) -/

namespace Sys2Proof.Machine

/-- A table word that is a phase code is run by the next step. -/
theorem step_withFetchWord_phase (s : State) {nbits w : Nat} {i : Instr}
    (h : decodePhase (BitVec.ofNat 4 (tableBits nbits w)) = .ok i) :
    decodeTableWord nbits w = some i ∧ step (s.withFetchWord nbits w) = exec i (s.withFetchWord nbits w) := by
  have hplace : s.withFetchWord nbits w = placePhase (BitVec.ofNat 4 (tableBits nbits w)) s := by
    rw [State.withFetchWord, placeWord, h]
  refine ⟨by rw [decodeTableWord, h], ?_⟩
  rw [hplace, step_of_script_nil rfl]
  exact engineStep_of_decode h

/-- Does the stream placed for the table word `w` carry the decisions of the well-formed symbol the word stands for? -/
def selectorCarried (w : Nat) : Bool :=
  match decodeTableWord 8 w with
  | some i =>
    match symbolDecisions (w.testBit 3) i with
    | some ds => i.wf && (takeDecisions ds (placeSymbol w State.reset)).isSome
    | none => false
  | none => false

theorem selectorCarried_sound {w : Nat} (h : selectorCarried w = true) : ∃ i ds t, decodeTableWord 8 w = some i ∧
    i.wf = true ∧ symbolDecisions (w.testBit 3) i = some ds ∧ DecidesAll ds (placeSymbol w State.reset) t := by
  unfold selectorCarried at h
  split at h
  case h_2 => cases h
  case h_1 i hi =>
    split at h
    case h_2 => cases h
    case h_1 ds hds =>
      obtain ⟨hwf, hrun⟩ := Bool.and_eq_true_iff.mp h
      obtain ⟨t, ht⟩ := Option.isSome_iff_exists.mp hrun
      exact ⟨i, ds, t, hi, hwf, hds, takeDecisions_sound ht⟩

theorem selectors_carried : ∀ w, 11 ≤ w → w ≤ 15 → tableBits 8 w = w ∧
    decodePhase (BitVec.ofNat 4 w) = .error .noSuchPhase ∧ selectorCarried w = true := by
  decide +kernel

theorem decodePhase_tableWord {w : Nat} (h : w ≤ 10) :
    ∃ i, decodePhase (BitVec.ofNat 4 (tableBits 8 w)) = .ok i := by
  interval_cases w <;> exact ⟨_, rfl⟩

/-- Settles O11: a phase code is in `phase`; for a selector the placed decisions, which depend on nothing of the state
they are placed in, are read as its symbol. -/
theorem stepRunsThePlacedWord : Obligations.StepRunsThePlacedWord := by
  refine ⟨fun s w hw => ?_, fun s w hlo hhi => ?_⟩
  · obtain ⟨i, hi⟩ := decodePhase_tableWord hw
    exact ⟨i, step_withFetchWord_phase s hi⟩
  · obtain ⟨hbits, hnone, hcarried⟩ := selectors_carried w hlo hhi
    obtain ⟨i, ds, t, hi, hwf, hds, hrun⟩ := selectorCarried_sound hcarried
    have hplace : s.withFetchWord 8 w = placeSymbol w s := by rw [State.withFetchWord, placeWord, hbits, hnone]
    have hrun' := hrun.congr (s' := { placeSymbol w s with script := [] }) ⟨rfl, rfl, rfl, rfl, rfl, rfl⟩
    obtain ⟨u, hfetch, hstep, _⟩ := streamDecisionsAreReadAsTheirSymbol _ _ i ds rfl hwf hds hrun'
    rw [hplace]
    exact ⟨i, u, hi, hfetch, (step_of_script (act := .symbol) (rest := []) rfl).trans hstep⟩

end Sys2Proof.Machine
end

section
/-! # The end of the stream (30_encoding R99) -/

namespace Sys2Proof.Machine

theorem countCopied_phase_ne_done (s : State) : (countCopied s).phase ≠ phDone := by
  rw [countCopied_eq]
  show (if s.rem = 1 then phSop else phMCopy) ≠ phDone
  split <;> decide

/-- Of the cases of a step only the sentinel leads to DONE, from a phase in which the engine moves. -/
theorem EngineCase.sentinel_of_done {s t : State} (h : EngineCase s t) (hb : s.busy = true) (hd : t.phase = phDone) :
    s.phase = phLCont ∧ s.lsel = false ∧ lengthValue s = 1 ∧
      ∃ u, Decides s.lctx.toNat s false u ∧ t = { u with offset := 0, phase := phDone } := by
  cases h with
  | sentinel u hp hstop hl hv => exact ⟨hp, hl, hv, u, hstop, rfl⟩
  | treeBit b u =>
    have hphase : (if 256 ≤ 2 * s.byte.toNat + b.toNat then phLitEmit else phLitBit) = phDone := hd
    split at hphase <;> exact absurd hphase (by decide)
  | copied v => exact absurd hd (countCopied_phase_ne_done _)
  | still hp => rcases hp with hp | hp | hp <;> rw [State.busy, hp] at hb <;> exact absurd hb (by decide)
  | starved bs => rw [truncated_eq_raise] at hd; simp at hd
  | _ => simp at hd

/-- Settles O39: what the sentinel's case leaves is the decision's state but for `offset` and `phase`. -/
theorem onlyTheSentinelReachesDone : Obligations.OnlyTheSentinelReachesDone := by
  intro s t hb hstep hd
  obtain ⟨hp, hl, hv, u, hstop, rfl⟩ := (engineStep_cases hstep).sentinel_of_done hb hd
  exact ⟨hp, hl, hv, rfl, ⟨u, hstop⟩, hstop.outMem, hstop.writePos, hstop.pwm⟩

end Sys2Proof.Machine
end

section
/-! # The context model: its table and the values its updates reach (40_context_model R121 to R123) -/

namespace Sys2Proof.Machine

/-! ## PROB.RD and PROB.UPD (R121, R122) -/

theorem probRead_of_lt {c : Nat} (h : c < 385) (s : State) : probRead c s = .ok s.probs[c] s := by
  simp [probRead, h]

theorem probRead_of_ge {c : Nat} (h : 385 ≤ c) (s : State) : probRead c s = .fault .noSuchContext := by
  simp [probRead, h]

theorem exec_probUpd_of_lt {c : BitVec 9} (h : c.toNat < 385) (b : Bool) (s : State) :
    exec (.probUpd c b) s = .next (probWrite c.toNat (probUpdate b s.probs[c.toNat]) s) := by
  show execProbUpd c b s = _
  rw [execProbUpd, probRead_of_lt h, bind_ok, toOutcome_ok]

/-- Settles O13: PROB.RD is the table's read, its value left in `result`. -/
theorem probReadReturnsTheSlot : Obligations.ProbReadReturnsTheSlot := by
  refine fun s c => ⟨fun h => ?_, fun h => ?_⟩ <;> show execProbRd c s = _
  · rw [execProbRd, probRead_of_lt h, returning_ok]
  · rw [execProbRd, probRead_of_ge h, returning_fault]

theorem nextProbability_lt {b : Bool} {p : Nat} (hp : p < 256) : nextProbability b p < 256 := by
  cases b <;> simp only [nextProbability, if_true, Bool.false_eq_true, if_false] <;> omega

/-- No update wraps: the adapted probability is that of the naturals. -/
theorem probUpdate_toNat (b : Bool) (p : Byte) : (probUpdate b p).toNat = nextProbability b p.toNat := by
  rw [probUpdate_eq, BitVec.toNat_ofNat, Nat.mod_eq_of_lt (nextProbability_lt p.isLt)]

/-- R122's formula for bit 1, with its shift as written there. -/
theorem nextProbability_true {p : Nat} (hp : p < 256) : nextProbability true p = p + ((256 - p + 8) >>> 4) := by
  simp only [nextProbability, if_true, Nat.shiftRight_eq_div_pow]
  omega

theorem nextProbability_false (p : Nat) : nextProbability false p = p - ((p + 8) >>> 4) := by
  simp only [nextProbability, Bool.false_eq_true, if_false, Nat.shiftRight_eq_div_pow, Nat.reducePow]

/-- Settles O14: PROB.UPD writes `probUpdate` of the slot into the slot, and the write changes that slot only. -/
theorem probUpdateAdaptsTheSlot : Obligations.ProbUpdateAdaptsTheSlot := by
  intro s c h b
  have hslot : ((s.probs.setIfInBounds c.toNat (probUpdate b s.probs[c.toNat]))[c.toNat]).toNat
      = nextProbability b s.probs[c.toNat].toNat := by
    rw [Vector.getElem_setIfInBounds_self, probUpdate_toNat]
  refine ⟨_, exec_probUpd_of_lt h b s, rfl, fun i hi hne => ?_, ?_, ?_⟩
  · exact Vector.getElem_setIfInBounds_ne hi hne.symm
  · rintro rfl
    exact hslot.trans (nextProbability_true s.probs[c.toNat].isLt)
  · rintro rfl
    exact hslot.trans (nextProbability_false _)

/-! ## The reachable probabilities (R123)

From 128 a first step down gives 120, and down then up leads from each value of 120..127 to the next: all of 120..128 is
reached. A value below 120 has a larger predecessor, not above 128, by a step down; a value above 128 has a smaller one,
not below 120, by a step up. -/

theorem ReachableProbability.range {p : Byte} (h : ReachableProbability p) : 7 ≤ p.toNat ∧ p.toNat ≤ 249 := by
  induction h with
  | init => decide
  | update b _ ih => rw [probUpdate_toNat]; exact nextProbability_range ih

theorem ReachableProbability.next {n m : Nat} (b : Bool) (hn : n < 256) (hm : nextProbability b n = m)
    (h : ReachableProbability (BitVec.ofNat 8 n)) : ReachableProbability (BitVec.ofNat 8 m) := by
  have hu := h.update b
  rwa [probUpdate_eq, BitVec.toNat_ofNat, Nat.mod_eq_of_lt hn, hm] at hu

theorem nextProbability_down_up {n : Nat} (hlo : 120 ≤ n) (hhi : n < 128) :
    nextProbability true (nextProbability false n) = n + 1 := by
  simp only [nextProbability, if_true, Bool.false_eq_true, if_false]
  omega

theorem reachable_middle {n : Nat} (hlo : 120 ≤ n) (hhi : n ≤ 128) : ReachableProbability (BitVec.ofNat 8 n) := by
  induction n, hlo using Nat.le_induction with
  | base => exact ReachableProbability.init.next (n := 128) false (by decide) (by decide)
  | succ n hlo ih =>
    have hdown := (ih (by omega)).next false (by omega) rfl
    exact hdown.next true (nextProbability_lt (by omega)) (nextProbability_down_up hlo (by omega))

theorem nextProbability_false_preimage {n : Nat} (hlo : 7 ≤ n) (hhi : n < 120) :
    nextProbability false ((16 * n + 8) / 15) = n := by
  simp only [nextProbability, Bool.false_eq_true, if_false]
  omega

theorem reachable_low {n : Nat} (hlo : 7 ≤ n) (hhi : n ≤ 128) : ReachableProbability (BitVec.ofNat 8 n) := by
  by_cases hmid : 120 ≤ n
  · exact reachable_middle hmid hhi
  · have hpre := reachable_low (n := (16 * n + 8) / 15) (by omega) (by omega)
    exact hpre.next false (by omega) (nextProbability_false_preimage hlo (by omega))
termination_by 128 - n

theorem nextProbability_true_preimage {n : Nat} (hlo : 128 < n) (hhi : n ≤ 249) :
    nextProbability true ((16 * n - 250) / 15) = n := by
  simp only [nextProbability, if_true]
  omega

theorem reachable_high {n : Nat} (hlo : 120 ≤ n) (hhi : n ≤ 249) : ReachableProbability (BitVec.ofNat 8 n) := by
  by_cases hmid : n ≤ 128
  · exact reachable_middle hlo hmid
  · have hpre := reachable_high (n := (16 * n - 250) / 15) (by omega) (by omega)
    exact hpre.next true (by omega) (nextProbability_true_preimage (by omega) hhi)
termination_by n

/-- Settles O15: updates keep 7..249, and every value of it descends from 128. -/
theorem reachableProbabilitiesAre7To249 : Obligations.ReachableProbabilitiesAre7To249 := by
  refine fun p => ⟨ReachableProbability.range, fun ⟨hlo, hhi⟩ => ?_⟩
  have hp : ReachableProbability (BitVec.ofNat 8 p.toNat) :=
    (le_total p.toNat 128).elim (reachable_low hlo) fun h => reachable_high (by omega) hhi
  rwa [BitVec.ofNat_toNat, BitVec.setWidth_eq] at hp

end Sys2Proof.Machine
end

section
/-! # The entropy decoder's procedures: RENORM, DECIDE, STUPD, DECBIT (41_entropy_decoder R130 to R137) -/

namespace Sys2Proof.Machine

/-! ## RENORM (R130, R137) -/

theorem exec_renorm_feeds {s : State} {bs : List Byte} (h : Feeds s bs) : exec .renorm s = .next (fed s bs) := by
  show execRenorm s = _
  rw [execRenorm, renormalize_feeds h, toOutcome_ok]

theorem exec_renorm_starves {s : State} {bs : List Byte} (h : Starves s bs) :
    exec .renorm s = .next (truncated s bs) := by
  show execRenorm s = _
  rw [execRenorm, renormalize_starves h, toOutcome_raised]

/-- Where the platform backs the input, the third case of RENORM cannot happen. -/
theorem InputBacked.feeds_or_starves {s : State} (h : InputBacked s) : (∃ bs, Feeds s bs) ∨ ∃ bs, Starves s bs := by
  rcases renormalize_cases s with ⟨bs, hf, _⟩ | ⟨bs, hs, _⟩ | ⟨⟨a, hlo, hhi, hnone⟩, _⟩
  · exact .inl ⟨bs, hf⟩
  · exact .inr ⟨bs, hs⟩
  · exact absurd (h a hlo hhi) (by simp [readIn_eq_none.mp hnone])

/-- Settles O16: a fed RENORM leaves `fed`, whose number is the bytes' value, a starved one `truncated`. -/
theorem renormConsumesUntil4096 : Obligations.RenormConsumesUntil4096 := by
  refine fun s => ⟨fun bs hf => ⟨fed s bs, exec_renorm_feeds hf, rfl, hf.fed_toNat, hf.cursor_toNat, ?_, fun hne => ?_⟩,
    fun _ => exec_renorm_starves, InputBacked.feeds_or_starves⟩ <;> rw [hf.fed_toNat]
  · exact hf.enough
  · exact hf.lt_of_ne_nil hne

/-- One byte shifted in above 16 already gives `256 * 16` (R137). -/
theorem Feeds.length_le_one {s : State} {bs : List Byte} (h : Feeds s bs) (h16 : 16 ≤ s.state.toNat) :
    bs.length ≤ 1 := by
  match bs, h with
  | [], _ | [_], _ => simp
  | b :: b' :: bs, h =>
    have hone : 256 * s.state.toNat + b.toNat < 4096 := h.tooSmall 1 (by simp)
    omega

/-! ## DECIDE (R131) -/

@[simp] theorem lowByte_toNat (st : Word) : (lowByte st).toNat = st.toNat % 256 := by
  simp [lowByte]

theorem splitBit_eq (p : Byte) (st : Word) : splitBit p st = decide (st.toNat % 256 < p.toNat) := by
  rw [splitBit, lowByte_toNat]

/-- Settles O17: the low byte is `lowByte`, and the bit left in `result` compares it with `p`. -/
theorem decideComparesTheLowByte : Obligations.DecideComparesTheLowByte :=
  fun s _ => ⟨lowByte s.state, lowByte_toNat s.state, rfl⟩

/-! ## The coder state after a decision, as a number (R132, R136)

With `x = 256 * (x / 256) + x % 256`, bit 1 takes `(256 - p) * (x / 256)` away, and bit 0 takes `p * (x / 256) + p`. -/

theorem nextCoderState_true_add {p : Nat} (hp : p ≤ 256) (x : Nat) :
    nextCoderState true p x + (256 - p) * (x / 256) = x := by
  have hsplit : p * (x / 256) + (256 - p) * (x / 256) = 256 * (x / 256) := by
    rw [← Nat.add_mul, Nat.add_sub_cancel' hp]
  simp only [nextCoderState, if_true]
  omega

theorem nextCoderState_false_add {p x : Nat} (hlow : p ≤ x % 256) :
    nextCoderState false p x + (p * (x / 256) + p) = x := by
  have hsplit : (256 - p) * (x / 256) + p * (x / 256) = 256 * (x / 256) := by
    rw [← Nat.add_mul, Nat.sub_add_cancel (by omega)]
  simp only [nextCoderState, Bool.false_eq_true, if_false]
  omega

/-- The bit DECIDE gives has a weight of at least 1 in 256, so its decision leaves at least the state without its low
byte. -/
theorem div_le_nextCoderState {b : Bool} {p x : Nat} (hp : p < 256) (hb : b = decide (x % 256 < p)) :
    x / 256 ≤ nextCoderState b p x := by
  cases b with
  | true =>
    have hlow : x % 256 < p := of_decide_eq_true hb.symm
    have hweight : x / 256 ≤ p * (x / 256) := Nat.le_mul_of_pos_left _ (by omega)
    simp only [nextCoderState, if_true]
    omega
  | false =>
    have hlow : p ≤ x % 256 := Nat.not_lt.mp (of_decide_eq_false hb.symm)
    have hweight : x / 256 ≤ (256 - p) * (x / 256) := Nat.le_mul_of_pos_left _ (by omega)
    simp only [nextCoderState, Bool.false_eq_true, if_false]
    omega

/-- Within 7..249 either bit takes away at least seven times the state without its low byte, and so `7 * 16` from a
renormalized state (R136). -/
theorem nextCoderState_add_le {b : Bool} {p x : Nat} (hx : 4096 ≤ x) (hp : 7 ≤ p ∧ p ≤ 249)
    (hb : b = decide (x % 256 < p)) : nextCoderState b p x + 112 ≤ x := by
  obtain ⟨h7, h249⟩ := hp
  have hh : 16 ≤ x / 256 := by omega
  cases b with
  | true =>
    have htaken : 7 * 16 ≤ (256 - p) * (x / 256) := Nat.mul_le_mul (by omega) hh
    have := nextCoderState_true_add (p := p) (by omega) x
    omega
  | false =>
    have htaken : 7 * 16 ≤ p * (x / 256) := Nat.mul_le_mul h7 hh
    have := nextCoderState_false_add (Nat.not_lt.mp (of_decide_eq_false hb.symm))
    omega

/-! ## STUPD (R132, R136) -/

theorem exec_stupd (b : Bool) (p : Byte) (s : State) :
    exec (.stupd b p) s = .next { s with state := stateUpdate b p s.state } := rfl

/-- On the bit DECIDE gives, STUPD's register holds the number of the formula: nothing wraps. -/
theorem stateUpdate_toNat {b : Bool} {p : Byte} {st : Word} (hb : b = decide (st.toNat % 256 < p.toNat)) :
    (stateUpdate b p st).toNat = nextCoderState b p.toNat st.toNat := by
  have hle : nextCoderState b p.toNat st.toNat ≤ st.toNat := nextCoderState_le p.isLt.le
  obtain rfl : b = splitBit p st := hb.trans (splitBit_eq p st).symm
  rw [stateUpdate_split, BitVec.toNat_ofNat, Nat.mod_eq_of_lt (hle.trans_lt st.isLt)]

theorem stateUpdate_true (p : Byte) (st : Word) :
    stateUpdate true p st = BitVec.ofNat 32 (p.toNat * (st.toNat / 256) + st.toNat % 256) := by
  rw [stateUpdate, if_pos rfl]

/-- On bit 0 the formula stands where its subtraction does not borrow, whether or not DECIDE gives that bit. -/
theorem stateUpdate_false {p : Byte} {st : Word} (h : p.toNat ≤ (256 - p.toNat) * (st.toNat / 256) + st.toNat % 256) :
    stateUpdate false p st = BitVec.ofNat 32 ((256 - p.toNat) * (st.toNat / 256) + st.toNat % 256 - p.toNat) := by
  rw [stateUpdate, if_neg Bool.false_ne_true, if_pos h]

/-- Settles O18: on bit 0 the low byte is at least `p`, so adding `p` back undoes the subtraction. -/
theorem stateUpdateFollowsTheFormula : Obligations.StateUpdateFollowsTheFormula := by
  refine fun s b p hb => ⟨_, exec_stupd b p s, ?_, ?_⟩ <;> rw [stateUpdate_toNat hb] <;> rintro rfl
  · rfl
  · have hlow : p.toNat ≤ s.state.toNat % 256 := Nat.not_lt.mp (of_decide_eq_false hb.symm)
    exact Nat.sub_add_cancel (le_add_left hlow)

/-- Settles O19: STUPD is `stateUpdate`, which is the formula except where bit 0's subtraction would borrow. -/
theorem stateUpdateCompletesOnAnyBit : Obligations.StateUpdateCompletesOnAnyBit := by
  refine fun s b p => ⟨_, exec_stupd b p s, ?_, ?_⟩ <;> rintro rfl
  · exact stateUpdate_true p s.state
  · exact stateUpdate_false

/-- Settles O20: the number STUPD leaves lies between `state / 256` and `state`, and 112 below it where `p` is within
7..249; a second byte would follow a value that is renormalized already. -/
theorem stateUpdateShrinksTheState : Obligations.StateUpdateShrinksTheState := by
  refine ⟨fun s t b p hb ht => ?_, fun s bs hf h16 => hf.length_le_one h16⟩
  obtain rfl := Host.Outcome.next.inj ((exec_stupd b p s).symm.trans ht)
  rw [stateUpdate_toNat hb]
  refine ⟨nextCoderState_le p.isLt.le, fun hx => ?_, fun hx h7 h249 => nextCoderState_add_le hx ⟨h7, h249⟩ hb⟩
  calc 16 ≤ s.state.toNat / 256 := (Nat.le_div_iff_mul_le (by decide)).mpr hx
    _ ≤ nextCoderState b p.toNat s.state.toNat := div_le_nextCoderState p.isLt hb

/-! ## DECBIT (R133, R134) -/

/-- Where RENORM is fed, the decision at a context of the table is determined. -/
theorem Feeds.exists_decides {c : Nat} {s : State} {bs : List Byte} (hf : Feeds s bs) (hc : c < 385) :
    ∃ b t, Decides c s b t :=
  ⟨_, _, bs, s.probs[c], hf, Vector.getElem?_eq_getElem hc, rfl, rfl⟩

/-- Settles O21: DECBIT is `decodeBit`, whose completion and whose starvation are known from the stream. -/
theorem decbitTakesTheDecision : Obligations.DecbitTakesTheDecision := by
  refine fun s c hc => ⟨fun bs hf => hf.exists_decides hc, fun b t hd => ?_, fun bs hs => ?_⟩ <;>
    show execDecbit c s = _
  · rw [execDecbit, decodeBit_decides hd, returning_ok]
  · rw [execDecbit, decodeBit_starves hs, returning_raised]

end Sys2Proof.Machine
end

section
/-! # The length decoder: DECLEN, L_CONT, L_VAL (42_length_decoder R151 to R156) -/

namespace Sys2Proof.Machine

/-! ## DECLEN's loop at its last decision (R151, R153) -/

theorem blockBase_le (b : Block) : blockBase b ≤ 321 := by cases b <;> decide

/-- The 32nd continue decision is 1 (R153). -/
theorem lengthLoop_overflow {s t : State} (h : Decides (contContext s) s true t) :
    lengthLoop 0 s = .raised (raiseFault .lengthOverflow (s.lctx.setWidth 32) t) := by
  rw [lengthLoop, decodeBit_decides h, bind_ok, if_pos rfl, h.lctx]

theorem lengthLoop_starves {s : State} {bs : List Byte} (n : Nat) (h : Starves s bs) :
    lengthLoop n s = .raised (truncated s bs) := by
  cases n <;> rw [lengthLoop, decodeBit_starves h, bind_raised]

/-- The continue decision is 1 and the value decision after it runs out of input. -/
theorem lengthLoop_value_starves {s t : State} {bs : List Byte} (n : Nat) (h : Decides (contContext s) s true t)
    (hs : Starves t bs) : lengthLoop (n + 1) s = .raised (truncated t bs) := by
  rw [lengthLoop, decodeBit_decides h, bind_ok, if_pos rfl, decodeBit_starves hs, bind_raised]

/-! ## DECLEN after its value bits (R151)

`afterValueBits B vs t` is `withLengthAt B vs.length (bitsValue vs) t` by definition, so the facts about the one are
facts about the other. -/

section
variable {B : Nat} {vs : List Bool}

theorem lengthValue_afterValueBits (hlen : vs.length ≤ 31) (t : State) :
    lengthValue (afterValueBits B vs t) = BitVec.ofNat 32 (bitsValue vs + 2 ^ vs.length) := by
  have hvalue : (lengthValue (afterValueBits B vs t)).toNat = bitsValue vs + 2 ^ vs.length :=
    lengthValue_withLengthAt hlen (bitsValue_lt vs) B t
  rw [← hvalue, BitVec.ofNat_toNat, BitVec.setWidth_eq]

/-- The continue decision after the value bits is the one at the slot `B + 2 * vs.length`. -/
theorem Decides.afterValueBits {c : Bool} {t u : State} (h : Decides (B + 2 * vs.length) t c u) (hB : B ≤ 321)
    (hlen : vs.length ≤ 31) :
    Decides (contContext (Machine.afterValueBits B vs t)) (Machine.afterValueBits B vs t) c
      (Machine.afterValueBits B vs u) := by
  have hafter := h.congr (sameCoder_withLengthAt B vs.length (bitsValue vs) t)
  rw [withCoder_withLengthAt _ _ _ h, ← contContext_withLengthAt hB hlen (bitsValue vs) t] at hafter
  exact hafter

theorem Starves.afterValueBits {t : State} {bs : List Byte} (h : Starves t bs) :
    Starves (Machine.afterValueBits B vs t) bs :=
  h.congr (sameCoder_withLengthAt B vs.length (bitsValue vs) t)

/-- DECLEN begins at bit position 0 of its block and goes through the value bits the stream carries. -/
theorem decodeLength_values {b : Block} {s t : State} (hlen : vs.length ≤ 31)
    (h : DecidesAll (valueDecisions (blockBase b) 0 vs) s t) :
    decodeLength b s = lengthLoop (31 - vs.length) (afterValueBits (blockBase b) vs t) := by
  have hstart : { s with acc := 0, bitPos := 0, lctx := lstartContext (blockSel b) } =
      withLengthAt (blockBase b) 0 0 s := by
    cases b <;> rfl
  have hloop := lengthLoop_values (blockBase b) (blockBase_le b) vs 0 0 s t Nat.one_pos (by omega) h
  rw [Nat.zero_add, Nat.zero_add, Nat.pow_zero, Nat.one_mul] at hloop
  rw [decodeLength, hstart]
  exact hloop

end

/-- A run of decisions with one more at its end. -/
theorem decidesAll_concat {ds : List Decision} {c : Nat} {b : Bool} {s t : State} :
    DecidesAll (ds ++ [(c, b)]) s t ↔ ∃ u, DecidesAll ds s u ∧ Decides c u b t := by
  simp [decidesAll_append, decidesAll_cons, decidesAll_nil]

/-- Settles O22: the value bits lead DECLEN's loop to `afterValueBits`, where the next continue decision ends the code,
overflows, runs out of input, or is taken and the value decision after it runs out. -/
theorem declenReadsTheLengthCode : Obligations.DeclenReadsTheLengthCode := by
  intro B s vs hlen
  have hB := blockBase_le B
  refine ⟨fun t h => ?_, fun h31 t h => ?_, fun t bs h hs => ?_, fun h30 t bs h hs => ?_⟩ <;>
    show execDeclen B s = _
  · obtain ⟨u, hvs, hstop⟩ := decidesAll_concat.mp h
    rw [execDeclen, decodeLength_values hlen hvs, lengthLoop_stop _ (hstop.afterValueBits hB hlen), returning_ok,
      lengthValue_afterValueBits hlen]
  · obtain ⟨u, hvs, hmore⟩ := decidesAll_concat.mp h
    rw [show blockBase B + 62 = blockBase B + 2 * vs.length by omega] at hmore
    have hinfo : (afterValueBits (blockBase B) vs u).lctx.setWidth 32 = BitVec.ofNat 32 (blockBase B + 62) := by
      rw [afterValueBits, h31]
      cases B <;> rfl
    rw [execDeclen, decodeLength_values hlen hvs, h31, lengthLoop_overflow (hmore.afterValueBits hB hlen),
      returning_raised, hinfo]
    rfl
  · rw [execDeclen, decodeLength_values hlen h, lengthLoop_starves _ hs.afterValueBits, returning_raised]
  · obtain ⟨u, hvs, hmore⟩ := decidesAll_concat.mp h
    rw [execDeclen, decodeLength_values hlen hvs, show 31 - vs.length = 30 - vs.length + 1 by omega,
      lengthLoop_value_starves _ (hmore.afterValueBits hB hlen) hs.afterValueBits, returning_raised]

/-! ## L_CONT (R154) -/

/-- On a continue decision of 1 the code goes on with a value bit, unless all 31 have been taken. -/
theorem execLCont_continue {s t : State} (hd : Decides s.lctx.toNat s true t) :
    execLCont s = .next (if s.bitPos = 31 then raiseFault .lengthOverflow (s.lctx.setWidth 32) t
      else { t with phase := phLVal }) := by
  rw [execLCont, contContext, decodeBit_decides hd, bind_ok, if_pos rfl, hd.bitPos, hd.lctx]
  split <;> rfl

/-- Settles O23: a continue decision of 1 is `execLCont_continue`, one of 0 delivers the value (`execLCont_stop`), where
`lsel` says to what. -/
theorem lContContinuesOrDelivers : Obligations.LContContinuesOrDelivers := by
  refine fun s => ⟨fun b t hd => ?_, fun bs hs => ?_⟩ <;> show execLCont s = _
  · cases b with
    | true => exact execLCont_continue hd
    | false =>
      rw [execLCont_stop hd, deliverOffset_eq]
      rfl
  · rw [execLCont, decodeBit_starves hs, bind_raised, toOutcome_raised]

/-! ## L_VAL (R155) -/

theorem Decides.acc {c : Nat} {s t : State} {b : Bool} (h : Decides c s b t) : t.acc = s.acc := by rw [h.frame]; rfl

theorem execLVal_decides {s t : State} {b : Bool} (hb : s.bitPos ≠ 31) (hd : Decides (s.lctx.toNat + 1) s b t) :
    execLVal s = .next { t with
      acc := accWithBit s b, bitPos := s.bitPos + 1, lctx := s.lctx + 2, phase := phLCont } := by
  rw [execLVal, valContext, decodeBit_decides hd, bind_ok, if_neg (by rwa [hd.bitPos]), toOutcome_ok, takeValueBit,
    accWithBit, hd.acc, hd.bitPos, hd.lctx]
  rfl

/-- Settles O24: a position of at most 30 is not the one L_VAL stops at, and the registers of the code are those of `s`,
which the decision leaves. -/
theorem lValTakesAValueBit : Obligations.LValTakesAValueBit := by
  refine fun s => ⟨fun h30 b t hd => ?_, fun bs hs => ?_⟩ <;> show execLVal s = _
  · exact execLVal_decides (by bv_omega) hd
  · rw [execLVal, decodeBit_starves hs, bind_raised, toOutcome_raised]

end Sys2Proof.Machine
end

section
/-! # The literal decoder: DECLIT, LIT_BIT, LIT_EMIT, EMIT, LIT (43_literal_decoder R161 to R164) -/

namespace Sys2Proof.Machine

/-! ## The output of a literal (R163, R164) -/

/-- LIT_EMIT and EMIT append `byte[7:0]`, as LIT does with that field. -/
theorem exec_emits {s : State} {i : Instr} (hi : i ∈ [Instr.litEmit, Instr.emit, Instr.lit (s.byte.setWidth 8)]) :
    exec i s = (emitByte (s.byte.setWidth 8) s).toOutcome := by
  simp only [List.mem_cons, List.not_mem_nil, or_false] at hi
  rcases hi with rfl | rfl | rfl <;> rfl

theorem emitByte_appends (v : Byte) {s : State} (hl : s.writePos.toNat < s.dstEnd.toNat)
    (hb : backedAt s.outBacking s.writePos.toNat = true) : ∃ t, (emitByte v s).toOutcome = .next t ∧
      t = { s with outMem := t.outMem, writePos := s.writePos + 1, pwm := false, phase := phSop } ∧
      ∀ a, t.outMem.read a = if a = s.writePos.toNat then some v else s.outMem.read a := by
  refine ⟨{ appendOut v s with pwm := false, phase := phSop }, ?_, rfl, fun a => read_write _ _ _ _⟩
  rw [emitByte, if_neg (by omega), storeOut, if_pos hb, bind_ok, toOutcome_ok]

theorem emitByte_overflows (v : Byte) {s : State} (hl : s.dstEnd.toNat ≤ s.writePos.toNat) :
    (emitByte v s).toOutcome = .next { s with cause := 2, info := s.writePos, phase := phFault } := by
  rw [emitByte, if_pos hl]
  rfl

theorem emitByte_not_backed (v : Byte) {s : State} (hl : s.writePos.toNat < s.dstEnd.toNat)
    (hb : backedAt s.outBacking s.writePos.toNat = false) : (emitByte v s).toOutcome = .refused .outNotBacked := by
  rw [emitByte, if_neg (by omega), storeOut, if_neg (by rw [hb]; exact Bool.false_ne_true), bind_refused,
    toOutcome_refused]

/-- Settles O27: both operations are `emitByte` of the low eight bits of `byte`. -/
theorem litEmitAppendsTheLiteral : Obligations.LitEmitAppendsTheLiteral := by
  intro s i hi
  rw [exec_emits (List.mem_append_left [Instr.lit _] hi)]
  exact ⟨emitByte_appends _, emitByte_overflows _⟩

/-- Settles O28: LIT is `emitByte` of its field. -/
theorem litAppendsItsField : Obligations.LitAppendsItsField :=
  fun _ v => ⟨emitByte_appends v, emitByte_overflows v⟩

/-! ## LIT_BIT (R162) -/

/-- Settles O26: the decision is taken at context `byte`, and nine bits hold the byte with one more bit. -/
theorem litBitShiftsInADecision : Obligations.LitBitShiftsInADecision := by
  refine fun s => ⟨fun _ hb b t hd => execLitBit_decides hd hb, fun bs hs => ?_⟩
  show execLitBit s = _
  rw [execLitBit, decodeBit_starves hs, bind_raised, toOutcome_raised]

/-! ## DECLIT (R161)

After `m` decisions the partial byte is the seed bit and the upper `m` bits of the literal: the context of the next
decision, and what a decision that runs out of input leaves. -/

/-- The seed bit with the upper `m` bits of a literal below it. -/
def partialByte (v : Byte) (m : Nat) : Nat := 2 ^ m + v.toNat / 2 ^ (8 - m)

theorem treeDecisions_take_succ (v : Byte) {m : Nat} (hm : m < 8) :
    (treeDecisions v).take (m + 1) = (treeDecisions v).take m ++ [(partialByte v m, v.getLsbD (7 - m))] := by
  interval_cases m <;> rfl

theorem partialByte_le (v : Byte) {m : Nat} (hm : m < 8) : partialByte v m ≤ 255 := by
  have hupper : v.toNat / 2 ^ (8 - m) < 2 ^ m := by
    rw [Nat.div_lt_iff_lt_mul (Nat.two_pow_pos _), ← Nat.pow_add, Nat.add_sub_cancel' hm.le]
    exact v.isLt
  have hseed : 2 ^ m ≤ 2 ^ 7 := Nat.pow_le_pow_right (by omega) (by omega)
  rw [partialByte]
  omega

theorem partialByte_succ (v : Byte) {m : Nat} (hm : m < 8) :
    2 * partialByte v m + (v.getLsbD (7 - m)).toNat = partialByte v (m + 1) := by
  have hshift : v.toNat / 2 ^ (8 - m) = v.toNat / 2 ^ (7 - m) / 2 := by
    rw [Nat.div_div_eq_div_mul, ← Nat.pow_succ]
    congr 2
    omega
  have hrest : 8 - (m + 1) = 7 - m := by omega
  rw [partialByte, partialByte, ← BitVec.testBit_toNat, Nat.toNat_testBit, hshift, hrest, Nat.pow_succ]
  omega

/-- `t` with the partial byte of `v` after `m` decisions. -/
def withPartialByte (v : Byte) (m : Nat) (t : State) : State := { t with byte := BitVec.ofNat 9 (partialByte v m) }

theorem withPartialByte_byte_toNat (v : Byte) {m : Nat} (hm : m < 8) (t : State) :
    (withPartialByte v m t).byte.toNat = partialByte v m := by
  have := partialByte_le v hm
  simp only [withPartialByte, BitVec.toNat_ofNat]
  omega

theorem sameCoder_withPartialByte (v : Byte) (m : Nat) (t : State) : SameCoder t (withPartialByte v m t) :=
  ⟨rfl, rfl, rfl, rfl, rfl, rfl⟩

theorem Decides.withPartialByte {c : Nat} {b : Bool} {s t : State} (h : Decides c s b t) (v : Byte) (m : Nat) :
    Decides c (withPartialByte v m s) b (withPartialByte v m t) := by
  have hafter := h.congr (sameCoder_withPartialByte v m s)
  have hleft : withCoder (Machine.withPartialByte v m s) t = Machine.withPartialByte v m t := by rw [h.frame]; rfl
  rwa [hleft] at hafter

/-- One round of DECLIT's loop: the next upper bit of the literal is shifted in. -/
theorem literalLoop_treeBit (v : Byte) {m : Nat} (hm : m < 8) {s t : State}
    (h : Decides (partialByte v m) s (v.getLsbD (7 - m)) t) :
    literalLoop (8 - m) (withPartialByte v m s) = literalLoop (8 - (m + 1)) (withPartialByte v (m + 1) t) := by
  have hbyte := withPartialByte_byte_toNat v hm
  have hd : Decides (treeContext (withPartialByte v m s)) (withPartialByte v m s) (v.getLsbD (7 - m))
      (withPartialByte v m t) := by
    rw [treeContext, hbyte]
    exact h.withPartialByte v m
  have hnext : byteWithBit (withPartialByte v m t) (v.getLsbD (7 - m)) = BitVec.ofNat 9 (partialByte v (m + 1)) := by
    rw [byteWithBit, hbyte, partialByte_succ v hm]
  have hlow : (withPartialByte v m s).byte.toNat < 256 := by rw [hbyte]; exact Nat.lt_succ_of_le (partialByte_le v hm)
  rw [show 8 - m = 8 - (m + 1) + 1 by omega, literalLoop, if_pos hlow, decodeBit_decides hd, bind_ok, hnext]
  rfl

/-- DECLIT begins with the seed bit alone and goes through the tree decisions the stream carries. -/
theorem decodeLiteral_treeBits (v : Byte) {m : Nat} (hm : m ≤ 8) {s t : State}
    (h : DecidesAll ((treeDecisions v).take m) s t) :
    decodeLiteral s = literalLoop (8 - m) (withPartialByte v m t) := by
  induction m generalizing t with
  | zero =>
    cases decidesAll_nil.mp h
    have hseed : partialByte v 0 = 1 := by rw [partialByte]; omega
    rw [withPartialByte, hseed]
    rfl
  | succ m ih =>
    rw [treeDecisions_take_succ v hm] at h
    obtain ⟨u, hbits, hlast⟩ := decidesAll_concat.mp h
    rw [ih (by omega) hbits, literalLoop_treeBit v hm hlast]

/-- The next decision of DECLIT's loop runs out of input. -/
theorem literalLoop_starves {n : Nat} (hn : n ≠ 0) {s : State} {bs : List Byte} (hb : s.byte.toNat < 256)
    (hs : Starves s bs) : literalLoop n s = .raised (truncated s bs) := by
  obtain ⟨k, rfl⟩ := Nat.exists_eq_succ_of_ne_zero hn
  rw [literalLoop, if_pos hb, decodeBit_starves hs, bind_raised]

theorem literalByte_withPartialByte (v : Byte) (t : State) : literalByte (withPartialByte v 8 t) = v := by
  apply BitVec.eq_of_toNat_eq
  simp only [literalByte, withPartialByte, partialByte, BitVec.toNat_setWidth, BitVec.toNat_ofNat]
  omega

/-- Settles O25: after all eight decisions the loop returns the byte; after fewer, the next one is at a partial byte
below 256, where it runs out of input. -/
theorem declitReadsTheLiteral : Obligations.DeclitReadsTheLiteral := by
  refine fun s v => ⟨fun t h => ?_, fun m t bs hm h hs => ?_⟩ <;> show execDeclit s = _
  · have hbyte : partialByte v 8 = 256 + v.toNat := by rw [partialByte]; omega
    rw [execDeclit, decodeLiteral_treeBits v (le_refl 8) h, literalLoop, literalByte_withPartialByte, returning_ok,
      withPartialByte, hbyte]
  · have hlow : (withPartialByte v m t).byte.toNat < 256 := by
      rw [withPartialByte_byte_toNat v hm]
      exact Nat.lt_succ_of_le (partialByte_le v hm)
    rw [execDeclit, decodeLiteral_treeBits v hm.le h,
      literalLoop_starves (by omega) hlow (hs.congr (sameCoder_withPartialByte v m t)), returning_raised]
    rfl

end Sys2Proof.Machine
end

section
/-! # The model's stops (log 12, log 17) -/

namespace Sys2Proof.Machine

/-! ## A context the table does not have (40_context_model R121) -/

theorem decodeBit_no_context {c : Nat} {s : State} {bs : List Byte} (hc : 385 ≤ c) (hf : Feeds s bs) :
    decodeBit c s = .fault .noSuchContext := by
  rw [decodeBit, renormalize_feeds hf, bind_ok, probRead_of_ge hc, bind_fault]

theorem exec_litBit_no_context {s : State} {bs : List Byte} (hc : 385 ≤ s.byte.toNat) (hf : Feeds s bs) :
    exec .litBit s = .fault .noSuchContext := by
  show execLitBit s = _
  rw [execLitBit, treeContext, decodeBit_no_context hc hf, bind_fault, toOutcome_fault]

theorem exec_probUpd_no_context {c : BitVec 9} (hc : 385 ≤ c.toNat) (b : Bool) (s : State) :
    exec (.probUpd c b) s = .fault .noSuchContext := by
  show execProbUpd c b s = _
  rw [execProbUpd, probRead_of_ge hc, bind_fault, toOutcome_fault]

theorem exec_decbit_no_context {c : BitVec 9} {s : State} {bs : List Byte} (hc : 385 ≤ c.toNat) (hf : Feeds s bs) :
    exec (.decbit c) s = .fault .noSuchContext := by
  show execDecbit c s = _
  rw [execDecbit, decodeBit_no_context hc hf, returning_fault]

/-! ## A register that has no room (43_literal_decoder R162, 42_length_decoder R155) -/

theorem exec_litBit_too_long {s t : State} {b : Bool} (hb : 256 ≤ s.byte.toNat) (hd : Decides s.byte.toNat s b t) :
    exec .litBit s = .fault .literalTooLong := by
  show execLitBit s = _
  rw [execLitBit, treeContext, decodeBit_decides hd, bind_ok, if_pos (by rwa [hd.byte]), toOutcome_fault]

theorem exec_lVal_too_large {s t : State} {b : Bool} (hp : s.bitPos.toNat = 31)
    (hd : Decides (s.lctx.toNat + 1) s b t) : exec .lVal s = .fault .bitPosTooLarge := by
  have h31 : t.bitPos = 31 := hd.bitPos.trans (BitVec.eq_of_toNat_eq hp)
  show execLVal s = _
  rw [execLVal, valContext, decodeBit_decides hd, bind_ok, if_pos h31, toOutcome_fault]

/-! ## A copy that has no byte (44_match_copy R174, R175) -/

theorem exec_mCopy_or_copyb {i : Instr} (hi : i ∈ [Instr.mCopy, Instr.copyb]) (s : State) :
    exec i s = (copyByte s).toOutcome := by
  simp only [List.mem_cons, List.not_mem_nil, or_false] at hi
  rcases hi with rfl | rfl <;> rfl

theorem copyByte_nothing {s : State} (hl : s.writePos.toNat < s.dstEnd.toNat) (hr : s.rem.toNat = 0) :
    copyByte s = .fault .nothingToCopy := by
  rw [copyByte, if_neg (by omega), if_pos (BitVec.eq_of_toNat_eq hr)]

theorem rem_ne_zero {s : State} (hr : 1 ≤ s.rem.toNat) : s.rem ≠ 0 := fun h => by
  rw [h] at hr
  exact absurd hr (by decide)

theorem copyByte_below_zero {s : State} (hl : s.writePos.toNat < s.dstEnd.toNat) (hr : 1 ≤ s.rem.toNat)
    (ho : s.writePos.toNat < s.offset.toNat) : copyByte s = .fault .outAddressBelowZero := by
  rw [copyByte, if_neg (by omega), if_neg (rem_ne_zero hr), if_pos ho]

/-- With a byte to copy and its source in the address space, only the backing can stop the copy. -/
theorem copyByte_not_backed {s : State} (hl : s.writePos.toNat < s.dstEnd.toNat) (hr : 1 ≤ s.rem.toNat)
    (ho : s.offset.toNat ≤ s.writePos.toNat)
    (hb : backedAt s.outBacking (copySource s) = false ∨ backedAt s.outBacking s.writePos.toNat = false) :
    copyByte s = .refused .outNotBacked := by
  rcases copyByte_cases s with ⟨_, _, _, hdst, v, hv, _⟩ | ⟨hfull, _⟩ | ⟨_, h0, _⟩ | ⟨_, hbelow, _⟩ | ⟨_, _, he⟩
  · have hsrc : backedAt s.outBacking (copySource s) = true := by rw [← readOut_isSome, hv, Option.isSome_some]
    simp [hsrc, hdst] at hb
  · omega
  · exact absurd h0 (rem_ne_zero hr)
  · omega
  · exact he

/-! ## A byte of IN that is not backed (20_memory R71) -/

theorem renormalize_not_backed {s : State} (hx : s.state.toNat < 4096) (hc : s.cursor.toNat < s.srcEnd.toNat)
    (hb : backedAt s.inBacking s.cursor.toNat = false) : renormalize s = .refused .inNotBacked := by
  rw [renormalize, show s.srcEnd.toNat - s.cursor.toNat = s.srcEnd.toNat - s.cursor.toNat - 1 + 1 by omega, renormLoop,
    if_pos hx, readIn_eq_none.mpr hb]

/-- Settles O44: each stop is its operation's lemma above. -/
theorem excludedEntriesStopByName : Obligations.ExcludedEntriesStopByName := by
  refine fun s => ⟨fun hb b t => exec_litBit_too_long hb, fun hc bs => exec_litBit_no_context hc,
    fun hp b t => exec_lVal_too_large hp, fun i hi hl => ?_, fun i hi hl hb => ?_,
    fun c hc => ⟨fun b => exec_probUpd_no_context hc b s, fun bs => exec_decbit_no_context hc⟩, fun hx hc hb => ?_⟩
  · rw [exec_mCopy_or_copyb hi]
    exact ⟨fun hr => by rw [copyByte_nothing hl hr, toOutcome_fault],
      fun hr ho => by rw [copyByte_below_zero hl hr ho, toOutcome_fault],
      fun hr ho hb => by rw [copyByte_not_backed hl hr ho hb, toOutcome_refused]⟩
  · rw [exec_emits hi, emitByte_not_backed _ hl hb]
  · show execRenorm s = _
    rw [execRenorm, renormalize_not_backed hx hc hb, toOutcome_refused]

end Sys2Proof.Machine
end

section
/-! # Matches and the end of the stream: M_HASOFF, M_CHK, M_COPY, COPYB, MATCH.N, MATCH.R, MATCH.C, END.N, END.C
(44_match_copy R170 to R181) -/

namespace Sys2Proof.Machine

/-! ## M_HASOFF (R170) -/

/-- Settles O30: the decision's bit picks which of the two codes LSTART begins. -/
theorem mHasoffChoosesTheCode : Obligations.MHasoffChoosesTheCode := by
  refine fun s => ⟨fun b t hd => ?_, fun bs hs => ?_⟩ <;> show execMHasoff s = _
  · rw [execMHasoff, decodeBit_decides hd, bind_ok, toOutcome_ok]
    cases b <;> rfl
  · rw [execMHasoff, decodeBit_starves hs, bind_raised, toOutcome_raised]

/-! ## M_CHK (R174) -/

theorem checkOffset_valid {s : State} (h1 : 1 ≤ s.offset.toNat)
    (h2 : s.dstBase.toNat + s.offset.toNat ≤ s.writePos.toNat) : checkOffset s = .ok () { s with phase := phMCopy } := by
  rcases checkOffset_cases s with ⟨_, _, he⟩ | ⟨hbad, _⟩
  · exact he
  · omega

theorem checkOffset_invalid {s : State}
    (h : s.offset.toNat = 0 ∨ s.writePos.toNat < s.offset.toNat + s.dstBase.toNat) :
    checkOffset s = .raised (raiseFault .invalidOffset s.offset s) := by
  rcases checkOffset_cases s with ⟨hpos, hwritten, _⟩ | ⟨_, he⟩
  · omega
  · exact he

/-- Settles O31: with `dst_base <= write_pos` the difference the rule compares with is the bytes written. -/
theorem mChkValidatesTheOffset : Obligations.MChkValidatesTheOffset := by
  refine fun s hbase => ⟨fun h1 h2 => ?_, fun hbad => ?_⟩ <;> show execMChk s = _
  · rw [execMChk, checkOffset_valid h1 (by omega), toOutcome_ok]
  · rw [execMChk, checkOffset_invalid (by omega), toOutcome_raised]
    rfl

/-! ## M_COPY and COPYB (R175) -/

theorem copyByte_overflows {s : State} (hl : s.dstEnd.toNat ≤ s.writePos.toNat) :
    copyByte s = .raised (raiseFault .outputOverflow s.writePos s) := by
  rw [copyByte, if_pos hl]

theorem copyByte_copies {s : State} {v : Byte} (hl : s.writePos.toNat < s.dstEnd.toNat) (hr : 1 ≤ s.rem.toNat)
    (ho : s.offset.toNat ≤ s.writePos.toNat) (hb : backedAt s.outBacking s.writePos.toNat = true)
    (hv : s.readOut (copySource s) = some v) : copyByte s = .ok () (countCopied (appendOut v s)) := by
  rw [copyByte, if_neg (by omega), if_neg (rem_ne_zero hr), if_neg (by omega), hv]
  show (storeOut v s).bind _ = _
  rw [storeOut, if_pos hb, bind_ok]

/-- Settles O32: the byte is appended and then counted. -/
theorem mCopyCopiesOneByte : Obligations.MCopyCopiesOneByte := by
  refine fun s i hi => ⟨fun hl hr ho hb v hv => ⟨countCopied (appendOut v s), ?_, ?_, fun a => ?_⟩, fun hl => ?_⟩
  · rw [exec_mCopy_or_copyb hi, copyByte_copies hl hr ho hb hv, toOutcome_ok]
  · have hlast : s.rem.toNat = 1 ↔ s.rem = 1 := BitVec.toNat_inj (y := 1)
    simp only [countCopied_eq, hlast]
    rfl
  · rw [countCopied_eq]
    exact read_write _ _ _ _
  · rw [exec_mCopy_or_copyb hi, copyByte_overflows hl, toOutcome_raised]
    rfl

/-! ## The symbols MATCH.N, MATCH.C and MATCH.R (R176 to R179) -/

/-- A match at offset `o`, the one of its field or the one the register holds, is the net effect with `o` in the
register. -/
theorem exec_match {s : State} {o n : Word} {i : Instr}
    (hi : i ∈ [Instr.matchN o n, Instr.matchC o n] ++ (if s.offset = o then [Instr.matchR n] else [])) :
    exec i s = (matchEffect n { s with offset := o }).toOutcome := by
  rcases List.mem_append.mp hi with hfield | hreg
  · simp only [List.mem_cons, List.not_mem_nil, or_false] at hfield
    rcases hfield with rfl | rfl <;> rfl
  · split at hreg
    next ho =>
      subst ho
      cases List.mem_singleton.mp hreg
      rfl
    next => exact absurd hreg List.not_mem_nil

/-- A match at a valid offset is its copies, begun in M_COPY with all of its length to go. -/
theorem matchEffect_valid {n : Word} {s : State} (h1 : 1 ≤ s.offset.toNat)
    (h2 : s.dstBase.toNat + s.offset.toNat ≤ s.writePos.toNat) :
    matchEffect n s = (copyTimes n.toNat { s with rem := n, phase := phMCopy }).bind fun _ t =>
      .ok () { t with pwm := true, phase := phSop } := by
  rw [matchEffect, checkOffset_valid (s := { s with rem := n }) h1 h2, bind_ok]

/-- Settles O33: the check passes, and `copyTimes_fits` says what the copies leave, which end the match themselves. -/
theorem matchCopiesItsBytes : Obligations.MatchCopiesItsBytes := by
  intro s o n hn ho hvalid hbacked hfits i hi
  obtain ⟨t, hcopies, hframe, hkept, hcopied⟩ :=
    copyTimes_fits { s with offset := o, rem := n, phase := phMCopy } n.toNat rfl ho hvalid hbacked hfits hn
  rw [BitVec.ofNat_toNat, BitVec.setWidth_eq] at hframe
  refine ⟨t, ?_, hframe, hkept, hcopied⟩
  rw [exec_match hi, matchEffect_valid ho hvalid, hcopies, bind_ok, toOutcome_ok, hframe]

theorem read_of_readOut {s : State} {a : Nat} {v : Byte} (hw : (s.outMem.read a).isSome) (hv : s.readOut a = some v) :
    s.outMem.read a = some v := by
  obtain ⟨w, hr⟩ := Option.isSome_iff_exists.mp hw
  have hb : backedAt s.outBacking a = true := by rw [← readOut_isSome, hv, Option.isSome_some]
  rw [hr, ← readOut_of_read hb hr, hv]

/-- Settles O34: by `matchCopiesItsBytes` each new byte equals the byte before it, and the match leaves the `v` before the
first, so all are `v` by induction. -/
theorem offsetOneRepeatsTheLastByte : Obligations.OffsetOneRepeatsTheLastByte := by
  intro s n v hn hbase hv hbacked hfits i hi
  have hlast : backedAt s.outBacking (s.writePos.toNat - 1) = true := by
    rw [← readOut_isSome, hv, Option.isSome_some]
  have hrange : OutBacked s (s.writePos.toNat - (1 : Word).toNat) (s.writePos.toNat + n.toNat) := by
    intro a hlo hhi
    rcases Nat.lt_or_ge a s.writePos.toNat with h | h
    · rwa [show a = s.writePos.toNat - 1 from Nat.le_antisymm (Nat.le_sub_one_of_lt h) hlo]
    · exact hbacked a h hhi
  obtain ⟨t, he, hframe, hkept, hcopied⟩ :=
    matchCopiesItsBytes s 1 n hn (le_refl 1) hbase hrange hfits i (List.mem_append_left _ hi)
  have hpos : t.writePos = s.writePos + n := by rw [hframe]
  have hbacking : t.outBacking = s.outBacking := by rw [hframe]
  have hread : ∀ k ≤ n.toNat, t.readOut (s.writePos.toNat - 1 + k) = some v := by
    intro k hk
    induction k with
    | zero => rw [← hv]; exact readOut_congr (hkept _ (.inl (by omega))) hbacking
    | succ k ih =>
      rw [show s.writePos.toNat - 1 + (k + 1) = s.writePos.toNat + k by omega, (hcopied k hk).1, ← ih (by omega)]
      congr 1
      show s.writePos.toNat + k - 1 = _
      omega
  refine ⟨t, he, ?_, fun k hk => read_of_readOut (hcopied k hk).2 ?_⟩
  · have hend := s.dstEnd.isLt
    rw [hpos, BitVec.toNat_add_of_lt (by omega)]
  · rw [← hread (k + 1) hk]
    congr 1
    omega

/-! ## The symbols END.N and END.C (R180, R181) -/

/-- Settles O37: both symbols are `endEffect`. -/
theorem endGoesToDone : Obligations.EndGoesToDone := by
  intro s i hi
  simp only [List.mem_cons, List.not_mem_nil, or_false] at hi
  rcases hi with rfl | rfl
  · show execEndN s = _
    rw [execEndN, endEffect]
  · show execEndC s = _
    rw [execEndC, endEffect]

end Sys2Proof.Machine
end

section
/-! # Steps of the FSM: which operation runs, what SOP dispatches to, the table of transitions (45_top_fsm R193 to R196) -/

namespace Sys2Proof.Machine

/-! ## Which operation a step runs (R193) -/

theorem engineStep_reserved {s : State} (h : 11 ≤ s.phase.toNat) : engineStep s = .fault .noSuchPhase := by
  simp only [engineStep, fetchPhase, decodePhase_reserved _ h]

theorem symbolStep_away {s : State} (h : s.phase ≠ phSop) : symbolStep s = engineStep s := by
  rw [symbolStep, if_neg h]

/-- Settles O10: the phase's code and the script's first action pick the move. -/
theorem stepRunsThePhaseOperation : Obligations.StepRunsThePhaseOperation :=
  fun _ => ⟨fun _ => engineStep_of_decode, engineStep_reserved, step_of_script_nil, fun _ => step_of_script,
    fun _ => step_of_script, symbolStep_away, fun hp _ _ => symbolStep_of_fetch hp⟩

/-- Of the codes the spec has, those that are not busy are IDLE, DONE and FAULT (10_state R42). -/
theorem phase_of_not_busy {s : State} (hp : s.phase.toNat ≤ 10) (hb : s.busy = false) :
    s.phase = phIdle ∨ s.phase = phDone ∨ s.phase = phFault := by
  unfold State.busy at hb
  generalize s.phase = p at hp hb
  revert p
  decide

/-- Settles O12: the three operations answer the state, and a machine that is not busy is in one of their phases. -/
theorem idleDoneAndFaultTakeNoStep : Obligations.IdleDoneAndFaultTakeNoStep := by
  refine fun s => ⟨rfl, rfl, rfl, fun hs hp hb => ?_⟩
  rw [step_of_script_nil hs]
  exact (EngineCase.still (phase_of_not_busy hp hb)).engineStep_eq

/-! ## The dispatch at SOP (R194) -/

/-- Settles O29: the decision's bit and `pwm` pick the branch; LSTART(0) begins the offset code. -/
theorem sopDispatches : Obligations.SopDispatches := by
  refine fun s => ⟨fun b t hd => ?_, fun bs hs => ?_⟩ <;> show execSop s = _
  · rw [execSop, decodeBit_decides hd, bind_ok]
    cases b with
    | false => rfl
    | true =>
      cases hw : s.pwm with
      | true => rw [if_pos rfl, if_pos (hd.pwm.trans hw)]; rfl
      | false => rw [if_pos rfl, if_neg (by rw [hd.pwm, hw]; exact Bool.false_ne_true)]; rfl
  · rw [execSop, decodeBit_starves hs, bind_raised, toOutcome_raised]

/-! ## The table of transitions (R193) -/

theorem not_busy_of_phase {s : State} (h : s.phase = phIdle ∨ s.phase = phDone ∨ s.phase = phFault) :
    s.busy = false := by
  rcases h with h | h | h <;> rw [State.busy, h] <;> rfl

theorem mem_transitions {s t : State} {p q : BitVec 4} (hp : s.phase = p) (hq : t.phase = q)
    (h : (p, q) ∈ transitions := by decide) : (s.phase, t.phase) ∈ transitions := by
  rwa [hp, hq]

theorem countCopied_phase (s : State) : (countCopied s).phase = if s.rem = 1 then phSop else phMCopy := by
  rw [countCopied_eq]

/-- Input runs out in a phase that takes a decision, and from each of them the table has a row to FAULT. -/
theorem starved_mem_transitions :
    ∀ p ∈ [phSop, phLitBit, phMHasoff, phLCont, phLVal], (p, phFault) ∈ transitions := by decide

/-- Each case of a step of a busy engine is a row of the table. -/
theorem EngineCase.transition {s t : State} (h : EngineCase s t) (hb : s.busy = true) :
    (s.phase, t.phase) ∈ transitions := by
  cases h with
  | starved bs _ hp => exact starved_mem_transitions s.phase hp
  | sopLiteral _ hp => exact mem_transitions (q := phLitBit) hp rfl
  | sopHasoff _ hp => exact mem_transitions (q := phMHasoff) hp rfl
  | sopOffset _ hp | hasoff _ _ hp | offset _ hp | valueBit _ _ hp => exact mem_transitions (q := phLCont) hp rfl
  | continued _ hp => exact mem_transitions (q := phLVal) hp rfl
  | length _ hp => exact mem_transitions (q := phMChk) hp rfl
  | checked hp => exact mem_transitions (q := phMCopy) hp rfl
  | sentinel _ hp => exact mem_transitions (q := phDone) hp rfl
  | emitted hp => exact mem_transitions (q := phSop) hp rfl
  | tooLong _ hp | badOffset hp => exact mem_transitions (q := phFault) hp rfl
  | overflowed hp => rcases hp with hp | hp <;> exact mem_transitions (q := phFault) hp rfl
  | treeBit b _ hp =>
    by_cases h256 : 256 ≤ 2 * s.byte.toNat + b.toNat
    · exact mem_transitions hp (if_pos h256)
    · exact mem_transitions hp (if_neg h256)
  | copied v hp =>
    have hq := countCopied_phase (appendOut v s)
    by_cases h1 : (appendOut v s).rem = 1
    · exact mem_transitions hp (hq.trans (if_pos h1))
    · exact mem_transitions hp (hq.trans (if_neg h1))
  | still hp => rw [not_busy_of_phase hp] at hb; cases hb

/-- Settles O38: a next state of the engine is one of the step's cases. -/
theorem engineFollowsTheTransitionTable : Obligations.EngineFollowsTheTransitionTable :=
  fun _ _ hb h => (engineStep_cases h).transition hb

end Sys2Proof.Machine
end

section
/-! # The big steps are runs of phase steps (45_top_fsm R197, 92_eei_decisions D11) -/

namespace Sys2Proof.Machine

/-! ## Runs with the host away -/

theorem run_one (M : Host.Core) (s : M.State) : M.run 1 s = M.step s := by
  rw [Host.Core.run]
  cases M.step s <;> rfl

/-- A run that comes to `t` goes on from there. -/
theorem run_add_of_next (M : Host.Core) {j : Nat} (k : Nat) {s t : M.State} (h : M.run j s = .next t) :
    M.run (j + k) s = M.run k t := by
  induction j generalizing s with
  | zero => cases h; rw [Nat.zero_add]
  | succ j ih =>
    obtain ⟨u, hu, hrun⟩ := run_succ_eq_next M h
    rw [Nat.succ_add, run_succ_of_step M _ hu, ih hrun]

/-- With the host away the machine's step is the engine's. -/
theorem core_step_of_script_nil {s : State} (hs : s.script = []) : core.step s = engineStep s := step_of_script_nil hs

/-- The host stays away during a run. -/
theorem run_script_nil {k : Nat} {s t : State} (hs : s.script = []) (h : Host.Core.run core k s = .next t) :
    t.script = [] := by
  induction k generalizing s with
  | zero => cases h; exact hs
  | succ k ih =>
    obtain ⟨u, hu, hrun⟩ := run_succ_eq_next core h
    have hcase := engineStep_cases ((core_step_of_script_nil hs).symm.trans hu)
    exact ih (hcase.script.trans hs) hrun

/-- What engine steps lead to, the machine runs to. -/
theorem Leads.exists_run {s : State} {o : Host.Outcome State Fault Refusal} (h : Leads (engineStep s) o)
    (hs : s.script = []) : ∃ k, 1 ≤ k ∧ Host.Core.run core k s = o := by
  generalize ho : engineStep s = o₁ at h
  induction h generalizing s with
  | here o => exact ⟨1, le_refl 1, (run_one core s).trans ((core_step_of_script_nil hs).trans ho)⟩
  | @step u o _ ih =>
    obtain ⟨k, _, hrun⟩ := ih ((engineStep_cases ho).script.trans hs) rfl
    have hstep : core.step s = .next u := (core_step_of_script_nil hs).trans ho
    exact ⟨k + 1, Nat.le_add_left 1 k, (run_succ_of_step core k hstep).trans hrun⟩

/-! ## One symbol, and the whole decode -/

/-- Settles O48: the symbol's engine steps are the machine's while the host is away. -/
theorem symbolStepIsARunOfPhaseSteps : Obligations.SymbolStepIsARunOfPhaseSteps :=
  fun s hs _ => (symbolStep_leads s).exists_run hs

/-- The loop is a run from every phase: away from SOP a symbol step is one engine step. -/
theorem unpack_exists_run (n : Nat) {s : State} (hs : s.script = []) : ∃ k, Host.Core.run core k s = unpack n s := by
  induction n generalizing s with
  | zero => exact ⟨0, rfl⟩
  | succ n ih =>
    obtain ⟨j, _, hj⟩ := (symbolStep_leads s).exists_run hs
    rw [unpack]
    by_cases hb : s.busy = true
    case neg => exact ⟨0, by rw [if_neg hb]; rfl⟩
    rw [if_pos hb]
    cases ho : symbolStep s with
    | next t =>
      rw [ho] at hj
      obtain ⟨k, hk⟩ := ih (run_script_nil hs hj)
      exact ⟨j + k, (run_add_of_next core k hj).trans hk⟩
    | fault e => exact ⟨j, hj.trans ho⟩
    | refused e => exact ⟨j, hj.trans ho⟩

/-- Settles O49, by induction on the fuel: the runs of the symbols one after the other. -/
theorem unpackIsARunOfPhaseSteps : Obligations.UnpackIsARunOfPhaseSteps :=
  fun n _ hs _ => unpack_exists_run n hs

end Sys2Proof.Machine
end

section
/-! # Every decode ends (45_top_fsm R198)

A decision makes the coder's part of `work` smaller by more than the check of a match adds, a byte of output takes room
away, and the check itself is counted; so a step that does not stop the engine makes `work` smaller. -/

namespace Sys2Proof.Machine

/-! ## The parts of `work` -/

/-- The coder's part: the input left, and the coder state (41_entropy_decoder R136). -/
def coderWork (s : State) : Nat := (s.srcEnd.toNat - s.cursor.toNat) * 2 ^ 20 + s.state.toNat

/-- The room left in OUT. -/
def outRoom (s : State) : Nat := s.dstEnd.toNat - s.writePos.toNat

theorem work_eq (s : State) : work s = coderWork s + outRoom s + if s.phase = phMChk then 1 else 0 := rfl

theorem work_of_ne_mChk {s : State} (h : s.phase ≠ phMChk) : work s = coderWork s + outRoom s := by
  rw [work_eq, if_neg h, Nat.add_zero]

theorem work_le (s : State) : work s ≤ coderWork s + outRoom s + 1 := by
  rw [work_eq]
  split <;> omega

/-- A decision takes at least 112 from the coder state, and the bytes it consumes count more than the value they can
bring it to (41_entropy_decoder R130, R136). -/
theorem Decides.coderWork_add_le {c : Nat} {s t : State} {b : Bool} (hd : Decides c s b t) (hi : DecodeInv s) :
    coderWork t + 112 ≤ coderWork s := by
  have hbound := (hd.running hi).stateBound
  obtain ⟨bs, p, hf, hp, hb, rfl⟩ := hd
  have hstate : (decided c p b bs s).state.toNat ≤ nextCoderState b p.toNat (accumulate s.state.toNat bs) := by
    rw [decided_state, BitVec.toNat_ofNat]
    exact Nat.mod_le _ _
  have hshrinks := nextCoderState_add_le hf.enough (hi.probsRange c p hp) hb
  have hcursor : (decided c p b bs s).cursor.toNat = s.cursor.toNat + bs.length := hf.cursor_toNat
  unfold coderWork
  rw [hcursor, decided_srcEnd]
  by_cases hne : bs = []
  · subst hne
    rw [accumulate_nil] at hstate hshrinks
    rw [List.length_nil]
    omega
  · have hvalue := hf.lt_of_ne_nil hne
    have hpos := List.length_pos_iff.mpr hne
    have hwithin := hf.within.resolve_left hne
    omega

/-- A step that takes a decision, leaves the coder as the decision does and touches no output makes `work` smaller. -/
theorem Decides.work_lt {c : Nat} {s t u : State} {b : Bool} (hd : Decides c s b u) (hi : DecodeInv s)
    (hcoder : coderWork t = coderWork u) (hout : outRoom t = outRoom u) : work t < work s := by
  have hroom : outRoom u = outRoom s := by rw [hd.frame]; rfl
  have hshrinks := hd.coderWork_add_le hi
  calc work t ≤ coderWork t + outRoom t + 1 := work_le t
    _ < coderWork s + outRoom s := by omega
    _ ≤ work s := Nat.le_add_right _ _

/-- A step that stores a byte below `dst_end`, moves on to another phase than M_CHK and leaves the coder makes `work`
smaller. -/
theorem work_lt_of_append {s t : State} (hl : s.writePos.toNat < s.dstEnd.toNat) (hcoder : coderWork t = coderWork s)
    (hw : t.writePos = s.writePos + 1) (hd : t.dstEnd = s.dstEnd) (hp : t.phase ≠ phMChk) : work t < work s := by
  have hnext := writePos_succ_toNat hl
  have hroom : outRoom t < outRoom s := by
    unfold outRoom
    rw [hw, hd, hnext]
    omega
  calc work t = coderWork t + outRoom t := work_of_ne_mChk hp
    _ < coderWork s + outRoom s := by omega
    _ ≤ work s := Nat.le_add_right _ _

theorem countCopied_phase_ne_mChk (s : State) : (countCopied s).phase ≠ phMChk := by
  rw [countCopied_phase]
  split <;> decide

/-- A step after which the engine is still busy makes `work` smaller. -/
theorem EngineCase.work_lt {s t : State} (h : EngineCase s t) (hi : DecodeInv s) (hb : t.busy = true) :
    work t < work s := by
  cases h with
  | sopLiteral _ _ hd | sopOffset _ _ hd | sopHasoff _ _ hd | treeBit _ _ _ hd | hasoff _ _ _ hd | continued _ _ hd
  | length _ _ hd | offset _ _ hd | valueBit _ _ _ hd => exact hd.work_lt hi rfl rfl
  | emitted _ hl => exact work_lt_of_append hl rfl rfl rfl (show phSop ≠ phMChk by decide)
  | copied v _ hl =>
    refine work_lt_of_append hl ?_ ?_ ?_ (countCopied_phase_ne_mChk _) <;> rw [countCopied_eq] <;> rfl
  | checked hp =>
    rw [work_of_ne_mChk (show phMCopy ≠ phMChk by decide), work_eq s, if_pos hp]
    exact Nat.lt_succ_self _
  | still hp => rw [not_busy_of_phase hp] at hb; cases hb
  | starved | overflowed | tooLong | badOffset | sentinel => cases hb

/-! ## The end of a decode -/

theorem transitions_into : ∀ e ∈ transitions,
    e.2 ∈ [phSop, phLitBit, phLitEmit, phMHasoff, phLCont, phLVal, phMChk, phMCopy] ∨ e.2 = phDone ∨ e.2 = phFault := by
  simp [transitions]

/-- A busy engine stays busy or ends in DONE or FAULT. -/
theorem EngineCase.busy_or_ended {s t : State} (h : EngineCase s t) (hb : s.busy = true) :
    t.busy = true ∨ t.phase = phDone ∨ t.phase = phFault :=
  (transitions_into _ (h.transition hb)).imp_left busy_of_phase

/-- Settles O47, by induction on `work`: a step either ends the decode or makes it smaller. -/
theorem everyDecodeEnds : Obligations.EveryDecodeEnds := by
  intro s hI hb hs
  induction hn : work s using Nat.strong_induction_on generalizing s with
  | _ n ih =>
    obtain ⟨t, hcase⟩ := hI.engine_progress
    have hstep : core.step s = .next t := (core_step_of_script_nil hs).trans hcase.engineStep_eq
    rcases hcase.busy_or_ended hb with hbt | hend
    · have hlt := hcase.work_lt (hI.decoding hb) hbt
      obtain ⟨k, u, hk, hrun, hu⟩ :=
        ih (work t) (hn ▸ hlt) t (hcase.keeps_inv hI) hbt (hcase.script.trans hs) rfl
      exact ⟨k + 1, u, by omega, (run_succ_of_step core k hstep).trans hrun, hu⟩
    · exact ⟨1, t, by omega, (run_one core s).trans hstep, hend⟩

end Sys2Proof.Machine
end

section
/-! # The host's START and its reads of the memories (45_top_fsm R191, R200) -/

namespace Sys2Proof.Machine

/-- Settles O3: the launch check passes on backed ranges, and START is ignored while busy. -/
theorem startInitialisesTheDecode : Obligations.StartInitialisesTheDecode := by
  refine fun s => ⟨fun hb hl hin hout => ?_, exec_start_busy⟩
  rw [exec_start_ready hb hl, if_pos ((launchBacked_iff s).mpr ⟨hin, hout⟩)]
  rfl

/-! ## Reads of IN and OUT (R200, 20_memory R71) -/

section
variable {s : State} {rest : List HostAct} {a : Word} {b : Byte}

/-- A backed byte of IN is the one last written, where one was. -/
theorem readIn_of_backed (hb : backedAt s.inBacking a.toNat = true) :
    ∃ b, s.readIn a.toNat = some b ∧ ∀ v, s.inMem.read a.toNat = some v → b = v := by
  refine ⟨(s.inMem.read a.toNat).getD (Config.unwrittenIn a.toNat), if_pos hb, fun v hv => ?_⟩
  rw [hv, Option.getD_some]

theorem readOut_of_backed (hb : backedAt s.outBacking a.toNat = true) :
    ∃ b, s.readOut a.toNat = some b ∧ ∀ v, s.outMem.read a.toNat = some v → b = v := by
  refine ⟨(s.outMem.read a.toNat).getD (Config.unwrittenOut a.toNat), if_pos hb, fun v hv => ?_⟩
  rw [hv, Option.getD_some]

theorem step_inRead (h : s.script = .inRead a :: rest) (hr : s.readIn a.toNat = some b) :
    step s = .next { s with script := rest, busData := b.setWidth 32 } := by
  have hr' : State.readIn { s with script := rest } a.toNat = some b := hr
  rw [step_of_script h, boundary, hostReadIn, hr', toOutcome_ok]

theorem step_inRead_unbacked (h : s.script = .inRead a :: rest) (hr : s.readIn a.toNat = none) :
    step s = .refused .inNotBacked := by
  have hr' : State.readIn { s with script := rest } a.toNat = none := hr
  rw [step_of_script h, boundary, hostReadIn, hr', toOutcome_refused]

theorem step_outRead (h : s.script = .outRead a :: rest) (hbusy : s.busy = false) (hr : s.readOut a.toNat = some b) :
    step s = .next { s with script := rest, busData := b.setWidth 32 } := by
  have hr' : State.readOut { s with script := rest } a.toNat = some b := hr
  have hbusy' : State.busy { s with script := rest } = false := hbusy
  rw [step_of_script h, boundary, hostReadOut, hr', hbusy', Bool.false_and]
  rfl

theorem step_outRead_unbacked (h : s.script = .outRead a :: rest) (hr : s.readOut a.toNat = none) :
    step s = .refused .outNotBacked := by
  have hr' : State.readOut { s with script := rest } a.toNat = none := hr
  rw [step_of_script h, boundary, hostReadOut, hr', toOutcome_refused]

end

/-- Settles O59: a backed address is read, another refused; OUT of a machine that is not busy is in no decode's range. -/
theorem hostReadsTheMemories : Obligations.HostReadsTheMemories := by
  refine fun s rest a => ⟨fun h => ⟨fun hb => ?_, fun hb => step_inRead_unbacked h (readIn_eq_none.mpr hb)⟩,
    fun h => ⟨fun hbusy hb => ?_, fun hb => step_outRead_unbacked h (readOut_eq_none.mpr hb)⟩⟩
  · obtain ⟨b, hr, hlast⟩ := readIn_of_backed hb
    exact ⟨b, step_inRead h hr, hlast⟩
  · obtain ⟨b, hr, hlast⟩ := readOut_of_backed hb
    exact ⟨b, step_outRead h hbusy hr, hlast⟩

end Sys2Proof.Machine
end

section
/-! # Exceptions: the match that is stopped, and the four faults (60_exceptions R210 to R217) -/

namespace Sys2Proof.Machine

/-! ## OutputOverflow inside a match (R212) -/

/-- Settles O35: the check passes, and `copyTimes_cut` says what the copies leave; the fault one of them takes ends the
match, so its `pwm <- 1` is not reached. -/
theorem matchThatDoesNotFitIsCutAtTheLimit : Obligations.MatchThatDoesNotFitIsCutAtTheLimit := by
  intro s o n ho hvalid hbacked hcut hn i hi
  obtain ⟨t, hcopies, hstopped⟩ :=
    copyTimes_cut { s with offset := o, rem := n, phase := phMCopy } n.toNat rfl ho hvalid hbacked hcut hn rfl
  refine ⟨t, ?_, hstopped⟩
  rw [exec_match hi, matchEffect_valid ho hvalid, hcopies, bind_raised, toOutcome_raised]

/-! ## InvalidOffset before any byte (R213, R217) -/

/-- A match at an invalid offset ends at its check, its length already in `rem`. -/
theorem matchEffect_invalid {n : Word} {s : State}
    (h : s.offset.toNat = 0 ∨ s.writePos.toNat < s.offset.toNat + s.dstBase.toNat) :
    matchEffect n s = .raised (raiseFault .invalidOffset s.offset { s with rem := n }) := by
  rw [matchEffect, checkOffset_invalid (s := { s with rem := n }) h, bind_raised]

/-- Settles O36: with `dst_base <= write_pos` an offset beyond the bytes written is one the check refuses. -/
theorem invalidOffsetComesBeforeOverflow : Obligations.InvalidOffsetComesBeforeOverflow := by
  intro s o n hbase hbad i hi
  have hrefused : o.toNat = 0 ∨ s.writePos.toNat < o.toNat + s.dstBase.toNat := by omega
  rw [exec_match hi, matchEffect_invalid (s := { s with offset := o }) hrefused, toOutcome_raised]
  rfl

/-! ## The faults of a step (R210, R211, R214, R215) -/

theorem Starves.truncated_state_lt {s : State} {bs : List Byte} (h : Starves s bs) :
    (truncated s bs).state.toNat < 4096 := by
  have hsmall := h.tooSmall bs.length (le_refl _)
  rw [List.take_length] at hsmall
  rw [truncated_eq_raise, raiseFault_state, fed_state, BitVec.toNat_ofNat]
  exact lt_of_le_of_lt (Nat.mod_le _ _) hsmall

theorem Starves.srcEnd_le_truncated_cursor {s : State} {bs : List Byte} (h : Starves s bs) :
    (truncated s bs).srcEnd.toNat ≤ (truncated s bs).cursor.toNat := by
  rw [truncated_eq_raise, raiseFault_srcEnd, raiseFault_cursor, fed_srcEnd, fed_cursor, h.cursor_toNat, ← h.allUsed]
  omega

theorem countCopied_phase_ne_fault (s : State) : (countCopied s).phase ≠ phFault := by
  rw [countCopied_phase]
  split <;> decide

/-- The cases of a step that lead to FAULT from a phase in which the engine moves, one for each fault. -/
theorem EngineCase.of_fault {s t : State} (h : EngineCase s t) (hb : s.busy = true) (hf : t.phase = phFault) :
    (∃ bs, Starves s bs ∧ s.phase ∈ [phSop, phLitBit, phMHasoff, phLCont, phLVal] ∧ t = truncated s bs) ∨
    ((s.phase = phLitEmit ∨ s.phase = phMCopy) ∧ s.dstEnd.toNat ≤ s.writePos.toNat ∧
      t = raiseFault .outputOverflow s.writePos s) ∨
    (s.phase = phMChk ∧ (s.offset.toNat = 0 ∨ s.writePos.toNat < s.offset.toNat + s.dstBase.toNat) ∧
      t = raiseFault .invalidOffset s.offset s) ∨
    ∃ u, s.phase = phLCont ∧ Decides s.lctx.toNat s true u ∧ s.bitPos = 31 ∧
      t = raiseFault .lengthOverflow (s.lctx.setWidth 32) u := by
  cases h with
  | starved bs hs hp => exact .inl ⟨bs, hs, hp, rfl⟩
  | overflowed hp hfull => exact .inr (.inl ⟨hp, hfull, rfl⟩)
  | badOffset hp hbad => exact .inr (.inr (.inl ⟨hp, hbad, rfl⟩))
  | tooLong u hp hd h31 => exact .inr (.inr (.inr ⟨u, hp, hd, h31, rfl⟩))
  | treeBit b u =>
    have hphase : (if 256 ≤ 2 * s.byte.toNat + b.toNat then phLitEmit else phLitBit) = phFault := hf
    split at hphase <;> exact absurd hphase (by decide)
  | copied v => exact absurd hf (countCopied_phase_ne_fault _)
  | still hp => rw [not_busy_of_phase hp] at hb; cases hb
  | _ => simp at hf

/-- Settles O43: each fault's case records what its row of the table says. -/
theorem faultsAreTheFourOfTheTable : Obligations.FaultsAreTheFourOfTheTable := by
  intro s t hb hstep hf
  rcases (engineStep_cases hstep).of_fault hb hf with
    ⟨bs, hs, hp, rfl⟩ | ⟨hp, hfull, rfl⟩ | ⟨hp, hbad, rfl⟩ | ⟨u, hp, hd, h31, rfl⟩
  · exact .inl ⟨rfl, rfl, hs.srcEnd_le_truncated_cursor, hs.truncated_state_lt, rfl, hp⟩
  · refine .inr (.inl ⟨rfl, rfl, hfull, rfl, ?_⟩)
    rcases hp with hp | hp <;> simp [hp]
  · refine .inr (.inr (.inl ⟨rfl, rfl, ?_, rfl, hp⟩))
    rwa [Nat.add_comm] at hbad
  · exact .inr (.inr (.inr ⟨rfl, rfl, h31, ⟨u, hd⟩, hp, hd.outMem⟩))

end Sys2Proof.Machine
end

section
/-! # The hardware reset, and the host at the buffers (70_reset_and_hazards R240, R252) -/

namespace Sys2Proof.Machine

/-! ## The hardware reset (R240) -/

/-- The reset action is the hardware reset, whatever the engine is doing. -/
theorem step_reset {s : State} {rest : List HostAct} (h : s.script = .reset :: rest) :
    step s = .next (hardwareReset { s with script := rest }) := by
  rw [step_of_script h, boundary]

/-- Settles O1: both machines have the registers of `State.reset`, and `hardwareReset` takes over the memories. -/
theorem resetGivesIdleAndKeepsOutput : Obligations.ResetGivesIdleAndKeepsOutput :=
  ⟨⟨rfl, rfl, rfl, rfl⟩, fun _ _ h => ⟨_, step_reset h, rfl, rfl, rfl, rfl, rfl, rfl, rfl, rfl⟩⟩

theorem reset_not_busy : State.reset.busy = false := rfl

/-- Settles O2: no byte is listed, no fault is recorded, and an idle engine has nothing to decode. -/
theorem resetMeetsTheInvariant : Obligations.ResetMeetsTheInvariant where
  inCanonical := reset_memories_wf.left
  outCanonical := reset_memories_wf.right
  phaseLegal := Nat.zero_le _
  causeLegal := Nat.zero_le _
  faultRecorded := by decide
  noStaleInfo := fun _ => rfl
  decoding := fun hb => absurd (reset_not_busy ▸ hb) Bool.false_ne_true

/-! ## The host at IN and OUT (R252, 45_top_fsm R200) -/

section
variable {s : State} {rest : List HostAct} {a : Word} {v : Byte}

theorem inOutRange_eq_true (hlo : s.dstBase.toNat ≤ a.toNat) (hhi : a.toNat < s.dstEnd.toNat) :
    inOutRange a s = true := by
  rw [inOutRange, decide_eq_true hlo, decide_eq_true hhi, Bool.and_self]

theorem step_inWrite_busy (h : s.script = .inWrite a v :: rest) (hbusy : s.busy = true) :
    step s = .refused .hostWriteWhileBusy := by
  have hbusy' : State.busy { s with script := rest } = true := hbusy
  rw [step_of_script h, boundary, hostWriteIn, if_pos hbusy', toOutcome_refused]

theorem step_outWrite_busy (h : s.script = .outWrite a v :: rest) (hbusy : s.busy = true)
    (hrange : inOutRange a s = true) : step s = .refused .hostWriteWhileBusy := by
  have hrunning : (State.busy { s with script := rest } && inOutRange a { s with script := rest }) = true :=
    Bool.and_eq_true_iff.mpr ⟨hbusy, hrange⟩
  rw [step_of_script h, boundary, hostWriteOut, if_pos hrunning, toOutcome_refused]

/-- A read of the running decode's OUT range returns a free value, and takes it from the supply (log 8). -/
theorem step_outRead_early (h : s.script = .outRead a :: rest) (hbusy : s.busy = true)
    (hrange : inOutRange a s = true) (hb : backedAt s.outBacking a.toNat = true) :
    step s = .next { s with
      script := rest, busData := (Config.earlyOutByte s.freeTick a).setWidth 32, freeTick := s.freeTick + 1 } := by
  obtain ⟨b, hr, _⟩ := readOut_of_backed (s := { s with script := rest }) hb
  have hrunning : (State.busy { s with script := rest } && inOutRange a { s with script := rest }) = true :=
    Bool.and_eq_true_iff.mpr ⟨hbusy, hrange⟩
  rw [step_of_script h, boundary, hostReadOut, hr]
  simp only [hrunning, if_true, toOutcome_ok]

theorem step_inWrite (h : s.script = .inWrite a v :: rest) (hbusy : s.busy = false)
    (hb : backedAt s.inBacking a.toNat = true) :
    step s = .next { s with script := rest, inMem := s.inMem.write a.toNat v } := by
  have hbusy' : State.busy { s with script := rest } = false := hbusy
  rw [step_of_script h, boundary, hostWriteIn, hbusy', if_neg Bool.false_ne_true, if_pos hb, toOutcome_ok]

theorem step_outWrite (h : s.script = .outWrite a v :: rest) (hbusy : s.busy = false)
    (hb : backedAt s.outBacking a.toNat = true) :
    step s = .next { s with script := rest, outMem := s.outMem.write a.toNat v } := by
  have hbusy' : State.busy { s with script := rest } = false := hbusy
  rw [step_of_script h, boundary, hostWriteOut, hbusy', Bool.false_and, if_neg Bool.false_ne_true, if_pos hb,
    toOutcome_ok]

/-- A backed byte of IN just written is read back. -/
theorem readIn_write_same (hb : backedAt s.inBacking a.toNat = true) :
    State.readIn { s with script := rest, inMem := s.inMem.write a.toNat v } a.toNat = some v := by
  obtain ⟨b, hr, hlast⟩ := readIn_of_backed (s := { s with script := rest, inMem := s.inMem.write a.toNat v }) hb
  rw [hr, hlast v (read_write_same _ _ _)]

/-- A backed byte of OUT just written is read back. -/
theorem readOut_write_same (hb : backedAt s.outBacking a.toNat = true) :
    State.readOut { s with script := rest, outMem := s.outMem.write a.toNat v } a.toNat = some v :=
  readOut_of_read hb (read_write_same _ _ _)

end

/-- Settles O9: while busy the write guards refuse and the early read takes a free value; when idle the read after the
write finds its byte, and `read_write` gives the other bytes. -/
theorem hostKeepsOffTheBuffersWhileBusy : Obligations.HostKeepsOffTheBuffersWhileBusy := by
  refine fun s rest a v => ⟨fun hbusy h => step_inWrite_busy h hbusy, fun hbusy hlo hhi => ?running,
    fun hbusy => ⟨fun hb h => ?inBack, fun hb h => ?outBack⟩⟩
  case running =>
    have hrange : inOutRange a s = true := inOutRange_eq_true hlo hhi
    exact ⟨fun h => step_outWrite_busy h hbusy hrange, fun hb h => ⟨_, step_outRead_early h hbusy hrange hb⟩⟩
  case inBack =>
    exact ⟨_, _, step_inWrite h hbusy hb, step_inRead rfl (readIn_write_same hb), rfl,
      fun b => read_write s.inMem a.toNat b v⟩
  case outBack =>
    exact ⟨_, _, step_outWrite h hbusy hb, step_outRead rfl hbusy (readOut_write_same hb), rfl,
      fun b => read_write s.outMem a.toNat b v⟩

end Sys2Proof.Machine
end
